-- ==== Sys2Proof/Word.lean ====
section
/-! DEFINITION. The word types of the block (spec/00_scope.md R6, R7; 10_state.md R22). -/

namespace Sys2Proof

/-- A register, an operand or a bus word: 32 bits, bit 0 least significant (R6, R22). -/
abbrev Word := BitVec 32

/-- One BUF byte (R60). -/
abbrev Byte := BitVec 8

/-- A CRC-16 register (R120). -/
abbrev Half := BitVec 16

end Sys2Proof
end

