-- ==== Sys2Proof/Config.lean ====
section
/-! DEFINITION. What a build of the block fixes (spec/00_scope.md R5), the constants no build changes, and the one
OPEN value. The build record stands in State and no step changes it (log 1). -/

namespace Sys2Proof

/-- `SENTINEL_POLICY` (R5, R149): which fields make a table entry a disabled slot. -/
inductive SentinelPolicy where
  | addrAndChecksum
  | addrOnly
deriving DecidableEq, Repr

/-- `RETRY_ORDER` (R5, R203): is the retry count compared after or before the increment. -/
inductive RetryOrder where
  | incThenCmp
  | cmpThenInc
deriving DecidableEq, Repr

/-- `RETRY_CONSUME` (R5, R205): is the first retry after exhaustion accepted or refused. -/
inductive RetryConsume where
  | firstAllowed
  | blockOnExhausted
deriving DecidableEq, Repr

/-- The parameters of R5 that a build chooses. -/
structure Build where
  /-- `ID_VALUE` (R24). -/
  idValue : Word
  /-- `VERSION_VALUE` (R24). -/
  versionValue : Word
  /-- `BUF_SIZE` (R30, R60). -/
  bufSize : Word
  /-- `CRC16_POLY` (R35, R120). -/
  crc16Poly : Half
  /-- `M32B_TARGET` (R34, R146). -/
  m32bTarget : Word
  /-- `SENTINEL_POLICY` (R149). -/
  sentinelPolicy : SentinelPolicy
  /-- `RETRY_ORDER` (R203). -/
  retryOrder : RetryOrder
  /-- `RETRY_CONSUME` (R205). -/
  retryConsume : RetryConsume
deriving DecidableEq, Repr

/-- `M32B_TARGET` is OPEN (R5, R146, decision D19): a constant with no body, of which nothing can be proved (log 2). -/
opaque Config.openM32bTarget : Word

/-- This hardware's build: the values of the table of R5. -/
def Build.thisHardware : Build where
  idValue := 0x45435542
  versionValue := 0x00000001
  bufSize := 0x00200000
  crc16Poly := 0x8408
  m32bTarget := Config.openM32bTarget
  sentinelPolicy := .addrAndChecksum
  retryOrder := .incThenCmp
  retryConsume := .firstAllowed

/-- `CRC16_INIT` (R5, R35, R120). -/
def crc16Init : Half := 0xFFFF

/-- `CRC16_XOROUT` (R5, R120): no final XOR. -/
def crc16XorOut : Half := 0x0000

/-- `M32A_TARGET` (R33, R141): a fixed constant, not a parameter (decision D18). -/
def m32aTarget : Word := 0x5AA55AA5

/-- `MAX_EXTRACT_BITS` (R5, R231). -/
def maxExtractBits : Nat := 32

/-- Block offset of `BUF[0]` in the host's address map (R64). -/
def bufWindowBase : Nat := 0x01000000

/-- Size of the register block in bytes (R22, R64). -/
def regBlockSize : Nat := 0x100

end Sys2Proof
end

