-- ==== Sys2Proof/Syntax.lean ====
section
/-! DEFINITION. The commands of the block: one constructor per row of spec/opcode_table.json (30_encoding.md R93).
A command word carries no operand (R91), so no constructor has an argument: operands are the latched ARG0–ARG3. -/

namespace Sys2Proof

/-- The twenty commands of the opcode map (R93). -/
inductive Instr where
  | nop
  | crc16Compute
  | crc16Check
  | m32aCompute
  | m32aUpdate
  | m32aValidate
  | m32bRegion
  | m32bTableUpdate
  | m32bTableValidate
  | frameEncode
  | frameDecode
  | frameParse
  | fcExpectCts
  | fcReceivedCts
  | fcHandleTimeout
  | fcRetry
  | fcReset
  | fcToIdle
  | fcInit
  | bitsExtract
deriving DecidableEq, Repr

end Sys2Proof
end

