-- ==== Sys2Proof/Machine/Bus.lean ====
section
/-! DEFINITION. What the outside of the block can do to it, as data: register names, host accesses, the block's
answers, the steps of the total order of 20_memory.md R71, and the lines of a host program (30_encoding.md R97, R98). -/

namespace Sys2Proof.Machine

/-- The named registers of the map of R22. -/
inductive RegName where
  | id | version | ctrl | status | cmd | errInfo | bufLen | bufSize
  | arg0 | arg1 | arg2 | arg3
  | res0 | res1 | res2
  | m32aTarget | m32bTarget | crc16Poly | crc16Init
  | fcStatus | fcRetryCount | fcMaxRetries | fcTimeoutMs
  | intStatus | intEnable
deriving DecidableEq, Repr

/-- Width of a host access (R65, R66). -/
inductive Width where
  | w8 | w16 | w32
deriving DecidableEq, Repr

/-- One host access at a block offset (R64): a read of a width, or a write that carries a value of its width. -/
inductive HostAccess where
  | read (width : Width) (offset : Word)
  | write8 (offset : Word) (value : Byte)
  | write16 (offset : Word) (value : Half)
  | write32 (offset : Word) (value : Word)
deriving DecidableEq, Repr

/-- The block's answer to a host access (R64–R66, log 5). -/
inductive BusResponse where
  /-- An 8-bit read returned this byte. -/
  | byte (value : Byte)
  /-- A 32-bit read returned this word. -/
  | word (value : Word)
  /-- A write completed. -/
  | done
  /-- The access completed with a bus error: no data, no effect. -/
  | busError
deriving DecidableEq, Repr

/-- One step of the total order of R71: of the host, of the engine (R70), of the timer (R208), or the reset input
(R282). Acceptance and soft reset are host writes (to `CMD`, to `CTRL`). -/
inductive Event where
  | host (access : HostAccess)
  | engine
  | timer
  | powerOn
deriving DecidableEq, Repr

/-- One line of a host program (R97, R98). `wait` and `command` say how many polls find the engine still busy:
the latency is unspecified (R292), so every number is a line (log 16). -/
inductive HostLine where
  /-- `WR <reg>, <imm32>` -/
  | wr (reg : RegName) (value : Word)
  /-- `RD <reg>` -/
  | rd (reg : RegName)
  /-- `WB <off>, <b0> <b1> …` -/
  | wb (offset : Nat) (bytes : List Byte)
  /-- `WW <off>, <imm32>` -/
  | ww (offset : Nat) (value : Word)
  /-- `RB <off>, <n>` -/
  | rb (offset : Nat) (count : Nat)
  /-- `RW <off>` -/
  | rw (offset : Nat)
  /-- `WAIT` -/
  | wait (busyPolls : Nat)
  /-- `<MNEMONIC> a0, a1, a2, a3`, operands optional from the right -/
  | command (instr : Instr) (operands : List Word) (busyPolls : Nat)
  /-- `ZERO <off>, <n>`: always the byte writes of `WB`, the model's choice of the two expansions R98 allows (log 21) -/
  | zero (offset : Nat) (count : Nat)
  /-- `CLRINT` -/
  | clrint
  /-- `SRST` -/
  | srst
  /-- `EXPIRE`, the environment event of R208 -/
  | expire
deriving DecidableEq, Repr

end Sys2Proof.Machine
end

