-- ==== Sys2Proof/WellFormed.lean ====
section
/-! DEFINITION. Which builds, command words and host program lines are well formed. -/

namespace Sys2Proof

/-- A legal build (R5): `BUF_SIZE` is a multiple of 4 from 16 to 0x0100_0000. -/
def Build.wellFormed (b : Build) : Bool :=
  b.bufSize.toNat % 4 == 0 && decide (16 ≤ b.bufSize.toNat) && decide (b.bufSize.toNat ≤ 0x01000000)

/-- The opcodes R94 lists as illegal. -/
def opcodeReserved (op : BitVec 8) : Bool :=
  let n := op.toNat
  (decide (0x03 ≤ n) && decide (n ≤ 0x0F)) || (decide (0x13 ≤ n) && decide (n ≤ 0x17)) ||
  (decide (0x1B ≤ n) && decide (n ≤ 0x1F)) || (decide (0x23 ≤ n) && decide (n ≤ 0x2F)) ||
  (decide (0x37 ≤ n) && decide (n ≤ 0x3F)) || decide (0x41 ≤ n)

/-- A command word R94 does not call illegal: `RSVD` = 0 and an assigned `OPCODE`. -/
def commandWordWellFormed (w : Word) : Bool :=
  w.extractLsb' 8 24 == 0 && !opcodeReserved (w.extractLsb' 0 8)

/-- Every command is well formed: R91 gives a command word no operand that could be out of range. -/
def Instr.wellFormed (_ : Instr) : Bool := true

namespace Machine

/-- A host line that R97 and R98 give a meaning on a build: BUF ranges inside BUF, `WW` and `RW` at 4-aligned
offsets, at least one byte for `WB` and `RB`, at most four operands for a command. -/
def HostLine.wellFormed (b : Build) : HostLine → Bool
  | .wb off bs => !bs.isEmpty && decide (off + bs.length ≤ b.bufSize.toNat)
  | .ww off _ => off % 4 == 0 && decide (off + 4 ≤ b.bufSize.toNat)
  | .rb off n => decide (0 < n) && decide (off + n ≤ b.bufSize.toNat)
  | .rw off => off % 4 == 0 && decide (off + 4 ≤ b.bufSize.toNat)
  | .zero off n => decide (off + n ≤ b.bufSize.toNat)
  | .command _ ops _ => decide (ops.length ≤ 4)
  | .wr _ _ | .rd _ | .wait _ | .clrint | .srst | .expire => true

end Machine

end Sys2Proof
end

