-- ==== Sys2Proof/Decode.lean ====
section
/-! DEFINITION. From a command word to a command, total and rejecting by name, and back (30_encoding.md R90–R94).
A command word is one 32-bit register write: there is no length to find and no operand in the word (R90, R91). -/

namespace Sys2Proof

/-- Why a word selects no command (R92). Both reasons raise ILLEGAL_CMD at completion. -/
inductive DecodeError where
  /-- `RSVD` ≠ 0. -/
  | reservedBitsSet
  /-- `OPCODE` is not a row of R93. -/
  | unassignedOpcode
deriving DecidableEq, Repr

/-- `OPCODE`, bits 7:0 (R90). -/
def opcodeField (w : Word) : BitVec 8 := w.extractLsb' 0 8

/-- `RSVD`, bits 31:8 (R90). -/
def rsvdField (w : Word) : BitVec 24 := w.extractLsb' 8 24

/-- The opcode map of R93, row by row. -/
def opcodeMap : List (BitVec 8 × Instr) :=
  [(0x00, .nop), (0x01, .crc16Compute), (0x02, .crc16Check),
   (0x10, .m32aCompute), (0x11, .m32aUpdate), (0x12, .m32aValidate),
   (0x18, .m32bRegion), (0x19, .m32bTableUpdate), (0x1A, .m32bTableValidate),
   (0x20, .frameEncode), (0x21, .frameDecode), (0x22, .frameParse),
   (0x30, .fcExpectCts), (0x31, .fcReceivedCts), (0x32, .fcHandleTimeout), (0x33, .fcRetry),
   (0x34, .fcReset), (0x35, .fcToIdle), (0x36, .fcInit),
   (0x40, .bitsExtract)]

/-- The row of an opcode, if it has one. -/
def opcodeLookup (op : BitVec 8) : Option Instr :=
  (opcodeMap.find? fun row => row.1 == op).map fun row => row.2

/-- The decoder of R92: `RSVD` first, then the opcode map. -/
def decode (w : Word) : Except DecodeError Instr :=
  if rsvdField w ≠ 0 then .error .reservedBitsSet
  else match opcodeLookup (opcodeField w) with
    | some i => .ok i
    | none => .error .unassignedOpcode

/-- The encoder: the word whose host write to `CMD` selects the command, from the "Encoding" line of each
command's own rule (R122, R123, R143–R145, R147, R151, R152, R172, R174, R176, R201–R209, R231, R240). -/
def encode : Instr → Word
  | .nop => 0x00000000
  | .crc16Compute => 0x00000001
  | .crc16Check => 0x00000002
  | .m32aCompute => 0x00000010
  | .m32aUpdate => 0x00000011
  | .m32aValidate => 0x00000012
  | .m32bRegion => 0x00000018
  | .m32bTableUpdate => 0x00000019
  | .m32bTableValidate => 0x0000001A
  | .frameEncode => 0x00000020
  | .frameDecode => 0x00000021
  | .frameParse => 0x00000022
  | .fcExpectCts => 0x00000030
  | .fcReceivedCts => 0x00000031
  | .fcHandleTimeout => 0x00000032
  | .fcRetry => 0x00000033
  | .fcReset => 0x00000034
  | .fcToIdle => 0x00000035
  | .fcInit => 0x00000036
  | .bitsExtract => 0x00000040

/-- The decoder on a row of spec/opcode_table.json: `nbits` bits of value `w`, every higher bit 0. A value that no
32-bit word holds selects nothing. -/
def decodeTableWord (nbits w : Nat) : Option Instr :=
  let v := w % 2 ^ nbits
  if v < 2 ^ 32 then
    match decode (BitVec.ofNat 32 v) with
    | .ok i => some i
    | .error _ => none
  else none

end Sys2Proof
end

