-- ==== Sys2Proof/Machine/State.lean ====
section
/-! DEFINITION. The state of the block as plain data (10_state.md), its error reports, the reasons a step can stop,
and the state after power-on reset (70_reset_and_hazards.md R280, R281). -/

namespace Sys2Proof.Machine

/-- The error codes of R250 (0x00 NONE is the absence of one). -/
inductive ErrCode where
  | illegalCmd | alignment | emptyRegion | bounds | payloadLength | fieldWidth
deriving DecidableEq, Repr

/-- What a failed check names (R28): an operand register, a field of a table entry, the latched `BUF_LEN`, or the
command word. -/
inductive Culprit where
  | arg0 | arg1 | arg2 | arg3
  | tableEntry
  | latchedBufLen
  | commandWord
deriving DecidableEq, Repr

/-- What `raise E(info)` carries (R8, R252): the code, the operand, and the entry index (0 unless named). -/
structure CmdError where
  code : ErrCode
  culprit : Culprit
  entry : BitVec 24
deriving DecidableEq, Repr

/-- Why the machine stops. -/
inductive Fault where
  /-- `UninitRead` (R43, R255): a command, or a host read of the BUF window, read a byte nothing has written since
  power-on. Raised by the memory reads. Safe: the hardware reads whatever the byte holds. -/
  | uninitRead
  /-- `HostRace` (R72, R255, R287): the host accessed the BUF window while `BUSY` = 1. Raised by the host port.
  Safe: the hardware's outcome is unpredictable. -/
  | hostRace
  /-- A meaning was applied to a state with no pending command, where the engine's step is not enabled (R70).
  Raised by `runCommand`, never by `step`. Safe (log 13). -/
  | noCommandPending
deriving DecidableEq, Repr

/-- Why an instruction has no meaning. Every row of the table has its meaning, so `exec` never refuses. -/
inductive Refusal where
  /-- An instruction that the model does not give a meaning yet. Raised by no arm of `exec`. Safe. -/
  | notModelled (mnemonic : String)
deriving DecidableEq, Repr

/-- BUF with its `WRITTEN` bits (R41, R43): the bytes written since power-on, addresses strictly rising. A byte that
is not listed has `WRITTEN` = 0 and no value (log 7). -/
abbrev Memory := List Host.Cell

/-- The canonical form of a memory: addresses strictly rising. (An unlisted byte reads as no value, so no entry can
equal what it reads as.) -/
abbrev Memory.wf (m : Memory) : Prop := m.Pairwise fun x y => x.1 < y.1

/-- The stored bits of `STATUS` (R26). `BUSY` is the presence of `PENDING` (R42, log 12). -/
structure StatusReg where
  err : Bool
  ovr : Bool
  errcode : BitVec 8
deriving DecidableEq, Repr

/-- `ERR_INFO` (R28): `ENTRY` [31:8], `OPERAND` [7:0]. -/
structure ErrInfo where
  entry : BitVec 24
  operand : BitVec 8
deriving DecidableEq, Repr

/-- `ARG0`–`ARG3` (R31). -/
structure Args where
  a0 : Word
  a1 : Word
  a2 : Word
  a3 : Word
deriving DecidableEq, Repr

/-- `RES0`–`RES2` (R32). -/
structure Results where
  r0 : Word
  r1 : Word
  r2 : Word
deriving DecidableEq, Repr

/-- `FC_STATUS.STATE` (R36, R200). -/
inductive FcState where
  | idle | waitingCts | ready | error
deriving DecidableEq, Repr

/-- The flow-control unit (R200): the fields of `FC_STATUS` (R36) and `FC_RETRY_COUNT` (R37). -/
structure FcUnit where
  state : FcState
  timerArmed : Bool
  exhausted : Bool
  consumed : Bool
  retryCount : Word
deriving DecidableEq, Repr

/-- `PENDING` (R42, R256): the accepted word and the latched operands, `BUF_LEN`, `FC_MAX_RETRIES`, `FC_TIMEOUT_MS`. -/
structure Pending where
  word : Word
  args : Args
  bufLen : Word
  maxRetries : Word
  timeoutMs : Word
deriving DecidableEq, Repr

/-- The whole state (10_state.md R20–R43), and the model's own two fields `resp` (log 5) and `agenda` (log 3). -/
structure State where
  build : Build
  status : StatusReg
  cmd : Word
  errInfo : ErrInfo
  bufLen : Word
  args : Args
  res : Results
  fc : FcUnit
  fcMaxRetries : Word
  fcTimeoutMs : Word
  timerLatch : Word
  intStatus : BitVec 3
  intEnable : BitVec 3
  pending : Option Pending
  mem : Memory
  resp : Option BusResponse
  agenda : List Event
deriving DecidableEq, Repr

/-- The state after power-on reset (R280, R281). `timerLatch` is a DESIGN CHOICE (log 6): the spec leaves it open. -/
def State.reset : State where
  build := Build.thisHardware
  status := { err := false, ovr := false, errcode := 0x00 }
  cmd := 0x00000000
  errInfo := { entry := 0, operand := 0xFF }
  bufLen := 0
  args := { a0 := 0, a1 := 0, a2 := 0, a3 := 0 }
  res := { r0 := 0, r1 := 0, r2 := 0 }
  fc := { state := .idle, timerArmed := false, exhausted := false, consumed := false, retryCount := 0 }
  fcMaxRetries := 3
  fcTimeoutMs := 100
  timerLatch := 0
  intStatus := 0
  intEnable := 0
  pending := none
  mem := []
  resp := none
  agenda := []

end Sys2Proof.Machine
end

