-- ==== Sys2Proof/Machine/Ops.lean ====
section
/-! DEFINITION. The shared operations: BUF reads and writes (20_memory.md R60–R62), what a command can answer
(60_exceptions.md R252), acceptance (R256, R257), completion, which is how the block takes an error and how it
returns from one (R258, R259), and the two resets (45_system.md R241, 70_reset_and_hazards.md R280, R281). -/

namespace Sys2Proof.Machine

/-! ### BUF -/

/-- One byte of BUF, if it was written since power-on (R43). -/
def Memory.read : Memory → Nat → Option Byte
  | [], _ => none
  | (b, v) :: rest, a => if a = b then some v else Memory.read rest a

/-- Write one byte; the form stays canonical and the byte counts as written (R43, R66). -/
def Memory.write : Memory → Nat → Byte → Memory
  | [], a, v => [(a, v)]
  | (b, w) :: rest, a, v =>
    if a < b then (a, v) :: (b, w) :: rest
    else if a = b then (a, v) :: rest
    else (b, w) :: Memory.write rest a v

/-- `MemRead(a, n)` of R8: the `n` bytes from `a`, if every one was written. -/
def Memory.readBytes (m : Memory) : Nat → Nat → Option (List Byte)
  | _, 0 => some []
  | a, n + 1 =>
    match m.read a with
    | none => none
    | some v =>
      match Memory.readBytes m (a + 1) n with
      | none => none
      | some vs => some (v :: vs)

/-- `MemWrite(a, n, bytes)` of R8, in ascending offset order. -/
def Memory.writeBytes : Memory → Nat → List Byte → Memory
  | m, _, [] => m
  | m, a, v :: vs => Memory.writeBytes (m.write a v) (a + 1) vs

/-- Four bytes joined big-endian: the first is the most significant (R62). -/
def joinBe (b0 b1 b2 b3 : Byte) : Word := (b0 ++ b1 ++ b2 ++ b3 : BitVec (8 + 8 + 8 + 8))

/-- The four bytes of a word, most significant first: `be32bytes` of R176, the stored bytes of R62. -/
def bytesBe (v : Word) : List Byte :=
  [v.extractLsb' 24 8, v.extractLsb' 16 8, v.extractLsb' 8 8, v.extractLsb' 0 8]

/-- `be32(a)` of R62, if its four bytes were written. -/
def Memory.be32 (m : Memory) (a : Nat) : Option Word :=
  match m.read a, m.read (a + 1), m.read (a + 2), m.read (a + 3) with
  | some b0, some b1, some b2, some b3 => some (joinBe b0 b1 b2 b3)
  | _, _, _, _ => none

/-- `wr_be32(a, v)` of R62. -/
def Memory.wrBe32 (m : Memory) (a : Nat) (v : Word) : Memory := m.writeBytes a (bytesBe v)

/-! ### One named update per part of the state -/

def State.setRes (s : State) (r : Results) : State := { s with res := r }

def State.setMem (s : State) (m : Memory) : State := { s with mem := m }

def State.setFc (s : State) (f : FcUnit) : State := { s with fc := f }

def State.setTimerLatch (s : State) (w : Word) : State := { s with timerLatch := w }

def State.setResp (s : State) (r : BusResponse) : State := { s with resp := some r }

def State.setAgenda (s : State) (l : List Event) : State := { s with agenda := l }

/-! ### Error codes and error information -/

/-- The code of R250 as `STATUS.ERRCODE` holds it. -/
def ErrCode.toByte : ErrCode → BitVec 8
  | .illegalCmd => 0x01
  | .alignment => 0x02
  | .emptyRegion => 0x03
  | .bounds => 0x04
  | .payloadLength => 0x05
  | .fieldWidth => 0x06

/-- `ERR_INFO.OPERAND` of R28. -/
def Culprit.toByte : Culprit → BitVec 8
  | .arg0 => 0x00
  | .arg1 => 0x01
  | .arg2 => 0x02
  | .arg3 => 0x03
  | .tableEntry => 0xFC
  | .latchedBufLen => 0xFD
  | .commandWord => 0xFE

/-- The error of R92 and R254. -/
def illegalCommand : CmdError := { code := .illegalCmd, culprit := .commandWord, entry := 0 }

/-- `INT_STATUS.CMD_DONE` (R40, R260). -/
def intCmdDone : BitVec 3 := 0b001

/-- `INT_STATUS.CMD_ERR` (R40, R260). -/
def intCmdErr : BitVec 3 := 0b010

/-- `INT_STATUS.FC_TIMEOUT` (R40, R260). -/
def intFcTimeout : BitVec 3 := 0b100

/-! ### Acceptance and completion -/

/-- `STATUS.BUSY`: 1 exactly while a command is pending (R26, R42). -/
def State.busy (s : State) : Bool := s.pending.isSome

/-- The record R256 latches for the word `w`. -/
def State.latch (s : State) (w : Word) : Pending :=
  { word := w, args := s.args, bufLen := s.bufLen, maxRetries := s.fcMaxRetries, timeoutMs := s.fcTimeoutMs }

/-- Acceptance of the word `w` by an idle engine (R256, R27). -/
def State.accept (s : State) (w : Word) : State := { s with cmd := w, pending := some (s.latch w) }

/-- A `CMD` write while busy is dropped (R257). -/
def State.overrun (s : State) : State := { s with status := { s.status with ovr := true } }

/-- Completion bookkeeping (R258), with the error of a raise (R252) or none. This one operation is how the block
takes an error; nothing else is saved and there is nothing to return from (R259). -/
def State.complete (s : State) (e : Option CmdError) : State :=
  match e with
  | none =>
    { s with
      pending := none
      status := { s.status with err := false, errcode := 0x00 }
      errInfo := { entry := 0, operand := 0xFF }
      intStatus := s.intStatus ||| intCmdDone }
  | some e =>
    { s with
      pending := none
      status := { s.status with err := true, errcode := e.code.toByte }
      errInfo := { entry := e.entry, operand := e.culprit.toByte }
      intStatus := s.intStatus ||| intCmdDone ||| intCmdErr }

/-! ### What a command answers -/

/-- Why a command's pseudocode ends early: `raise E(info)` (R252), or a model fault (R255). -/
inductive Stop where
  | raise (error : CmdError)
  | fault (reason : Fault)
deriving DecidableEq, Repr

/-- A command's pseudocode: a value, or an early end. -/
abbrev Cmd (α : Type) := Except Stop α

/-- A BUF read inside a command: an unwritten byte is `UninitRead` (R43). -/
def ofRead {α : Type} : Option α → Cmd α
  | some v => .ok v
  | none => .error (.fault .uninitRead)

/-- `if bad then raise E(operand, entry)`. -/
def raiseIfAt (bad : Bool) (code : ErrCode) (culprit : Culprit) (entry : BitVec 24) : Cmd Unit :=
  if bad then .error (.raise { code := code, culprit := culprit, entry := entry }) else .ok ()

/-- `if bad then raise E(operand)`: `ENTRY` is 0 unless named (R252). -/
def raiseIf (bad : Bool) (code : ErrCode) (culprit : Culprit) : Cmd Unit := raiseIfAt bad code culprit 0

/-- The completion step of a command (R70): its pseudocode on `PENDING` and the current state, then the bookkeeping.
On a raise the pseudocode's state is dropped whole (R252). -/
def State.runCommand (s : State) (body : Pending → State → Cmd State) : Host.Outcome State Fault Refusal :=
  match s.pending with
  | none => .fault .noCommandPending
  | some p =>
    match body p s with
    | .ok t => .next (t.complete none)
    | .error (.raise e) => .next (s.complete (some e))
    | .error (.fault f) => .fault f

/-! ### Resets -/

/-- Every register at its reset value, BUF with its `WRITTEN` bits kept, the pending command dropped (R241, R280,
R281). The build, the agenda and the last bus answer are not registers. -/
def State.softReset (s : State) : State :=
  { State.reset with build := s.build, mem := s.mem, resp := s.resp, agenda := s.agenda }

/-- The reset input (R280–R282): as the soft reset, and every `WRITTEN` bit cleared (R281). -/
def State.powerOnReset (s : State) : State :=
  { State.reset with build := s.build, agenda := s.agenda }

end Sys2Proof.Machine
end

