-- ==== Sys2Proof/Machine/Operands.lean ====
section
/-! DEFINITION. The operands of a command: the latched registers as mathematical integers (00_scope.md R7,
30_encoding.md R91), and the tests on them that several commands share. -/

namespace Sys2Proof.Machine

/-- `ARG[0]` as an integer. -/
def Pending.x0 (p : Pending) : Nat := p.args.a0.toNat

/-- `ARG[1]` as an integer. -/
def Pending.x1 (p : Pending) : Nat := p.args.a1.toNat

/-- `ARG[2]` as an integer. -/
def Pending.x2 (p : Pending) : Nat := p.args.a2.toNat

/-- `ARG[3]` as an integer. -/
def Pending.x3 (p : Pending) : Nat := p.args.a3.toNat

/-- `L`, the latched `BUF_LEN`, as an integer (R29). -/
def Pending.len (p : Pending) : Nat := p.bufLen.toNat

/-- `ARG[2][15:0]` (R91, R123). -/
def Pending.expectedCrc (p : Pending) : Half := p.args.a2.extractLsb' 0 16

/-- Not a multiple of 4 (R67). -/
def misaligned (a : Nat) : Bool := a % 4 != 0

/-- `past a L`: a range that ends at `a` goes past the latched length (R60), on unbounded integers (R7). -/
def past (a len : Nat) : Bool := decide (len < a)

/-- `start ≥ end` (R121, R147, R150). -/
def emptyRange (a b : Nat) : Bool := decide (b ≤ a)

/-- A count or offset as a result register holds it. -/
def wordOf (n : Nat) : Word := BitVec.ofNat 32 n

/-- `(c) ? 1 : 0` as a result register holds it. -/
def wordOfBool (c : Bool) : Word := if c then 1 else 0

/-- The checks CRC16_COMPUTE and CRC16_CHECK share (R121). -/
def crcChecks (p : Pending) : Cmd Unit := do
  raiseIf (emptyRange p.x0 p.x1) .emptyRegion .arg0
  raiseIf (past p.x1 p.len) .bounds .arg1

/-- The checks the Vendor A commands share (R142). -/
def m32aChecks (p : Pending) : Cmd Unit := do
  raiseIf (misaligned p.x0) .alignment .arg0
  raiseIf (misaligned p.len) .alignment .latchedBufLen
  raiseIf (past (p.x0 + 4) p.len) .bounds .arg0

/-- The checks of M32B_REGION (R147). -/
def m32bRegionChecks (p : Pending) : Cmd Unit := do
  raiseIf (misaligned p.x0) .alignment .arg0
  raiseIf (misaligned p.x1) .alignment .arg1
  raiseIf (emptyRange p.x0 p.x1) .emptyRegion .arg0
  raiseIf (past p.x1 p.len) .bounds .arg1

/-- The operand checks of the table commands, before the entries are looked at (R150). -/
def tableOperandChecks (p : Pending) : Cmd Unit := do
  raiseIf (misaligned p.x0) .alignment .arg0
  raiseIf (past (p.x0 + 12 * p.x1) p.len) .bounds .arg1

/-- The checks of FRAME_ENCODE (R172). -/
def frameEncodeChecks (p : Pending) : Cmd Unit := do
  raiseIf (decide (p.x1 = 0) || decide (7 < p.x1)) .payloadLength .arg1
  raiseIf (past (p.x0 + p.x1) p.len) .bounds .arg0
  raiseIf (past (p.x2 + p.x1 + 2) p.len) .bounds .arg2

/-- The checks of FRAME_PARSE (R176). -/
def frameParseChecks (p : Pending) : Cmd Unit := do
  raiseIf (past (p.x0 + p.x1) p.len) .bounds .arg1
  raiseIf (past (p.x2 + 8 * p.x3) p.len) .bounds .arg3

/-- The checks of BITS_EXTRACT (R231). -/
def bitsChecks (p : Pending) : Cmd Unit := do
  raiseIf (decide (p.x3 = 0)) .emptyRegion .arg3
  raiseIf (decide (maxExtractBits < p.x3)) .fieldWidth .arg3
  raiseIf (past (p.x0 + p.x1) p.len) .bounds .arg1
  raiseIf (past (p.x2 + p.x3) (8 * p.x1)) .bounds .arg2

end Sys2Proof.Machine
end

