-- ==== Sys2Proof/Machine/Flags.lean ====
section
/-! DEFINITION. Every flag word of the block: `STATUS` (R26), `ERR_INFO` (R28), `FC_STATUS` (R36), the interrupt
registers and the interrupt output (R40, R260, R261), and the flags of a decoded frame (R174, R175). -/

namespace Sys2Proof.Machine

/-- One bit of a word. -/
def bit (c : Bool) : BitVec 1 := if c then 1 else 0

/-- `STATUS` as a read returns it (R26): `ERRCODE` [15:8], `OVR` [2], `ERR` [1], `BUSY` [0], the rest 0. -/
def State.statusWord (s : State) : Word :=
  ((0 : BitVec 16) ++ s.status.errcode ++ (0 : BitVec 5) ++ bit s.status.ovr ++ bit s.status.err ++ bit s.busy :
    BitVec (16 + 8 + 5 + 1 + 1 + 1))

/-- A host write of `STATUS`: bit 2 clears `OVR` (R23, R26). -/
def State.writeStatus (s : State) (v : Word) : State :=
  { s with status := { s.status with ovr := s.status.ovr && !v.getLsbD 2 } }

/-- `ERR_INFO` as a read returns it (R28). -/
def ErrInfo.toWord (e : ErrInfo) : Word := e.entry ++ e.operand

/-- The numeric code of `FC_STATUS.STATE` (R36). -/
def FcState.code : FcState → BitVec 2
  | .idle => 0
  | .waitingCts => 1
  | .ready => 2
  | .error => 3

/-- `FC_STATUS` as a read returns it (R36): `CONSUMED` [10], `EXHAUSTED` [9], `TIMER_ARMED` [8], `STATE` [1:0]. -/
def FcUnit.statusWord (f : FcUnit) : Word :=
  ((0 : BitVec 21) ++ bit f.consumed ++ bit f.exhausted ++ bit f.timerArmed ++ (0 : BitVec 6) ++ f.state.code :
    BitVec (21 + 1 + 1 + 1 + 6 + 2))

/-- An interrupt register as a read returns it: bits 31:3 are 0 (R40). -/
def intWord (b : BitVec 3) : Word := b.zeroExtend 32

/-- A host write of `INT_STATUS`: each bit written as 1 is cleared (R23, R40). -/
def State.clearInterrupts (s : State) (v : Word) : State :=
  { s with intStatus := s.intStatus &&& ~~~(v.extractLsb' 0 3) }

/-- A host write of `INT_ENABLE` (R40). -/
def State.enableInterrupts (s : State) (v : Word) : State := { s with intEnable := v.extractLsb' 0 3 }

/-- The interrupt output (R261): a level, a function of the state, not stored (R42). -/
def State.irq (s : State) : Bool := (s.intStatus &&& s.intEnable) != 0

/-- `LEN_IN_RANGE` of a length nibble (R173). -/
def lenInRange (len : Nat) : Bool := decide (1 ≤ len) && decide (len ≤ 7)

/-- The flags of a complete frame (R174, R175): bit 0 `VALID`, bit 1 `COMPLETE`, bit 2 `LEN_IN_RANGE`, bit 3 `EXTRA`. -/
def frameFlags (valid inRange extra : Bool) : BitVec 4 := 
  (bit extra ++ bit inRange ++ (1 : BitVec 1) ++ bit valid : BitVec (1 + 1 + 1 + 1))

end Sys2Proof.Machine
end

