-- ==== Sys2Proof/Machine/BitField.lean ====
section
/-! DEFINITION. The big-endian bit-field extractor (44_bitfield.md R230, R231). -/

namespace Sys2Proof.Machine

/-- `bitAt(b, k)` of R230, if its byte was written: bit 0 is the most significant bit of byte 0. -/
def bitAt (m : Memory) (b k : Nat) : Option Bool := (m.read (b + k / 8)).map fun v => v.getLsbD (7 - k % 8)

/-- `(v << 1) | bit` of R231. -/
def shiftIn (v : Word) (c : Bool) : Word := (v <<< 1) ||| wordOfBool c

/-- The loop of R231: `w` bits from bit `k`, most significant first, shifted into `v`. -/
def extractFrom (m : Memory) (b : Nat) : Nat → Nat → Word → Option Word
  | 0, _, v => some v
  | w + 1, k, v =>
    match bitAt m b k with
    | none => none
    | some c => extractFrom m b w (k + 1) (shiftIn v c)

/-- BITS_EXTRACT's pseudocode (R231). -/
def bitsExtractBody (p : Pending) (s : State) : Cmd State := do
  bitsChecks p
  let v ← ofRead (extractFrom s.mem p.x0 p.x3 p.x2 0)
  return s.setRes { s.res with r0 := v }

/-- BITS_EXTRACT (R231). -/
def execBitsExtract (s : State) : Host.Outcome State Fault Refusal := s.runCommand bitsExtractBody

end Sys2Proof.Machine
end

