-- ==== Sys2Proof/Machine/Crc16.lean ====
section
/-! DEFINITION. The CRC-16 validator (40_crc16.md R120–R123). -/

namespace Sys2Proof.Machine

/-- One bit of R120, LSB first: shift right, and the polynomial if the bit shifted out is 1. -/
def crcBit (poly c : Half) : Half := if c.getLsbD 0 then (c >>> 1) ^^^ poly else c >>> 1

/-- `n` bits of R120. -/
def crcBits (poly : Half) : Nat → Half → Half
  | 0, c => c
  | n + 1, c => crcBits poly n (crcBit poly c)

/-- One byte of R120: it enters the low 8 bits, then 8 bits are processed. -/
def crcByte (poly c : Half) (b : Byte) : Half := crcBits poly 8 (c ^^^ b.zeroExtend 16)

/-- The loop of R120 over the bytes in ascending order, with a final XOR (R124 law 2 speaks of its variants). -/
def crc16With (poly xorOut : Half) (bytes : List Byte) : Half := bytes.foldl (crcByte poly) crc16Init ^^^ xorOut

/-- `crc16(bytes)` of R120, for the polynomial of the build: no final XOR. -/
def crc16 (poly : Half) (bytes : List Byte) : Half := crc16With poly crc16XorOut bytes

/-- The CRC of the region `[ARG[0], ARG[1])` (R121, R122). -/
def regionCrc (p : Pending) (s : State) : Cmd Half := do
  crcChecks p
  let bytes ← ofRead (s.mem.readBytes p.x0 (p.x1 - p.x0))
  return crc16 s.build.crc16Poly bytes

/-- CRC16_COMPUTE's pseudocode (R122). -/
def crc16ComputeBody (p : Pending) (s : State) : Cmd State := do
  let c ← regionCrc p s
  return s.setRes { s.res with r0 := c.zeroExtend 32 }

/-- CRC16_COMPUTE (R122). -/
def execCrc16Compute (s : State) : Host.Outcome State Fault Refusal := s.runCommand crc16ComputeBody

/-- CRC16_CHECK's pseudocode (R123): a mismatch is a result. -/
def crc16CheckBody (p : Pending) (s : State) : Cmd State := do
  let c ← regionCrc p s
  return s.setRes { s.res with r0 := c.zeroExtend 32, r1 := wordOfBool (c == p.expectedCrc) }

/-- CRC16_CHECK (R123). -/
def execCrc16Check (s : State) : Host.Outcome State Fault Refusal := s.runCommand crc16CheckBody

end Sys2Proof.Machine
end

