-- ==== Sys2Proof/Machine/FlowControl.lean ====
section
/-! DEFINITION. The K-line flow-control framer and its timer (43_flowcontrol.md R200–R209). -/

namespace Sys2Proof.Machine

/-- FC_EXPECT_CTS's pseudocode (R201). -/
def fcExpectCtsBody (p : Pending) (s : State) : Cmd State :=
  .ok ((s.setTimerLatch p.timeoutMs).setFc { s.fc with timerArmed := true, state := .waitingCts })

/-- FC_EXPECT_CTS (R201). -/
def execFcExpectCts (s : State) : Host.Outcome State Fault Refusal := s.runCommand fcExpectCtsBody

/-- FC_RECEIVED_CTS's pseudocode (R202). -/
def fcReceivedCtsBody (_ : Pending) (s : State) : Cmd State :=
  .ok (s.setFc { s.fc with timerArmed := false, state := .ready })

/-- FC_RECEIVED_CTS (R202). -/
def execFcReceivedCts (s : State) : Host.Outcome State Fault Refusal := s.runCommand fcReceivedCtsBody

/-- `min(c + 1, 0xFFFF_FFFF)` (R37, R203, R204). -/
def saturatingSucc (c : Word) : Word := if c = 0xFFFFFFFF then c else c + 1

/-- `allowed` of R203, with the count `c` before the command and the latched limit. -/
def retryAllowed (order : RetryOrder) (c limit : Word) : Bool :=
  match order with
  | .incThenCmp => decide ((saturatingSucc c).toNat < limit.toNat)
  | .cmpThenInc => decide (c.toNat < limit.toNat)

/-- FC_HANDLE_TIMEOUT's pseudocode (R204). -/
def fcHandleTimeoutBody (p : Pending) (s : State) : Cmd State :=
  let fc := { s.fc with retryCount := saturatingSucc s.fc.retryCount }
  if retryAllowed s.build.retryOrder s.fc.retryCount p.maxRetries then
    .ok ((s.setFc { fc with state := .idle }).setRes { s.res with r0 := 1 })
  else
    .ok ((s.setFc { fc with exhausted := true, state := .error }).setRes { s.res with r0 := 0 })

/-- FC_HANDLE_TIMEOUT (R204). -/
def execFcHandleTimeout (s : State) : Host.Outcome State Fault Refusal := s.runCommand fcHandleTimeoutBody

/-- Does the exhausted flag refuse a retry (the middle test of R205). -/
def retryBlocked (consume : RetryConsume) (fc : FcUnit) : Bool :=
  match consume with
  | .firstAllowed => fc.exhausted && fc.consumed
  | .blockOnExhausted => fc.exhausted

/-- Is a retry accepted (R205): only from IDLE or ERROR, and not past a consumed exhaustion. -/
def retryAccepted (consume : RetryConsume) (fc : FcUnit) : Bool :=
  (fc.state == .idle || fc.state == .error) && !retryBlocked consume fc

/-- FC_RETRY's pseudocode (R205): a refusal is a result and changes no flow-control state. -/
def fcRetryBody (_ : Pending) (s : State) : Cmd State :=
  if retryAccepted s.build.retryConsume s.fc then
    .ok ((s.setFc { s.fc with state := .idle, consumed := s.fc.consumed || s.fc.exhausted }).setRes
      { s.res with r0 := 1 })
  else .ok (s.setRes { s.res with r0 := 0 })

/-- FC_RETRY (R205). -/
def execFcRetry (s : State) : Host.Outcome State Fault Refusal := s.runCommand fcRetryBody

/-- What R206 and R207 do: disarm, count 0, IDLE; `EXHAUSTED` and `CONSUMED` stay. -/
def FcUnit.cleared (f : FcUnit) : FcUnit := { f with timerArmed := false, retryCount := 0, state := .idle }

/-- FC_RESET's pseudocode (R206). -/
def fcResetBody (_ : Pending) (s : State) : Cmd State := .ok (s.setFc s.fc.cleared)

/-- FC_RESET (R206). -/
def execFcReset (s : State) : Host.Outcome State Fault Refusal := s.runCommand fcResetBody

/-- FC_TO_IDLE's pseudocode (R207). -/
def fcToIdleBody (_ : Pending) (s : State) : Cmd State := .ok (s.setFc s.fc.cleared)

/-- FC_TO_IDLE (R207). -/
def execFcToIdle (s : State) : Host.Outcome State Fault Refusal := s.runCommand fcToIdleBody

/-- A fresh flow-control instance (R200, R209, R280). -/
def freshFc : FcUnit :=
  { state := .idle, timerArmed := false, exhausted := false, consumed := false, retryCount := 0 }

/-- FC_INIT's pseudocode (R209). -/
def fcInitBody (_ : Pending) (s : State) : Cmd State := .ok (s.setFc freshFc)

/-- FC_INIT (R209). -/
def execFcInit (s : State) : Host.Outcome State Fault Refusal := s.runCommand fcInitBody

/-- The effect of timer expiry (R208). -/
def State.expire (s : State) : State :=
  { s with fc := { s.fc with timerArmed := false, state := .error }, intStatus := s.intStatus ||| intFcTimeout }

/-- The timer's step: expiry, enabled exactly while armed (R208). Where it is not enabled nothing happens (log 4). -/
def timerStep (s : State) : Host.Outcome State Fault Refusal :=
  if s.fc.timerArmed then .next s.expire else .next s

end Sys2Proof.Machine
end

