-- ==== Sys2Proof/Machine/Frame.lean ====
section
/-! DEFINITION. The ISO 14230 frame encoder and decoder (42_frame.md R170–R176). Every command reads its inputs
into a list before it writes (R170). -/

namespace Sys2Proof.Machine

/-- `fcs` of R171: the unsigned sum modulo 256. -/
def fcs (bytes : List Byte) : Byte := bytes.foldl (fun acc b => acc + b) 0

/-- The length nibble of a PCI byte (R173). -/
def pciLen (pci : Byte) : Nat := (pci.extractLsb' 0 4).toNat

/-! ### Encode -/

/-- The frame of a payload (R170, R172): PCI, payload, checksum. -/
def encodeFrame (payload : List Byte) : List Byte :=
  let body := BitVec.ofNat 8 payload.length :: payload
  body ++ [fcs body]

/-- The checksum byte of the frame of a payload (R171, R172). -/
def encodeChecksum (payload : List Byte) : Byte := fcs (BitVec.ofNat 8 payload.length :: payload)

/-- FRAME_ENCODE's pseudocode (R172). -/
def frameEncodeBody (p : Pending) (s : State) : Cmd State := do
  frameEncodeChecks p
  let payload ← ofRead (s.mem.readBytes p.x0 p.x1)
  return (s.setMem (s.mem.writeBytes p.x2 (encodeFrame payload))).setRes
    { s.res with r0 := wordOf (p.x1 + 2), r1 := (encodeChecksum payload).zeroExtend 32 }

/-- FRAME_ENCODE (R172). -/
def execFrameEncode (s : State) : Host.Outcome State Fault Refusal := s.runCommand frameEncodeBody

/-! ### Decode -/

/-- A structurally complete frame, as `fdec` returns it (R173). -/
structure DecodedFrame where
  pci : Byte
  len : Nat
  payload : List Byte
  cs : Byte
  valid : Bool
  inRange : Bool
  extra : Bool
deriving DecidableEq, Repr

/-- `fdec(B)` of R173: `none` is SHORT. -/
def fdec (bytes : List Byte) : Option DecodedFrame :=
  match bytes with
  | [] => none
  | pci :: rest =>
    let len := pciLen pci
    if bytes.length < len + 2 then none
    else
      let payload := rest.take len
      let cs := rest.getD len 0
      some
        { pci := pci
          len := len
          payload := payload
          cs := cs
          valid := cs == fcs (pci :: payload)
          inRange := lenInRange len
          extra := decide (len + 2 < bytes.length) }

/-- The results of a SHORT buffer (R174). -/
def shortResults : Results := { r0 := 0, r1 := 0, r2 := 0 }

/-- The results of a complete frame (R174), `extra` said of all `m` bytes available. -/
def frameResults (f : DecodedFrame) (extra : Bool) : Results :=
  { r0 := wordOf f.len
    r1 := (frameFlags f.valid f.inRange extra).zeroExtend 32
    r2 := (f.pci ++ f.cs).zeroExtend 32 }

/-- FRAME_DECODE's pseudocode (R174). -/
def frameDecodeBody (p : Pending) (s : State) : Cmd State := do
  raiseIf (past (p.x0 + p.x1) p.len) .bounds .arg1
  if p.x1 < 1 then return s.setRes shortResults
  else
    let pci ← ofRead (s.mem.read p.x0)
    if p.x1 < pciLen pci + 2 then return s.setRes shortResults
    else
      let bytes ← ofRead (s.mem.readBytes p.x0 (pciLen pci + 2))
      match fdec bytes with
      | none => return s.setRes shortResults
      | some f =>
        raiseIf (past (p.x2 + f.len) p.len) .bounds .arg2
        return (s.setMem (s.mem.writeBytes p.x2 f.payload)).setRes
          (frameResults f (decide (f.len + 2 < p.x1)))

/-- FRAME_DECODE (R174). -/
def execFrameDecode (s : State) : Host.Outcome State Fault Refusal := s.runCommand frameDecodeBody

/-! ### Parse -/

/-- The 8-byte descriptor of R175 for a frame whose PCI is at BUF offset `at_`. -/
def descriptor (at_ : Nat) (f : DecodedFrame) : List Byte :=
  bytesBe (wordOf at_) ++
    [f.pci, BitVec.ofNat 8 f.len, (frameFlags f.valid f.inRange false).zeroExtend 8, f.cs]

/-- Why FRAME_PARSE stops (R176). -/
inductive StopReason where
  | end_ | incomplete | limit
deriving DecidableEq, Repr

/-- The code of a stop reason in `RES2` (R176). -/
def StopReason.code : StopReason → Word
  | .end_ => 0
  | .incomplete => 1
  | .limit => 2

/-- What the loop of R176 finds: the frames with their places in the stream, the bytes consumed, why it stops. -/
structure ParseOut where
  frames : List (Nat × DecodedFrame)
  consumed : Nat
  why : StopReason
deriving DecidableEq, Repr

/-- The loop of R176 over what is left of the stream: `room` descriptors left, `pos` bytes consumed. The first
argument bounds the iterations; each consumes at least 2 bytes, so the length of the stream is enough. -/
def parseFrames : Nat → List Byte → Nat → Nat → ParseOut
  | 0, _, _, pos => { frames := [], consumed := pos, why := .end_ }
  | fuel + 1, bytes, room, pos =>
    if bytes.isEmpty then { frames := [], consumed := pos, why := .end_ }
    else if room = 0 then { frames := [], consumed := pos, why := .limit }
    else
      match fdec bytes with
      | none => { frames := [], consumed := pos, why := .incomplete }
      | some f =>
        let out := parseFrames fuel (bytes.drop (f.len + 2)) (room - 1) (pos + f.len + 2)
        { out with frames := (pos, f) :: out.frames }

/-- The parse of a whole stream with at most `room` descriptors (R176). -/
def parseStream (bytes : List Byte) (room : Nat) : ParseOut := parseFrames (bytes.length + 1) bytes room 0

/-- The bytes FRAME_PARSE writes: the descriptors in order (R175, R176). -/
def descriptorBytes (s : Nat) (frames : List (Nat × DecodedFrame)) : List Byte :=
  frames.flatMap fun f => descriptor (s + f.1) f.2

/-- FRAME_PARSE's pseudocode (R176). -/
def frameParseBody (p : Pending) (s : State) : Cmd State := do
  frameParseChecks p
  let bytes ← ofRead (s.mem.readBytes p.x0 p.x1)
  let out := parseStream bytes p.x3
  return (s.setMem (s.mem.writeBytes p.x2 (descriptorBytes p.x0 out.frames))).setRes
    { r0 := wordOf out.frames.length, r1 := wordOf out.consumed, r2 := out.why.code }

/-- FRAME_PARSE (R176). -/
def execFrameParse (s : State) : Host.Outcome State Fault Refusal := s.runCommand frameParseBody

end Sys2Proof.Machine
end

