-- ==== Sys2Proof/Machine/Mod32.lean ====
section
/-! DEFINITION. The modular-32 checksum generator (41_mod32.md R140–R152). -/

namespace Sys2Proof.Machine

/-- The loop of R140 over `n` words from offset `a`, adding to `acc`; the word at `skip` is not read. -/
def wsumFrom (m : Memory) (skip : Option Nat) : Nat → Nat → Word → Option Word
  | 0, _, acc => some acc
  | n + 1, a, acc =>
    if skip = some a then wsumFrom m skip n (a + 4) acc
    else
      match m.be32 a with
      | none => none
      | some w => wsumFrom m skip n (a + 4) (acc + w)

/-- `wsum(s, e, skip)` of R140, if every word it reads was written. -/
def wsum (m : Memory) (s e : Nat) (skip : Option Nat) : Option Word := wsumFrom m skip ((e - s) / 4) s 0

/-! ### Vendor A -/

/-- The sum `S` of R143: the whole image with the fixup word counted as zero, after the checks of R142. -/
def m32aSum (p : Pending) (s : State) : Cmd Word := do
  m32aChecks p
  ofRead (wsum s.mem 0 p.len (some p.x0))

/-- The fixup `M32A_TARGET − S` modulo 2^32 of a sum (R143). It is written with the negation, since the kernel counts a
literal minuend down one by one; `m32aFixup_eq` says that it is the difference. -/
def m32aFixup (sum : Word) : Word := m32aTarget + -sum

/-- M32A_COMPUTE's pseudocode (R143). -/
def m32aComputeBody (p : Pending) (s : State) : Cmd State := do
  let sum ← m32aSum p s
  return s.setRes { s.res with r0 := m32aFixup sum, r1 := sum }

/-- M32A_COMPUTE (R143). -/
def execM32aCompute (s : State) : Host.Outcome State Fault Refusal := s.runCommand m32aComputeBody

/-- M32A_UPDATE's pseudocode (R144). -/
def m32aUpdateBody (p : Pending) (s : State) : Cmd State := do
  let sum ← m32aSum p s
  let fixup := m32aFixup sum
  return (s.setMem (s.mem.wrBe32 p.x0 fixup)).setRes { s.res with r0 := fixup, r1 := sum }

/-- M32A_UPDATE (R144). -/
def execM32aUpdate (s : State) : Host.Outcome State Fault Refusal := s.runCommand m32aUpdateBody

/-- M32A_VALIDATE's pseudocode (R145): a mismatch is a result. -/
def m32aValidateBody (p : Pending) (s : State) : Cmd State := do
  let sum ← m32aSum p s
  let fixup := m32aFixup sum
  let stored ← ofRead (s.mem.be32 p.x0)
  return s.setRes { r0 := fixup, r1 := stored, r2 := wordOfBool (stored == fixup) }

/-- M32A_VALIDATE (R145). -/
def execM32aValidate (s : State) : Host.Outcome State Fault Refusal := s.runCommand m32aValidateBody

/-! ### Vendor B -/

/-- `ckB(s, e)` of R146. -/
def ckB (b : Build) (m : Memory) (s e : Nat) : Option Word :=
  (wsum m s e none).map fun w => b.m32bTarget - w

/-- M32B_REGION's pseudocode (R147). -/
def m32bRegionBody (p : Pending) (s : State) : Cmd State := do
  m32bRegionChecks p
  let w ← ofRead (wsum s.mem p.x0 p.x1 none)
  return s.setRes { s.res with r0 := s.build.m32bTarget - w, r1 := w }

/-- M32B_REGION (R147). -/
def execM32bRegion (s : State) : Host.Outcome State Fault Refusal := s.runCommand m32bRegionBody

/-- Offset of entry `i` of a table at `t` (R148). -/
def entryAt (t i : Nat) : Nat := t + 12 * i

/-- `startAddr` of entry `i` (R148). -/
def entryStart (m : Memory) (t i : Nat) : Option Word := m.be32 (entryAt t i)

/-- `endAddr` of entry `i` (R148). -/
def entryEnd (m : Memory) (t i : Nat) : Option Word := m.be32 (entryAt t i + 4)

/-- `checksum` of entry `i` (R148). -/
def entryChecksum (m : Memory) (t i : Nat) : Option Word := m.be32 (entryAt t i + 8)

/-- Is an entry with these address fields a sentinel (R149). The checksum field is read only where the address
fields leave the answer open (log 10). -/
def sentinelOf (b : Build) (m : Memory) (t i : Nat) (start stop : Word) : Cmd Bool :=
  if start = 0 ∧ stop = 0 then
    match b.sentinelPolicy with
    | .addrOnly => .ok true
    | .addrAndChecksum =>
      match entryChecksum m t i with
      | some c => .ok (c == b.m32bTarget)
      | none => .error (.fault .uninitRead)
  else .ok false

/-- The address fields of entry `i`, and whether it is a sentinel (R148, R149). -/
def readEntry (b : Build) (m : Memory) (t i : Nat) : Cmd (Nat × Nat × Bool) := do
  let start ← ofRead (entryStart m t i)
  let stop ← ofRead (entryEnd m t i)
  let sentinel ← sentinelOf b m t i start stop
  return (start.toNat, stop.toNat, sentinel)

/-- The checks on the region of an enabled entry `i` (R150). -/
def entryChecks (len i start stop : Nat) : Cmd Unit := do
  raiseIfAt (misaligned start || misaligned stop) .alignment .tableEntry (BitVec.ofNat 24 i)
  raiseIfAt (emptyRange start stop) .emptyRegion .tableEntry (BitVec.ofNat 24 i)
  raiseIfAt (past stop len) .bounds .tableEntry (BitVec.ofNat 24 i)

/-- The loop of R150 over `n` entries from entry `i`. -/
def checkEntries (b : Build) (m : Memory) (t len : Nat) : Nat → Nat → Cmd Unit
  | 0, _ => .ok ()
  | n + 1, i => do
    let (start, stop, sentinel) ← readEntry b m t i
    if sentinel then checkEntries b m t len n (i + 1)
    else
      entryChecks len i start stop
      checkEntries b m t len n (i + 1)

/-- The table checks of R150, whole. -/
def tableChecks (p : Pending) (s : State) : Cmd Unit := do
  tableOperandChecks p
  checkEntries s.build s.mem p.x0 p.len p.x1 0

/-- The loop of R151 over `n` entries from entry `i`: every sum reads BUF as updated so far. `u` counts. -/
def updateEntries (b : Build) (t : Nat) : Nat → Nat → Memory → Nat → Cmd (Memory × Nat)
  | 0, _, m, u => .ok (m, u)
  | n + 1, i, m, u => do
    let (start, stop, sentinel) ← readEntry b m t i
    if sentinel then updateEntries b t n (i + 1) m u
    else
      let c ← ofRead (ckB b m start stop)
      updateEntries b t n (i + 1) (m.wrBe32 (entryAt t i + 8) c) (u + 1)

/-- M32B_TABLE_UPDATE's pseudocode (R151). -/
def m32bTableUpdateBody (p : Pending) (s : State) : Cmd State := do
  tableChecks p s
  let (m, u) ← updateEntries s.build p.x0 p.x1 0 s.mem 0
  return (s.setMem m).setRes { s.res with r0 := wordOf u }

/-- M32B_TABLE_UPDATE (R151). -/
def execM32bTableUpdate (s : State) : Host.Outcome State Fault Refusal := s.runCommand m32bTableUpdateBody

/-- The loop of R152 over `n` entries from entry `i`: `mis` counts mismatches, `en` enabled entries. -/
def validateEntries (b : Build) (m : Memory) (t : Nat) : Nat → Nat → Nat → Nat → Cmd (Nat × Nat)
  | 0, _, mis, en => .ok (mis, en)
  | n + 1, i, mis, en => do
    let (start, stop, sentinel) ← readEntry b m t i
    if sentinel then validateEntries b m t n (i + 1) mis en
    else
      let stored ← ofRead (entryChecksum m t i)
      let c ← ofRead (ckB b m start stop)
      validateEntries b m t n (i + 1) (if stored = c then mis else mis + 1) (en + 1)

/-- M32B_TABLE_VALIDATE's pseudocode (R152): all ones when no entry is enabled. -/
def m32bTableValidateBody (p : Pending) (s : State) : Cmd State := do
  tableChecks p s
  let (mis, en) ← validateEntries s.build s.mem p.x0 p.x1 0 0 0
  return s.setRes { s.res with r0 := if en = 0 then 0xFFFFFFFF else wordOf mis, r1 := wordOf en }

/-- M32B_TABLE_VALIDATE (R152). -/
def execM32bTableValidate (s : State) : Host.Outcome State Fault Refusal := s.runCommand m32bTableValidateBody

end Sys2Proof.Machine
end

