-- ==== Sys2Proof/Machine/System.lean ====
section
/-! DEFINITION. NOP (45_system.md R240). The soft reset of R241 is no command: it is a host write of `CTRL`
(Machine/Registers.lean) over `State.softReset`. -/

namespace Sys2Proof.Machine

/-- NOP: no effect of its own (R240). -/
def nopBody (_ : Pending) (s : State) : Cmd State := .ok s

/-- NOP (R240): only the completion bookkeeping runs. -/
def execNop (s : State) : Host.Outcome State Fault Refusal := s.runCommand nopBody

end Sys2Proof.Machine
end

