-- ==== Sys2Proof/Machine/Dispatch.lean ====
section
/-! DEFINITION. One arm per command (30_encoding.md R93). -/

namespace Sys2Proof.Machine

def exec (i : Instr) (s : State) : Host.Outcome State Fault Refusal :=
  match i with
  | .nop => Sys2Proof.Machine.execNop s
  | .crc16Compute => Sys2Proof.Machine.execCrc16Compute s
  | .crc16Check => Sys2Proof.Machine.execCrc16Check s
  | .m32aCompute => Sys2Proof.Machine.execM32aCompute s
  | .m32aUpdate => Sys2Proof.Machine.execM32aUpdate s
  | .m32aValidate => Sys2Proof.Machine.execM32aValidate s
  | .m32bRegion => Sys2Proof.Machine.execM32bRegion s
  | .m32bTableUpdate => Sys2Proof.Machine.execM32bTableUpdate s
  | .m32bTableValidate => Sys2Proof.Machine.execM32bTableValidate s
  | .frameEncode => Sys2Proof.Machine.execFrameEncode s
  | .frameDecode => Sys2Proof.Machine.execFrameDecode s
  | .frameParse => Sys2Proof.Machine.execFrameParse s
  | .fcExpectCts => Sys2Proof.Machine.execFcExpectCts s
  | .fcReceivedCts => Sys2Proof.Machine.execFcReceivedCts s
  | .fcHandleTimeout => Sys2Proof.Machine.execFcHandleTimeout s
  | .fcRetry => Sys2Proof.Machine.execFcRetry s
  | .fcReset => Sys2Proof.Machine.execFcReset s
  | .fcToIdle => Sys2Proof.Machine.execFcToIdle s
  | .fcInit => Sys2Proof.Machine.execFcInit s
  | .bitsExtract => Sys2Proof.Machine.execBitsExtract s

end Sys2Proof.Machine
end

