-- ==== Sys2Proof/Machine/Registers.lean ====
section
/-! DEFINITION. The register map and what a host read or write of each register does (10_state.md R22–R40). -/

namespace Sys2Proof.Machine

/-- The block offset of a register (R22). -/
def RegName.offset : RegName → Nat
  | .id => 0x000
  | .version => 0x004
  | .ctrl => 0x008
  | .status => 0x00C
  | .cmd => 0x010
  | .errInfo => 0x014
  | .bufLen => 0x018
  | .bufSize => 0x01C
  | .arg0 => 0x020
  | .arg1 => 0x024
  | .arg2 => 0x028
  | .arg3 => 0x02C
  | .res0 => 0x030
  | .res1 => 0x034
  | .res2 => 0x038
  | .m32aTarget => 0x040
  | .m32bTarget => 0x044
  | .crc16Poly => 0x048
  | .crc16Init => 0x04C
  | .fcStatus => 0x050
  | .fcRetryCount => 0x054
  | .fcMaxRetries => 0x058
  | .fcTimeoutMs => 0x05C
  | .intStatus => 0x060
  | .intEnable => 0x064

/-- The registers in the order of the map (R22). -/
def RegName.all : List RegName :=
  [.id, .version, .ctrl, .status, .cmd, .errInfo, .bufLen, .bufSize,
   .arg0, .arg1, .arg2, .arg3, .res0, .res1, .res2,
   .m32aTarget, .m32bTarget, .crc16Poly, .crc16Init,
   .fcStatus, .fcRetryCount, .fcMaxRetries, .fcTimeoutMs, .intStatus, .intEnable]

/-- The register at an offset of the register block, if the offset is not reserved (R22). -/
def regAt (off : Nat) : Option RegName := RegName.all.find? fun r => r.offset == off

/-- What a host read of a register returns; no read has a side effect (R23). -/
def readReg (r : RegName) (s : State) : Word :=
  match r with
  | .id => s.build.idValue
  | .version => s.build.versionValue
  | .ctrl => 0
  | .status => s.statusWord
  | .cmd => s.cmd
  | .errInfo => s.errInfo.toWord
  | .bufLen => s.bufLen
  | .bufSize => s.build.bufSize
  | .arg0 => s.args.a0
  | .arg1 => s.args.a1
  | .arg2 => s.args.a2
  | .arg3 => s.args.a3
  | .res0 => s.res.r0
  | .res1 => s.res.r1
  | .res2 => s.res.r2
  | .m32aTarget => Sys2Proof.m32aTarget
  | .m32bTarget => s.build.m32bTarget
  | .crc16Poly => s.build.crc16Poly.zeroExtend 32
  | .crc16Init => Sys2Proof.crc16Init.zeroExtend 32
  | .fcStatus => s.fc.statusWord
  | .fcRetryCount => s.fc.retryCount
  | .fcMaxRetries => s.fcMaxRetries
  | .fcTimeoutMs => s.fcTimeoutMs
  | .intStatus => intWord s.intStatus
  | .intEnable => intWord s.intEnable

/-- A host write of `CMD` (R27): accepted by an idle engine (R256), dropped by a busy one (R257). -/
def State.writeCmd (s : State) (w : Word) : State := if s.busy then s.overrun else s.accept w

/-- A host write of `CTRL` (R25): bit 0 performs the soft reset (R241). -/
def State.writeCtrl (s : State) (v : Word) : State := if v.getLsbD 0 then s.softReset else s

/-- The legal value a write of `BUF_LEN` stores (R29, WARL). -/
def clampBufLen (size v : Word) : Word := if size.toNat < v.toNat then size else v

/-- What a host write of a register does; a read-only register ignores it (R23). -/
def writeReg (r : RegName) (v : Word) (s : State) : State :=
  match r with
  | .ctrl => s.writeCtrl v
  | .status => s.writeStatus v
  | .cmd => s.writeCmd v
  | .bufLen => { s with bufLen := clampBufLen s.build.bufSize v }
  | .arg0 => { s with args := { s.args with a0 := v } }
  | .arg1 => { s with args := { s.args with a1 := v } }
  | .arg2 => { s with args := { s.args with a2 := v } }
  | .arg3 => { s with args := { s.args with a3 := v } }
  | .fcMaxRetries => { s with fcMaxRetries := v }
  | .fcTimeoutMs => { s with fcTimeoutMs := v }
  | .intStatus => s.clearInterrupts v
  | .intEnable => s.enableInterrupts v
  | .id | .version | .errInfo | .bufSize | .res0 | .res1 | .res2 | .m32aTarget | .m32bTarget | .crc16Poly
  | .crc16Init | .fcStatus | .fcRetryCount => s

end Sys2Proof.Machine
end

