-- ==== Sys2Proof/Machine/HostPort.lean ====
section
/-! DEFINITION. The host's address map and accesses (20_memory.md R64–R66, R72) and the expansion of a host program's
lines into steps (30_encoding.md R97, R98). -/

namespace Sys2Proof.Machine

/-- What an access of a width at a block offset reaches (R64–R66). -/
inductive Target where
  | register (reg : RegName)
  /-- A reserved offset of the register block: reads 0, ignores writes (R22, R23). -/
  | reservedReg
  | bufByte (offset : Nat)
  | bufWord (offset : Nat)
  /-- A reserved offset, or a width or alignment the place does not take: bus error. -/
  | nowhere
deriving DecidableEq, Repr

/-- The target of a register access: 32-bit and 4-aligned only (R65). -/
def regTarget (width : Width) (off : Nat) : Target :=
  if width = .w32 ∧ off % 4 = 0 then
    match regAt off with
    | some r => .register r
    | none => .reservedReg
  else .nowhere

/-- The target of a BUF window access at window offset `a`: 8-bit anywhere, 32-bit 4-aligned (R66). -/
def bufTarget (width : Width) (a : Nat) : Target :=
  match width with
  | .w8 => .bufByte a
  | .w16 => .nowhere
  | .w32 => if a % 4 = 0 then .bufWord a else .nowhere

/-- The address map of R64 for a build. -/
def busTarget (b : Build) (width : Width) (offset : Word) : Target :=
  let off := offset.toNat
  if off < regBlockSize then regTarget width off
  else if bufWindowBase ≤ off ∧ off < bufWindowBase + b.bufSize.toNat then bufTarget width (off - bufWindowBase)
  else .nowhere

/-- A BUF window access while `BUSY` = 1 is a race (R72, R287). -/
def bufAccess (s : State) (k : Host.Outcome State Fault Refusal) : Host.Outcome State Fault Refusal :=
  if s.busy then .fault .hostRace else k

/-- A host read (R64–R66): the value goes to `resp`, nothing else changes (R69). -/
def hostRead (s : State) (width : Width) (offset : Word) : Host.Outcome State Fault Refusal :=
  match busTarget s.build width offset with
  | .register r => .next (s.setResp (.word (readReg r s)))
  | .reservedReg => .next (s.setResp (.word 0))
  | .bufByte a =>
    bufAccess s (match s.mem.read a with
      | some v => .next (s.setResp (.byte v))
      | none => .fault .uninitRead)
  | .bufWord a =>
    bufAccess s (match s.mem.be32 a with
      | some w => .next (s.setResp (.word w))
      | none => .fault .uninitRead)
  | .nowhere => .next (s.setResp .busError)

/-- An 8-bit host write: only the BUF window takes it (R65, R66). -/
def hostWrite8 (s : State) (offset : Word) (v : Byte) : Host.Outcome State Fault Refusal :=
  match busTarget s.build .w8 offset with
  | .bufByte a => bufAccess s (.next ((s.setMem (s.mem.write a v)).setResp .done))
  | .register _ | .reservedReg | .bufWord _ | .nowhere => .next (s.setResp .busError)

/-- A 32-bit host write (R65, R66). -/
def hostWrite32 (s : State) (offset : Word) (v : Word) : Host.Outcome State Fault Refusal :=
  match busTarget s.build .w32 offset with
  | .register r => .next ((writeReg r v s).setResp .done)
  | .reservedReg => .next (s.setResp .done)
  | .bufWord a => bufAccess s (.next ((s.setMem (s.mem.wrBe32 a v)).setResp .done))
  | .bufByte _ | .nowhere => .next (s.setResp .busError)

/-- One host access. No place takes a 16-bit access (R65, R66). -/
def hostStep (a : HostAccess) (s : State) : Host.Outcome State Fault Refusal :=
  match a with
  | .read width offset => hostRead s width offset
  | .write8 offset v => hostWrite8 s offset v
  | .write16 _ _ => .next (s.setResp .busError)
  | .write32 offset v => hostWrite32 s offset v

/-! ### Host programs -/

/-- The host's 32-bit write of a register (R97 `WR`). -/
def wrEvent (r : RegName) (v : Word) : Event := .host (.write32 (wordOf r.offset) v)

/-- The host's read of a register (R97 `RD`). -/
def rdEvent (r : RegName) : Event := .host (.read .w32 (wordOf r.offset))

/-- The block offset of a BUF byte (R64). -/
def windowOffset (a : Nat) : Word := wordOf (bufWindowBase + a)

/-- The byte writes of `WB` (R97). -/
def wbEvents (a : Nat) : List Byte → List Event
  | [] => []
  | v :: vs => .host (.write8 (windowOffset a) v) :: wbEvents (a + 1) vs

/-- The byte reads of `RB` (R97). -/
def rbEvents (a : Nat) : Nat → List Event
  | 0 => []
  | n + 1 => .host (.read .w8 (windowOffset a)) :: rbEvents (a + 1) n

/-- `WAIT` (R98): polls of `STATUS` that find the engine busy, its completion, the poll that finds it done (log 16). -/
def waitEvents (busyPolls : Nat) : List Event :=
  List.replicate busyPolls (rdEvent .status) ++ [.engine, rdEvent .status]

/-- The operand writes of a command line (R98). -/
def operandEvents (ops : List Word) : List Event :=
  (List.zip [RegName.arg0, .arg1, .arg2, .arg3] ops).map fun x => wrEvent x.1 x.2

/-- The steps a line of a host program stands for (R97, R98). R98 lets `ZERO` be `WB` of zero bytes or `WW` of zero
per aligned word: the model always takes the byte writes (DESIGN CHOICE, log 21). -/
def HostLine.events : HostLine → List Event
  | .wr r v => [wrEvent r v]
  | .rd r => [rdEvent r]
  | .wb off bs => wbEvents off bs
  | .ww off v => [.host (.write32 (windowOffset off) v)]
  | .rb off n => rbEvents off n
  | .rw off => [.host (.read .w32 (windowOffset off))]
  | .wait k => waitEvents k
  | .command i ops k => operandEvents ops ++ [wrEvent .cmd (encode i)] ++ waitEvents k
  | .zero off n => wbEvents off (List.replicate n 0)
  | .clrint => [wrEvent .intStatus 0x7]
  | .srst => [wrEvent .ctrl 0x1]
  | .expire => [.timer]

/-- A host program's steps (R97). -/
def programEvents (lines : List HostLine) : List Event := lines.flatMap HostLine.events

end Sys2Proof.Machine
end

