-- ==== Sys2Proof/Machine/Engine.lean ====
section
/-! DEFINITION. The engine's step (20_memory.md R70, 30_encoding.md R92) and the steps of the total order (R71). -/

namespace Sys2Proof.Machine

/-- The engine's step, enabled exactly while a command is pending (R70): decode the latched word, execute the command
or raise ILLEGAL_CMD (R92, R254). Where it is not enabled nothing happens (log 4). -/
def engineStep (s : State) : Host.Outcome State Fault Refusal :=
  match s.pending with
  | none => .next s
  | some p =>
    match decode p.word with
    | .ok i => exec i s
    | .error _ => .next (s.complete (some illegalCommand))

/-- One step of the total order (R71). -/
def eventStep (e : Event) (s : State) : Host.Outcome State Fault Refusal :=
  match e with
  | .host a => hostStep a s
  | .engine => engineStep s
  | .timer => timerStep s
  | .powerOn => .next s.powerOnReset

/-- The block left to itself: a pending command completes, else an armed timer expires (the weak fairness of R70 and
R208), else no step is enabled (R266, R282) and the state stays (log 3). -/
def idleStep (s : State) : Host.Outcome State Fault Refusal :=
  if s.busy then engineStep s else timerStep s

/-- The next step: the first of the agenda, or the block left to itself (log 3). -/
def agendaStep (s : State) : Host.Outcome State Fault Refusal :=
  match s.agenda with
  | [] => idleStep s
  | e :: rest => eventStep e (s.setAgenda rest)

/-- The state in which the word `w` has just been accepted and the engine moves next (R256, log 14). -/
def State.place (s : State) (w : Word) : State := (s.accept w).setAgenda (.engine :: s.agenda)

end Sys2Proof.Machine
end

