-- ==== Sys2Proof/Machine/Step.lean ====
section
/-! DEFINITION. The step of the machine and the placing of a command word for it. -/

namespace Sys2Proof.Machine

/-- One step of the block (20_memory.md R71). -/
def step (s : State) : Host.Outcome State Fault Refusal := agendaStep s

/-- The command word `w` accepted, with the engine's completion as the very next step (log 14): the block fetches
nothing (R21), a command comes by a host write of `CMD` (R27, R256). -/
def State.withFetchWord (s : State) (nbits w : Nat) : State := s.place (BitVec.ofNat 32 (w % 2 ^ nbits))

end Sys2Proof.Machine
end

