-- ==== Sys2Proof/Safety.lean ====
section
/-! DEFINITION. The terms claims about the block are stated in: what a safe run is, what a completed command leaves
alone, and the invariants of the state. -/

namespace Sys2Proof.Machine

/-! ### Safe runs -/

/-- `k` steps from `s` meet no fault and no refusal (R255: a faulted run claims nothing). -/
def runsSafely (k : Nat) (s : State) : Prop := ∃ t : State, Host.Core.run Sys2Proof.core k s = .next t

/-- Every byte of `[a, a+n)` was written (R43, R283 point 1). -/
def written (m : Memory) (a n : Nat) : Prop := ∀ k, k < n → (m.read (a + k)).isSome = true

/-- BUF holds these bytes from offset `a`. -/
def holds (m : Memory) (a : Nat) (bytes : List Byte) : Prop :=
  ∀ k (h : k < bytes.length), m.read (a + k) = some bytes[k]

/-! ### Frames -/

/-- Every byte of BUF reads as before. -/
def sameMem (s t : State) : Prop := ∀ a, t.mem.read a = s.mem.read a

/-- Every byte of BUF outside `[d, d+n)` reads as before. -/
def sameMemOutside (s t : State) (d n : Nat) : Prop :=
  ∀ a, a < d ∨ d + n ≤ a → t.mem.read a = s.mem.read a

/-- Every register but the listed ones reads as before. -/
def sameRegsExcept (regs : List RegName) (s t : State) : Prop := ∀ r, r ∉ regs → readReg r t = readReg r s

/-- What no command touches: the build, the last bus answer, the agenda. -/
def sameOutside (s t : State) : Prop := t.build = s.build ∧ t.resp = s.resp ∧ t.agenda = s.agenda

/-- The registers of the completion bookkeeping (R258). -/
def bookkeepingRegs : List RegName := [.status, .errInfo, .intStatus]

/-- The bookkeeping of a command that raised nothing (R258). -/
def completedOk (s t : State) : Prop :=
  t.pending = none ∧ t.status = { err := false, ovr := s.status.ovr, errcode := 0x00 } ∧
  t.errInfo = { entry := 0, operand := 0xFF } ∧ t.intStatus = s.intStatus ||| 0b001

/-- A command completed without error and wrote no register but these and the bookkeeping. -/
def completedWriting (regs : List RegName) (s t : State) : Prop :=
  completedOk s t ∧ sameRegsExcept (bookkeepingRegs ++ regs) s t ∧ sameOutside s t ∧ t.timerLatch = s.timerLatch

/-- The bookkeeping with or without an error: `OVR` stays, and of the interrupt bits only `CMD_DONE` and `CMD_ERR`
can come to be set (R258). -/
def bookkeepingOnly (s t : State) : Prop :=
  t.pending = none ∧ t.status.ovr = s.status.ovr ∧
  (t.intStatus = s.intStatus ||| 0b001 ∨ t.intStatus = s.intStatus ||| 0b011)

/-- The result and flow-control registers a command may write (R96, R201–R209). -/
def destinations : Instr → List RegName
  | .nop => []
  | .crc16Compute => [.res0]
  | .crc16Check => [.res0, .res1]
  | .m32aCompute => [.res0, .res1]
  | .m32aUpdate => [.res0, .res1]
  | .m32aValidate => [.res0, .res1, .res2]
  | .m32bRegion => [.res0, .res1]
  | .m32bTableUpdate => [.res0]
  | .m32bTableValidate => [.res0, .res1]
  | .frameEncode => [.res0, .res1]
  | .frameDecode => [.res0, .res1, .res2]
  | .frameParse => [.res0, .res1, .res2]
  | .fcExpectCts => [.fcStatus]
  | .fcReceivedCts => [.fcStatus]
  | .fcHandleTimeout => [.fcStatus, .fcRetryCount, .res0]
  | .fcRetry => [.fcStatus, .res0]
  | .fcReset => [.fcStatus, .fcRetryCount]
  | .fcToIdle => [.fcStatus, .fcRetryCount]
  | .fcInit => [.fcStatus, .fcRetryCount]
  | .bitsExtract => [.res0]

/-- The commands that store to BUF (R68). -/
def storing : Instr → Bool
  | .m32aUpdate | .m32bTableUpdate | .frameEncode | .frameDecode | .frameParse => true
  | .nop | .crc16Compute | .crc16Check | .m32aCompute | .m32aValidate | .m32bRegion | .m32bTableValidate
  | .fcExpectCts | .fcReceivedCts | .fcHandleTimeout | .fcRetry | .fcReset | .fcToIdle | .fcInit
  | .bitsExtract => false

/-- The flow-control commands (R93). -/
def flowControl : Instr → Bool
  | .fcExpectCts | .fcReceivedCts | .fcHandleTimeout | .fcRetry | .fcReset | .fcToIdle | .fcInit => true
  | .nop | .crc16Compute | .crc16Check | .m32aCompute | .m32aUpdate | .m32aValidate | .m32bRegion
  | .m32bTableUpdate | .m32bTableValidate | .frameEncode | .frameDecode | .frameParse | .bitsExtract => false

/-! ### The register map and the reset values, as the spec's tables give them -/

/-- The map of R22: every register with its block offset. -/
def registerMap : List (RegName × Word) :=
  [(.id, 0x000), (.version, 0x004), (.ctrl, 0x008), (.status, 0x00C), (.cmd, 0x010), (.errInfo, 0x014),
   (.bufLen, 0x018), (.bufSize, 0x01C), (.arg0, 0x020), (.arg1, 0x024), (.arg2, 0x028), (.arg3, 0x02C),
   (.res0, 0x030), (.res1, 0x034), (.res2, 0x038), (.m32aTarget, 0x040), (.m32bTarget, 0x044),
   (.crc16Poly, 0x048), (.crc16Init, 0x04C), (.fcStatus, 0x050), (.fcRetryCount, 0x054),
   (.fcMaxRetries, 0x058), (.fcTimeoutMs, 0x05C), (.intStatus, 0x060), (.intEnable, 0x064)]

/-- The read-only registers of R22. -/
def readOnlyRegs : List RegName :=
  [.id, .version, .errInfo, .bufSize, .res0, .res1, .res2, .m32aTarget, .m32bTarget, .crc16Poly, .crc16Init,
   .fcStatus, .fcRetryCount]

/-- The reset value of every register (R22, R280) on a build. -/
def resetValue (b : Build) : RegName → Word
  | .id => b.idValue
  | .version => b.versionValue
  | .ctrl => 0
  | .status => 0
  | .cmd => 0
  | .errInfo => 0x000000FF
  | .bufLen => 0
  | .bufSize => b.bufSize
  | .arg0 | .arg1 | .arg2 | .arg3 => 0
  | .res0 | .res1 | .res2 => 0
  | .m32aTarget => 0x5AA55AA5
  | .m32bTarget => b.m32bTarget
  | .crc16Poly => b.crc16Poly.zeroExtend 32
  | .crc16Init => 0x0000FFFF
  | .fcStatus => 0
  | .fcRetryCount => 0
  | .fcMaxRetries => 3
  | .fcTimeoutMs => 100
  | .intStatus => 0
  | .intEnable => 0

/-! ### The order of checks -/

/-- The first failing check of a list reports (R253). -/
def firstError : List (Bool × ErrCode × Culprit) → Option CmdError
  | [] => none
  | (true, code, culprit) :: _ => some { code := code, culprit := culprit, entry := 0 }
  | (false, _, _) :: rest => firstError rest

/-- The checks of a command that read its operands alone, in the order of the table of R253. -/
def operandChecks (i : Instr) (p : Pending) : List (Bool × ErrCode × Culprit) :=
  match i with
  | .crc16Compute | .crc16Check =>
    [(decide (p.x0 ≥ p.x1), .emptyRegion, .arg0), (decide (p.x1 > p.len), .bounds, .arg1)]
  | .m32aCompute | .m32aUpdate | .m32aValidate =>
    [(decide (p.x0 % 4 ≠ 0), .alignment, .arg0), (decide (p.len % 4 ≠ 0), .alignment, .latchedBufLen),
     (decide (p.x0 + 4 > p.len), .bounds, .arg0)]
  | .m32bRegion =>
    [(decide (p.x0 % 4 ≠ 0), .alignment, .arg0), (decide (p.x1 % 4 ≠ 0), .alignment, .arg1),
     (decide (p.x0 ≥ p.x1), .emptyRegion, .arg0), (decide (p.x1 > p.len), .bounds, .arg1)]
  | .m32bTableUpdate | .m32bTableValidate =>
    [(decide (p.x0 % 4 ≠ 0), .alignment, .arg0), (decide (p.x0 + 12 * p.x1 > p.len), .bounds, .arg1)]
  | .frameEncode =>
    [(decide (p.x1 = 0 ∨ p.x1 > 7), .payloadLength, .arg1), (decide (p.x0 + p.x1 > p.len), .bounds, .arg0),
     (decide (p.x2 + p.x1 + 2 > p.len), .bounds, .arg2)]
  | .frameDecode => [(decide (p.x0 + p.x1 > p.len), .bounds, .arg1)]
  | .frameParse =>
    [(decide (p.x0 + p.x1 > p.len), .bounds, .arg1), (decide (p.x2 + 8 * p.x3 > p.len), .bounds, .arg3)]
  | .bitsExtract =>
    [(decide (p.x3 = 0), .emptyRegion, .arg3), (decide (p.x3 > 32), .fieldWidth, .arg3),
     (decide (p.x0 + p.x1 > p.len), .bounds, .arg1), (decide (p.x2 + p.x3 > 8 * p.x1), .bounds, .arg2)]
  | .nop | .fcExpectCts | .fcReceivedCts | .fcHandleTimeout | .fcRetry | .fcReset | .fcToIdle | .fcInit => []

/-! ### Checksum tables (R148–R150) -/

/-- Entry `i` of the table at `t` is a sentinel (R149). -/
def sentinelAt (b : Build) (m : Memory) (t i : Nat) : Bool :=
  m.be32 (t + 12 * i) == some 0 && m.be32 (t + 12 * i + 4) == some 0 &&
  (b.sentinelPolicy == .addrOnly || m.be32 (t + 12 * i + 8) == some b.m32bTarget)

/-- `startAddr` of entry `i` as an offset (R148); 0 where it is not written. -/
def startAt (m : Memory) (t i : Nat) : Nat := ((m.be32 (t + 12 * i)).getD 0).toNat

/-- `endAddr` of entry `i` as an offset (R148); 0 where it is not written. -/
def stopAt (m : Memory) (t i : Nat) : Nat := ((m.be32 (t + 12 * i + 4)).getD 0).toNat

/-- The error the region of an enabled entry raises (R150), if any. -/
def regionError (start stop len : Nat) : Option ErrCode :=
  if start % 4 ≠ 0 ∨ stop % 4 ≠ 0 then some .alignment
  else if start ≥ stop then some .emptyRegion
  else if stop > len then some .bounds
  else none

/-- Entry `i` passes the checks of R150. -/
def entryPasses (b : Build) (m : Memory) (t len i : Nat) : Prop :=
  sentinelAt b m t i = true ∨ regionError (startAt m t i) (stopAt m t i) len = none

/-- The operands and every entry of a table pass the checks of R150. -/
def tablePasses (b : Build) (m : Memory) (p : Pending) : Prop :=
  p.x0 % 4 = 0 ∧ p.x0 + 12 * p.x1 ≤ p.len ∧ ∀ i, i < p.x1 → entryPasses b m p.x0 p.len i

/-- The indices of the enabled entries (R149), ascending. -/
def enabledEntries (b : Build) (m : Memory) (t n : Nat) : List Nat :=
  (List.range n).filter fun i => !sentinelAt b m t i

/-- The bytes of entry `i` that the checks of R150 need are written: the address fields, and the checksum field where
they leave the sentinel test of R149 open (log 10). -/
def fieldsWritten (b : Build) (m : Memory) (t i : Nat) : Prop :=
  written m (t + 12 * i) 8 ∧
  (b.sentinelPolicy = .addrAndChecksum → startAt m t i = 0 → stopAt m t i = 0 → written m (t + 12 * i + 8) 4)

/-- Every byte of the region of entry `i` was written, or an enabled entry before it stores it (R151). -/
def regionReady (b : Build) (m : Memory) (t i : Nat) : Prop :=
  ∀ a, startAt m t i ≤ a → a < stopAt m t i → (m.read a).isSome = true ∨
    ∃ k, k < i ∧ sentinelAt b m t k = false ∧ t + 12 * k + 8 ≤ a ∧ a < t + 12 * k + 12

/-- The stored checksum of entry `i` is not the checksum of its region (R152). -/
def mismatchAt (b : Build) (m : Memory) (t i : Nat) : Bool :=
  m.be32 (t + 12 * i + 8) != ckB b m (startAt m t i) (stopAt m t i)

/-! ### Frames on the wire (R170, R171) -/

/-- The unsigned sum of bytes modulo 256 (R171). -/
def sumMod256 (bytes : List Byte) : Byte := BitVec.ofNat 8 (bytes.map BitVec.toNat).sum

/-- The bytes of a structurally complete frame: the payload is as long as the PCI's low nibble says (R170, R173). -/
structure RawFrame where
  pci : Byte
  payload : List Byte
  cs : Byte
deriving DecidableEq, Repr

/-- The frame as it lies in a stream (R170). -/
def RawFrame.bytes (f : RawFrame) : List Byte := f.pci :: f.payload ++ [f.cs]

/-- The payload length is the PCI's low nibble (R173). -/
def RawFrame.complete (f : RawFrame) : Prop := f.payload.length = f.pci.toNat % 16

/-- `VALID` | `COMPLETE` << 1 | `LEN_IN_RANGE` << 2 of a frame (R174, R175). -/
def RawFrame.flags (f : RawFrame) : Nat :=
  (if f.cs = sumMod256 (f.pci :: f.payload) then 1 else 0) + 2 +
  (if 1 ≤ f.payload.length ∧ f.payload.length ≤ 7 then 4 else 0)

/-- The descriptor of R175 for a frame whose PCI is at BUF offset `a`. -/
def RawFrame.descriptor (f : RawFrame) (a : Nat) : List Byte :=
  [BitVec.ofNat 8 (a / 0x1000000), BitVec.ofNat 8 (a / 0x10000), BitVec.ofNat 8 (a / 0x100), BitVec.ofNat 8 a,
   f.pci, BitVec.ofNat 8 f.payload.length, BitVec.ofNat 8 f.flags, f.cs]

/-- The bytes of a stream before its frame `j` (R176: the next frame starts right after the checksum byte). -/
def streamOffset (frames : List RawFrame) (j : Nat) : Nat := ((frames.take j).flatMap RawFrame.bytes).length

/-- Why a parse stops after some frames with `rest` left of the stream and `room` descriptors in all (R176):
0 END, 2 LIMIT, 1 INCOMPLETE, asked in that order. -/
def stopsWith (frames : List RawFrame) (rest : List Byte) (room why : Nat) : Prop :=
  (rest = [] ∧ why = 0) ∨
  (rest ≠ [] ∧ frames.length = room ∧ why = 2) ∨
  (∃ pci more, rest = pci :: more ∧ frames.length < room ∧ rest.length < pci.toNat % 16 + 2 ∧ why = 1)

/-! ### Invariants -/

/-- BUF is canonical and inside the build's BUF; the lengths do not exceed it (R29, R41, R60). -/
def bufInvariant (s : State) : Prop :=
  s.build.wellFormed = true ∧ s.mem.wf ∧ (∀ c, c ∈ s.mem → c.1 < s.build.bufSize.toNat) ∧
  s.bufLen.toNat ≤ s.build.bufSize.toNat ∧
  ∀ p, s.pending = some p → p.len ≤ s.build.bufSize.toNat

/-- `STATUS` and `ERR_INFO` report one error or none, with the values of R28 and R250 only. -/
def reportInvariant (s : State) : Prop :=
  s.status.errcode.toNat ≤ 6 ∧ (s.status.err = true ↔ s.status.errcode ≠ 0x00) ∧
  s.errInfo.operand ∈ ([0x00, 0x01, 0x02, 0x03, 0xFC, 0xFD, 0xFE, 0xFF] : List (BitVec 8)) ∧
  (s.status.err = true ↔ s.errInfo.operand ≠ 0xFF) ∧
  (s.errInfo.operand ≠ 0xFC → s.errInfo.entry = 0)

/-- The flow-control unit (R210): never armed in READY, armed in WAITING_CTS, and consumed only if exhausted. -/
def fcInvariant (s : State) : Prop :=
  (s.fc.state = .ready → s.fc.timerArmed = false) ∧
  (s.fc.state = .waitingCts → s.fc.timerArmed = true) ∧
  (s.fc.consumed = true → s.fc.exhausted = true)

end Sys2Proof.Machine
end

