-- ==== Sys2Proof/Certificates/Slice0/Obligations.lean ====
section
/-! DEFINITION. The statements about the model, from the numbered rules of spec/. -/

open Sys2Proof Sys2Proof.Machine

/-! ### Command words (30_encoding.md) -/

/-- R92, R93, R94: the decoder gives a command exactly for that command's word, so decoding an encoded command gives it
back and no two words give the same command; every other word is rejected by its name; and the words that select a
command are exactly those outside the ranges R94 calls illegal. -/
def Obligations.DecodeSelectsExactlyTheOpcodeMap : Prop :=
  (∀ (w : Word) (i : Instr), decode w = .ok i ↔ w = encode i) ∧
  (∀ w : Word, decode w = .error .reservedBitsSet ↔ 256 ≤ w.toNat) ∧
  (∀ w : Word, decode w = .error .unassignedOpcode ↔ w.toNat < 256 ∧ ∀ i, w ≠ encode i) ∧
  (∀ w : Word, (∃ i, decode w = .ok i) ↔ commandWordWellFormed w = true)

/-- Words written out from the "Encoding" lines of one command of each family. -/
def Obligations.WrittenOutWordsDecode : Prop :=
  decode 0x00000000 = .ok .nop ∧ decode 0x00000002 = .ok .crc16Check ∧ decode 0x00000011 = .ok .m32aUpdate ∧
  decode 0x0000001A = .ok .m32bTableValidate ∧ decode 0x00000021 = .ok .frameDecode ∧
  decode 0x00000036 = .ok .fcInit ∧ decode 0x00000040 = .ok .bitsExtract ∧
  decode 0x00000100 = .error .reservedBitsSet ∧ decode 0x00000003 = .error .unassignedOpcode

/-- R92, R254: at completion a word with `RSVD` ≠ 0 or an unassigned opcode raises ILLEGAL_CMD with `OPERAND` 0xFE and
nothing but the bookkeeping changes; every other word runs its command. -/
def Obligations.EngineRaisesIllegalCmdOnReservedWords : Prop :=
  ∀ (s : State) (p : Pending), s.pending = some p →
    ((∀ i, p.word ≠ encode i) →
      ∃ t, engineStep s = .next t ∧ t.pending = none ∧
        t.status = { err := true, ovr := s.status.ovr, errcode := 0x01 } ∧ readReg .errInfo t = 0x000000FE ∧
        t.intStatus = s.intStatus ||| 0b011 ∧ sameMem s t ∧ sameRegsExcept bookkeepingRegs s t ∧
        sameOutside s t ∧ t.timerLatch = s.timerLatch) ∧
    (∀ i, p.word = encode i → engineStep s = exec i s)

/-! ### The step (20_memory.md R70, R71) -/

/-- R70, R71, R208, R266: a step is the first step of the agenda on the rest of it; when that is the engine's and a
command is pending, it runs the command the word decodes to. A step that is not enabled changes nothing but the agenda
(log 4). With an empty agenda a pending command completes, else an armed timer expires, else nothing changes (log 3:
the model's choice of an order that keeps the weak fairness of R70 and R208). -/
def Obligations.StepFollowsTheTotalOrder : Prop :=
  (∀ (s : State) (p : Pending) (i : Instr) (rest : List Event),
    s.agenda = .engine :: rest → s.pending = some p → decode p.word = .ok i →
      step s = exec i (s.setAgenda rest)) ∧
  (∀ (s : State) (rest : List Event), s.agenda = .engine :: rest → s.pending = none →
    step s = .next (s.setAgenda rest)) ∧
  (∀ (s : State) (a : HostAccess) (rest : List Event), s.agenda = .host a :: rest →
    step s = hostStep a (s.setAgenda rest)) ∧
  (∀ (s : State) (rest : List Event), s.agenda = .timer :: rest → s.fc.timerArmed = true →
    step s = .next (s.setAgenda rest).expire) ∧
  (∀ (s : State) (rest : List Event), s.agenda = .timer :: rest → s.fc.timerArmed = false →
    step s = .next (s.setAgenda rest)) ∧
  (∀ (s : State) (rest : List Event), s.agenda = .powerOn :: rest →
    step s = .next (s.setAgenda rest).powerOnReset) ∧
  (∀ (s : State) (p : Pending) (i : Instr),
    s.agenda = [] → s.pending = some p → decode p.word = .ok i → step s = exec i s) ∧
  (∀ s : State, s.agenda = [] → s.pending = none → s.fc.timerArmed = true → step s = .next s.expire) ∧
  (∀ s : State, s.agenda = [] → s.pending = none → s.fc.timerArmed = false → step s = .next s)

/-- R256, log 14: a placed command word is accepted with the operands of that moment and the very next step runs the
command it decodes to. -/
def Obligations.PlacedWordRunsNext : Prop :=
  ∀ (s : State) (w : Word) (i : Instr), decode w = .ok i →
    step (s.withFetchWord 32 w.toNat) = exec i (s.accept w) ∧
    (s.accept w).pending = some
      { word := w, args := s.args, bufLen := s.bufLen, maxRetries := s.fcMaxRetries, timeoutMs := s.fcTimeoutMs } ∧
    decodeTableWord 32 w.toNat = some i

/-- R43, R72, R255: a step is never refused, and it faults only because it read an unwritten byte or because the host
accessed the BUF window while a command was pending. -/
def Obligations.StepStopsOnlyForTheModelFaults : Prop :=
  ∀ s : State,
    (∀ r, step s ≠ .refused r) ∧
    (∀ f, step s = .fault f →
      f = .uninitRead ∨
      (f = .hostRace ∧ s.pending ≠ none ∧ ∃ a rest, s.agenda = .host a :: rest))

/-! ### Reset (45_system.md, 70_reset_and_hazards.md) -/

/-- R280, R281: after a power-on or a soft reset every register reads its reset value, nothing is pending and `IRQ`
is 0; a power-on reset clears every `WRITTEN` bit and a soft reset keeps BUF. -/
def Obligations.ResetsLeaveTheResetState : Prop :=
  (∀ (s : State) (r : RegName), readReg r s.softReset = resetValue s.build r ∧
    readReg r s.powerOnReset = resetValue s.build r) ∧
  (∀ s : State, s.softReset.pending = none ∧ s.powerOnReset.pending = none ∧
    s.softReset.irq = false ∧ s.powerOnReset.irq = false) ∧
  (∀ (s : State) (a : Nat), s.softReset.mem.read a = s.mem.read a ∧ s.powerOnReset.mem.read a = none) ∧
  (∀ r, readReg r State.reset = resetValue Build.thisHardware r) ∧ State.reset.pending = none ∧
  (∀ a, State.reset.mem.read a = none)

/-- R25, R241: `CTRL` reads 0; a host write of it with bit 0 = 1 resets every register at once, busy or not, drops the
pending command, disarms the timer, drops `IRQ` and keeps BUF; a write with bit 0 = 0 changes nothing. -/
def Obligations.CtrlWritePerformsTheSoftReset : Prop :=
  ∀ (s : State) (v : Word) (rest : List Event), s.agenda = .host (.write32 0x008 v) :: rest →
    readReg .ctrl s = 0 ∧
    (v.getLsbD 0 = true →
      ∃ t, step s = .next t ∧ (∀ r, readReg r t = resetValue s.build r) ∧ t.pending = none ∧
        t.fc.timerArmed = false ∧ t.irq = false ∧ sameMem s t ∧ t.agenda = rest ∧ t.resp = some .done) ∧
    (v.getLsbD 0 = false → step s = .next ((s.setAgenda rest).setResp .done))

/-- The reset state meets the three invariants (a witness for the invariants' own statements). -/
def Obligations.ResetMeetsTheInvariants : Prop :=
  bufInvariant State.reset ∧ reportInvariant State.reset ∧ fcInvariant State.reset

/-! ### Registers (10_state.md) -/

/-- R22, R23, R64, R65: an aligned 32-bit host read of a register's offset answers its value, one of a reserved offset
of the register block answers 0, and a host write of a read-only register or of a reserved offset has no effect;
nothing else changes. -/
def Obligations.RegisterMapReadsAndReadOnlyWrites : Prop :=
  (∀ (s : State) (r : RegName) (off : Word) (rest : List Event), (r, off) ∈ registerMap →
    s.agenda = .host (.read .w32 off) :: rest →
      step s = .next ((s.setAgenda rest).setResp (.word (readReg r s)))) ∧
  (∀ (s : State) (off : Word) (rest : List Event), off.toNat < 0x100 → off.toNat % 4 = 0 →
    (∀ r, (r, off) ∉ registerMap) → s.agenda = .host (.read .w32 off) :: rest →
      step s = .next ((s.setAgenda rest).setResp (.word 0))) ∧
  (∀ (s : State) (r : RegName) (off v : Word) (rest : List Event), (r, off) ∈ registerMap → r ∈ readOnlyRegs →
    s.agenda = .host (.write32 off v) :: rest → step s = .next ((s.setAgenda rest).setResp .done)) ∧
  (∀ (s : State) (off v : Word) (rest : List Event), off.toNat < 0x100 → off.toNat % 4 = 0 →
    (∀ r, (r, off) ∉ registerMap) → s.agenda = .host (.write32 off v) :: rest →
      step s = .next ((s.setAgenda rest).setResp .done))

/-- R29, R31, R38, R39: a host write of `ARG0`–`ARG3`, `FC_MAX_RETRIES` or `FC_TIMEOUT_MS` stores the value, one of
`BUF_LEN` stores the smaller of it and `BUF_SIZE`; every other register, the latched copies of a pending command, BUF
and the timer's latch stay. -/
def Obligations.ReadWriteRegistersStoreTheWrittenValue : Prop :=
  ∀ (s : State) (r : RegName) (off v : Word) (rest : List Event), (r, off) ∈ registerMap →
    r ∈ [RegName.arg0, .arg1, .arg2, .arg3, .fcMaxRetries, .fcTimeoutMs, .bufLen] →
    s.agenda = .host (.write32 off v) :: rest →
      ∃ t, step s = .next t ∧
        (r ≠ .bufLen → readReg r t = v) ∧
        (r = .bufLen → (readReg r t).toNat = min v.toNat s.build.bufSize.toNat) ∧
        sameRegsExcept [r] s t ∧ sameMem s t ∧ t.pending = s.pending ∧ t.timerLatch = s.timerLatch ∧
        t.build = s.build ∧ t.agenda = rest ∧ t.resp = some .done

/-- R23, R26, R40: a host write clears each bit of `INT_STATUS` and the `OVR` bit written as 1 and leaves each written
as 0; a write of `INT_ENABLE` stores its three bits; no other register, no byte of BUF, no latched copy of a pending
command, and neither the build nor the timer's latch changes. -/
def Obligations.InterruptAndStatusWrites : Prop :=
  (∀ (s : State) (v : Word) (rest : List Event), s.agenda = .host (.write32 0x060 v) :: rest →
    ∃ t, step s = .next t ∧
      (∀ k, k < 3 → (readReg .intStatus t).getLsbD k = ((readReg .intStatus s).getLsbD k && !v.getLsbD k)) ∧
      (∀ k, 3 ≤ k → (readReg .intStatus t).getLsbD k = false) ∧
      sameRegsExcept [.intStatus] s t ∧ sameMem s t ∧ t.pending = s.pending ∧ t.timerLatch = s.timerLatch ∧
      t.build = s.build ∧ t.agenda = rest ∧ t.resp = some .done) ∧
  (∀ (s : State) (v : Word) (rest : List Event), s.agenda = .host (.write32 0x064 v) :: rest →
    ∃ t, step s = .next t ∧ (∀ k, k < 3 → (readReg .intEnable t).getLsbD k = v.getLsbD k) ∧
      (∀ k, 3 ≤ k → (readReg .intEnable t).getLsbD k = false) ∧
      sameRegsExcept [.intEnable] s t ∧ sameMem s t ∧ t.pending = s.pending ∧ t.timerLatch = s.timerLatch ∧
      t.build = s.build ∧ t.agenda = rest ∧ t.resp = some .done) ∧
  (∀ (s : State) (v : Word) (rest : List Event), s.agenda = .host (.write32 0x00C v) :: rest →
    ∃ t, step s = .next t ∧
      (readReg .status t).getLsbD 2 = ((readReg .status s).getLsbD 2 && !v.getLsbD 2) ∧
      (∀ k, k ≠ 2 → (readReg .status t).getLsbD k = (readReg .status s).getLsbD k) ∧
      sameRegsExcept [.status] s t ∧ sameMem s t ∧ t.pending = s.pending ∧ t.timerLatch = s.timerLatch ∧
      t.build = s.build ∧ t.agenda = rest ∧ t.resp = some .done)

/-- R26, R28, R36: where each field stands in `STATUS`, `ERR_INFO` and `FC_STATUS`, and that every reserved bit of
them reads 0. -/
def Obligations.StatusWordsPlaceTheirFields : Prop :=
  ∀ s : State,
    (readReg .status s).toNat =
      (if s.pending.isSome then 1 else 0) + (if s.status.err then 2 else 0) + (if s.status.ovr then 4 else 0) +
        s.status.errcode.toNat * 256 ∧
    (readReg .errInfo s).toNat = s.errInfo.operand.toNat + s.errInfo.entry.toNat * 256 ∧
    (readReg .fcStatus s).toNat =
      (match s.fc.state with | .idle => 0 | .waitingCts => 1 | .ready => 2 | .error => 3) +
        (if s.fc.timerArmed then 256 else 0) + (if s.fc.exhausted then 512 else 0) +
        (if s.fc.consumed then 1024 else 0)

/-- R261: the interrupt output is 1 exactly when an enabled interrupt bit is pending, and enabling a pending bit raises
it at once. -/
def Obligations.InterruptOutputIsTheMaskedLevel : Prop :=
  (∀ s : State, s.irq = true ↔ ((readReg .intStatus s &&& readReg .intEnable s) &&& 0x7) ≠ 0) ∧
  (∀ (s : State) (v : Word) (k : Nat) (rest : List Event), k < 3 →
    (readReg .intStatus s).getLsbD k = true → v.getLsbD k = true →
    s.agenda = .host (.write32 0x064 v) :: rest → ∃ t, step s = .next t ∧ t.irq = true)

/-! ### Acceptance, completion, errors (60_exceptions.md) -/

/-- R256: a host write of `w` to `CMD` by an idle block latches the word, the operands, `BUF_LEN`, `FC_MAX_RETRIES` and
`FC_TIMEOUT_MS`, sets `BUSY`, and changes nothing else. -/
def Obligations.CmdWriteIsAcceptedWhenIdle : Prop :=
  ∀ (s : State) (w : Word) (rest : List Event), s.pending = none → s.agenda = .host (.write32 0x010 w) :: rest →
    ∃ t, step s = .next t ∧ readReg .cmd t = w ∧
      t.pending = some { word := w, args := s.args, bufLen := s.bufLen, maxRetries := s.fcMaxRetries, timeoutMs := s.fcTimeoutMs } ∧
      (readReg .status t).getLsbD 0 = true ∧ t.status = s.status ∧ sameRegsExcept [.cmd, .status] s t ∧
      sameMem s t ∧ t.build = s.build ∧ t.timerLatch = s.timerLatch ∧ t.agenda = rest ∧ t.resp = some .done

/-- R257: a host write to `CMD` while busy changes nothing but `OVR`. -/
def Obligations.CmdWriteIsDroppedWhenBusy : Prop :=
  ∀ (s : State) (w : Word) (rest : List Event), s.pending ≠ none → s.agenda = .host (.write32 0x010 w) :: rest →
    ∃ t, step s = .next t ∧ (readReg .status t).getLsbD 2 = true ∧
      t.status = { err := s.status.err, ovr := true, errcode := s.status.errcode } ∧
      t.pending = s.pending ∧ sameRegsExcept [.status] s t ∧ t.intStatus = s.intStatus ∧ sameMem s t ∧
      t.build = s.build ∧ t.timerLatch = s.timerLatch ∧ t.agenda = rest ∧ t.resp = some .done

/-- R258: the completion bookkeeping with and without an error, and that it changes nothing else. -/
def Obligations.CompletionBookkeeping : Prop :=
  (∀ s : State, completedOk s (s.complete none) ∧ readReg .errInfo (s.complete none) = 0x000000FF ∧
    (readReg .status (s.complete none)).getLsbD 0 = false) ∧
  (∀ (s : State) (e : CmdError),
    (s.complete (some e)).pending = none ∧ (readReg .status (s.complete (some e))).getLsbD 0 = false ∧
    (s.complete (some e)).status =
      { err := true, ovr := s.status.ovr,
        errcode := match e.code with
          | .illegalCmd => 0x01 | .alignment => 0x02 | .emptyRegion => 0x03 | .bounds => 0x04
          | .payloadLength => 0x05 | .fieldWidth => 0x06 } ∧
    (s.complete (some e)).errInfo =
      { entry := e.entry,
        operand := match e.culprit with
          | .arg0 => 0x00 | .arg1 => 0x01 | .arg2 => 0x02 | .arg3 => 0x03
          | .tableEntry => 0xFC | .latchedBufLen => 0xFD | .commandWord => 0xFE } ∧
    (s.complete (some e)).intStatus = s.intStatus ||| 0b011) ∧
  (∀ (s : State) (e : Option CmdError), sameRegsExcept bookkeepingRegs s (s.complete e) ∧
    (s.complete e).mem = s.mem ∧ (s.complete e).fc = s.fc ∧ sameOutside s (s.complete e) ∧
    (s.complete e).timerLatch = s.timerLatch)

/-- R252: errors are precise: a command that ends with `ERR` = 1 leaves the state it found plus the bookkeeping. -/
def Obligations.ErrorsArePrecise : Prop :=
  ∀ (i : Instr) (s t : State), exec i s = .next t → t.status.err = true → ∃ e, t = s.complete (some e)

/-- R253: which error a command reports when several apply: ILLEGAL_CMD first, then the checks in the order of the
table. Entries of a table are looked at in ascending order after the operand checks; FRAME_DECODE looks at its
destination only for a complete frame. -/
def Obligations.FirstFailingCheckIsReported : Prop :=
  (∀ (s : State) (p : Pending) (d : DecodeError), s.pending = some p → decode p.word = .error d →
    engineStep s = .next (s.complete (some { code := .illegalCmd, culprit := .commandWord, entry := 0 }))) ∧
  (∀ (i : Instr) (s : State) (p : Pending) (e : CmdError), s.pending = some p →
    firstError (operandChecks i p) = some e → exec i s = .next (s.complete (some e))) ∧
  (∀ (i : Instr) (s : State) (p : Pending) (j : Nat) (code : ErrCode),
    i = .m32bTableUpdate ∨ i = .m32bTableValidate → s.pending = some p →
    p.x0 % 4 = 0 → p.x0 + 12 * p.x1 ≤ p.len → written s.mem p.x0 (12 * p.x1) → j < p.x1 →
    (∀ k, k < j → entryPasses s.build s.mem p.x0 p.len k) → sentinelAt s.build s.mem p.x0 j = false →
    regionError (startAt s.mem p.x0 j) (stopAt s.mem p.x0 j) p.len = some code →
      exec i s = .next (s.complete (some { code := code, culprit := .tableEntry, entry := BitVec.ofNat 24 j }))) ∧
  (∀ (s : State) (p : Pending) (pci : Byte), s.pending = some p → p.x0 + p.x1 ≤ p.len → 1 ≤ p.x1 →
    s.mem.read p.x0 = some pci → pci.toNat % 16 + 2 ≤ p.x1 → written s.mem p.x0 (pci.toNat % 16 + 2) →
    p.len < p.x2 + pci.toNat % 16 →
      exec .frameDecode s = .next (s.complete (some { code := .bounds, culprit := .arg2, entry := 0 })))

/-! ### The host and BUF (20_memory.md) -/

/-- R62, R64, R66: on an idle block an 8-bit host write of a BUF byte stores it and a read returns it; a 32-bit write at
a 4-aligned offset stores the bytes most significant first and a read returns the word of the four bytes; no other byte
and no register changes. -/
def Obligations.HostAccessesBufBigEndian : Prop :=
  (∀ (s : State) (a : Nat) (v : Byte) (rest : List Event), s.pending = none → s.build.wellFormed = true →
    a < s.build.bufSize.toNat → s.agenda = .host (.write8 (BitVec.ofNat 32 (0x01000000 + a)) v) :: rest →
      ∃ t, step s = .next t ∧ t.mem.read a = some v ∧ sameMemOutside s t a 1 ∧ sameRegsExcept [] s t ∧
        t.pending = none ∧ t.resp = some .done ∧ t.agenda = rest) ∧
  (∀ (s : State) (a : Nat) (v : Byte) (rest : List Event), s.pending = none → s.build.wellFormed = true →
    a < s.build.bufSize.toNat → s.mem.read a = some v →
    s.agenda = .host (.read .w8 (BitVec.ofNat 32 (0x01000000 + a))) :: rest →
      step s = .next ((s.setAgenda rest).setResp (.byte v))) ∧
  (∀ (s : State) (a : Nat) (v : Word) (rest : List Event), s.pending = none → s.build.wellFormed = true →
    a % 4 = 0 → a < s.build.bufSize.toNat →
    s.agenda = .host (.write32 (BitVec.ofNat 32 (0x01000000 + a)) v) :: rest →
      ∃ t, step s = .next t ∧ t.mem.read a = some (v.extractLsb' 24 8) ∧
        t.mem.read (a + 1) = some (v.extractLsb' 16 8) ∧ t.mem.read (a + 2) = some (v.extractLsb' 8 8) ∧
        t.mem.read (a + 3) = some (v.extractLsb' 0 8) ∧ sameMemOutside s t a 4 ∧ sameRegsExcept [] s t ∧
        t.pending = none ∧ t.resp = some .done ∧ t.agenda = rest) ∧
  (∀ (s : State) (a : Nat) (v : Word) (rest : List Event), s.pending = none → s.build.wellFormed = true →
    a % 4 = 0 → a < s.build.bufSize.toNat → s.mem.read a = some (v.extractLsb' 24 8) →
    s.mem.read (a + 1) = some (v.extractLsb' 16 8) → s.mem.read (a + 2) = some (v.extractLsb' 8 8) →
    s.mem.read (a + 3) = some (v.extractLsb' 0 8) →
    s.agenda = .host (.read .w32 (BitVec.ofNat 32 (0x01000000 + a))) :: rest →
      step s = .next ((s.setAgenda rest).setResp (.word v)))

/-- R64, R65, R66: an access to a reserved block offset, of a width or at an alignment its place does not take, answers
a bus error and changes nothing. (In the BUF window of a busy block this is the model's reading, log 9.) -/
def Obligations.MalformedAccessesAreBusErrors : Prop :=
  ∀ (s : State) (a : HostAccess) (width : Width) (off : Word) (rest : List Event),
    (a = .read width off ∨ (∃ v, a = .write8 off v ∧ width = .w8) ∨ (∃ v, a = .write16 off v ∧ width = .w16) ∨
      (∃ v, a = .write32 off v ∧ width = .w32)) →
    (width = .w16 ∨ (0x100 ≤ off.toNat ∧ off.toNat < 0x01000000) ∨
      0x01000000 + s.build.bufSize.toNat ≤ off.toNat ∨ (off.toNat < 0x100 ∧ width ≠ .w32) ∨
      (width = .w32 ∧ off.toNat % 4 ≠ 0)) →
    s.agenda = .host a :: rest → step s = .next ((s.setAgenda rest).setResp .busError)

/-- R43, R66, R72: on a busy block every well-formed host access to the BUF window faults `HostRace`; on an idle one a
read that covers an unwritten byte faults `UninitRead`. -/
def Obligations.BufWindowFaults : Prop :=
  ∀ (s : State) (a : Nat) (rest : List Event), s.build.wellFormed = true → a < s.build.bufSize.toNat →
    (s.pending ≠ none →
      (∀ v, s.agenda = .host (.write8 (BitVec.ofNat 32 (0x01000000 + a)) v) :: rest → step s = .fault .hostRace) ∧
      (s.agenda = .host (.read .w8 (BitVec.ofNat 32 (0x01000000 + a))) :: rest → step s = .fault .hostRace) ∧
      (∀ v, a % 4 = 0 → s.agenda = .host (.write32 (BitVec.ofNat 32 (0x01000000 + a)) v) :: rest →
        step s = .fault .hostRace) ∧
      (a % 4 = 0 → s.agenda = .host (.read .w32 (BitVec.ofNat 32 (0x01000000 + a))) :: rest →
        step s = .fault .hostRace)) ∧
    (s.pending = none →
      (s.mem.read a = none → s.agenda = .host (.read .w8 (BitVec.ofNat 32 (0x01000000 + a))) :: rest →
        step s = .fault .uninitRead) ∧
      (a % 4 = 0 → ¬ written s.mem a 4 →
        s.agenda = .host (.read .w32 (BitVec.ofNat 32 (0x01000000 + a))) :: rest → step s = .fault .uninitRead))

/-- R97, R98: the steps of a command line of a host program, before the engine's: the operands are written, the command
is accepted with them, `STATUS` is polled, and what is left is the completion and the last poll (log 16). -/
def Obligations.CommandLineIssuesItsCommand : Prop :=
  ∀ (s : State) (i : Instr) (ops : List Word) (k : Nat), s.pending = none → ops.length ≤ 4 →
    s.agenda = (HostLine.command i ops k).events →
    ∃ t, Host.Core.run Sys2Proof.core (ops.length + 1 + k) s = .next t ∧
      t.agenda = [.engine, .host (.read .w32 0x00C)] ∧ readReg .cmd t = encode i ∧
      readReg .arg0 t = ops.getD 0 (readReg .arg0 s) ∧ readReg .arg1 t = ops.getD 1 (readReg .arg1 s) ∧
      readReg .arg2 t = ops.getD 2 (readReg .arg2 s) ∧ readReg .arg3 t = ops.getD 3 (readReg .arg3 s) ∧
      t.pending = some
        { word := encode i, args := t.args, bufLen := s.bufLen, maxRetries := s.fcMaxRetries, timeoutMs := s.fcTimeoutMs } ∧
      sameRegsExcept [.arg0, .arg1, .arg2, .arg3, .cmd, .status] s t ∧ sameMem s t

/-! ### System (45_system.md) -/

/-- R240: NOP, the word 0, has no effect but the completion bookkeeping; a pending word with opcode 0x00 and `RSVD` ≠ 0
is not NOP: its completion raises ILLEGAL_CMD; a NOP written while busy is dropped with `OVR` set. -/
def Obligations.NopRunsOnlyTheBookkeeping : Prop :=
  decode 0x00000000 = .ok .nop ∧
  (∀ (s : State) (p : Pending), s.pending = some p →
    ∃ t, exec .nop s = .next t ∧ completedWriting [] s t ∧ sameMem s t ∧ t.fc = s.fc) ∧
  (∀ w : Word, opcodeField w = 0x00 → rsvdField w ≠ 0 → decode w = .error .reservedBitsSet) ∧
  (∀ (s : State) (p : Pending), s.pending = some p → opcodeField p.word = 0x00 → rsvdField p.word ≠ 0 →
    ∃ t, engineStep s = .next t ∧ t.status = { err := true, ovr := s.status.ovr, errcode := 0x01 } ∧
      readReg .errInfo t = 0x000000FE ∧ t.pending = none ∧ t.intStatus = s.intStatus ||| 0b011 ∧
      sameRegsExcept bookkeepingRegs s t ∧ sameMem s t) ∧
  (∀ s : State, s.pending ≠ none →
    (writeReg .cmd 0x00000000 s).status.ovr = true ∧ (writeReg .cmd 0x00000000 s).pending = s.pending)

/-! ### CRC-16 (40_crc16.md) -/

/-- R121, R122: CRC16_COMPUTE, its errors, its fault and its result. -/
def Obligations.Crc16ComputeReturnsTheRegionCrc : Prop :=
  decode 0x00000001 = .ok .crc16Compute ∧
  crc16 0x8408 [0x31, 0x32, 0x33, 0x34, 0x35, 0x36, 0x37, 0x38, 0x39] = 0x6F91 ∧ crc16 0x8408 [0x00] = 0x0F87 ∧
  ∀ (s : State) (p : Pending), s.pending = some p →
    (p.x1 ≤ p.x0 → exec .crc16Compute s = .next (s.complete (some { code := .emptyRegion, culprit := .arg0, entry := 0 }))) ∧
    (p.x0 < p.x1 → p.len < p.x1 →
      exec .crc16Compute s = .next (s.complete (some { code := .bounds, culprit := .arg1, entry := 0 }))) ∧
    (∀ bytes : List Byte, p.x0 < p.x1 → p.x1 ≤ p.len → bytes.length = p.x1 - p.x0 → holds s.mem p.x0 bytes →
      ∃ t, exec .crc16Compute s = .next t ∧ readReg .res0 t = (crc16 s.build.crc16Poly bytes).zeroExtend 32 ∧
        completedWriting [.res0] s t ∧ sameMem s t) ∧
    (p.x0 < p.x1 → p.x1 ≤ p.len → ¬ written s.mem p.x0 (p.x1 - p.x0) → exec .crc16Compute s = .fault .uninitRead)

/-- R121, R123: CRC16_CHECK, its errors, its fault and its results; bits 31:16 of `ARG2` do not matter and a mismatch
is a result. -/
def Obligations.Crc16CheckComparesTheRegionCrc : Prop :=
  decode 0x00000002 = .ok .crc16Check ∧
  ∀ (s : State) (p : Pending), s.pending = some p →
    (p.x1 ≤ p.x0 → exec .crc16Check s = .next (s.complete (some { code := .emptyRegion, culprit := .arg0, entry := 0 }))) ∧
    (p.x0 < p.x1 → p.len < p.x1 →
      exec .crc16Check s = .next (s.complete (some { code := .bounds, culprit := .arg1, entry := 0 }))) ∧
    (∀ bytes : List Byte, p.x0 < p.x1 → p.x1 ≤ p.len → bytes.length = p.x1 - p.x0 → holds s.mem p.x0 bytes →
      ∃ t, exec .crc16Check s = .next t ∧ readReg .res0 t = (crc16 s.build.crc16Poly bytes).zeroExtend 32 ∧
        readReg .res1 t = (if (crc16 s.build.crc16Poly bytes).toNat = p.x2 % 65536 then 1 else 0) ∧
        completedWriting [.res0, .res1] s t ∧ sameMem s t) ∧
    (p.x0 < p.x1 → p.x1 ≤ p.len → ¬ written s.mem p.x0 (p.x1 - p.x0) → exec .crc16Check s = .fault .uninitRead)

/-- The CRC of R120, byte by byte, is the bit-serial register over the bits of the bytes, least significant first:
shift right, and XOR the polynomial when the bit shifted out differs from the bit coming in. -/
def Obligations.CrcIsTheBitSerialRegister : Prop :=
  ∀ (poly : Half) (bytes : List Byte),
    crc16 poly bytes =
      (bytes.flatMap fun b => (List.range 8).map fun k => b.getLsbD k).foldl
        (fun (c : Half) x => if c.getLsbD 0 != x then (c >>> 1) ^^^ poly else c >>> 1) (0xFFFF : Half)

/-- R124: the check value; the relation to the variant with a final XOR; the residue; and the round trip of
CRC16_COMPUTE and CRC16_CHECK. -/
def Obligations.CrcLaws : Prop :=
  crc16 0x8408 [0x31, 0x32, 0x33, 0x34, 0x35, 0x36, 0x37, 0x38, 0x39] = 0x6F91 ∧
  (∀ (poly : Half) (bytes : List Byte), crc16 poly bytes ^^^ 0xFFFF = crc16With poly 0xFFFF bytes) ∧
  crc16With 0x8408 0xFFFF [0x31, 0x32, 0x33, 0x34, 0x35, 0x36, 0x37, 0x38, 0x39] = 0x906E ∧
  (∀ (poly : Half) (bytes : List Byte), bytes ≠ [] →
    crc16 poly (bytes ++ [(crc16 poly bytes).extractLsb' 0 8, (crc16 poly bytes).extractLsb' 8 8]) = 0x0000) ∧
  (∀ (s t s' : State) (p p' : Pending), s.pending = some p → exec .crc16Compute s = .next t → t.status.err = false →
    s'.build = s.build → (∀ a, p.x0 ≤ a → a < p.x1 → s'.mem.read a = s.mem.read a) → s'.pending = some p' →
    p'.x0 = p.x0 → p'.x1 = p.x1 → p'.x1 ≤ p'.len → p'.args.a2 = readReg .res0 t → ∃ t', exec .crc16Check s' = .next t' ∧ readReg .res1 t' = 1)

/-! ### Modular-32 (41_mod32.md) -/

/-- R140: the word sum of a region whose words are given, with the word at `skip` counted as zero. That the word at
`skip` is not read, and so need not be given, is the model's reading (log 10, DEDUCED). -/
def Obligations.WordSumIsTheModularSum : Prop :=
  ∀ (m : Memory) (s : Nat) (skip : Option Nat) (ws : List Word),
    (∀ k (h : k < ws.length), skip ≠ some (s + 4 * k) → m.be32 (s + 4 * k) = some ws[k]) →
      wsum m s (s + 4 * ws.length) skip =
        some ((ws.mapIdx fun k w => if skip = some (s + 4 * k) then 0 else w).foldl (· + ·) 0)

/-- R142, R143: M32A_COMPUTE returns the fixup and the sum of the image without the fixup word. That the bytes of the
fixup word need not be written is the model's reading (log 10, DEDUCED: R68 lists the words of `[0, L)` as read). -/
def Obligations.M32aComputeReturnsTheFixup : Prop :=
  ∀ (s : State) (p : Pending) (sum : Word), s.pending = some p → p.x0 % 4 = 0 → p.len % 4 = 0 → p.x0 + 4 ≤ p.len →
    wsum s.mem 0 p.len (some p.x0) = some sum →
      ∃ t, exec .m32aCompute s = .next t ∧ readReg .res0 t = 0x5AA55AA5 - sum ∧ readReg .res1 t = sum ∧
        completedWriting [.res0, .res1] s t ∧ sameMem s t

/-- R142, R144: M32A_UPDATE returns the same and stores the fixup at the fixup offset, big-endian; no other byte
changes; the image's whole sum is then the target, and its sum without the fixup word is as before. That the bytes of
the fixup word need not be written before is the model's reading (log 10, DEDUCED). -/
def Obligations.M32aUpdateStoresTheFixup : Prop :=
  ∀ (s : State) (p : Pending) (sum : Word), s.pending = some p → p.x0 % 4 = 0 → p.len % 4 = 0 → p.x0 + 4 ≤ p.len →
    wsum s.mem 0 p.len (some p.x0) = some sum →
      ∃ t, exec .m32aUpdate s = .next t ∧ readReg .res0 t = 0x5AA55AA5 - sum ∧ readReg .res1 t = sum ∧
        holds t.mem p.x0
          [(0x5AA55AA5 - sum).extractLsb' 24 8, (0x5AA55AA5 - sum).extractLsb' 16 8,
           (0x5AA55AA5 - sum).extractLsb' 8 8, (0x5AA55AA5 - sum).extractLsb' 0 8] ∧
        sameMemOutside s t p.x0 4 ∧ completedWriting [.res0, .res1] s t ∧
        wsum t.mem 0 p.len none = some 0x5AA55AA5 ∧ wsum t.mem 0 p.len (some p.x0) = some sum

/-- R142, R145: M32A_VALIDATE returns the recomputed fixup, the stored word and whether they agree, which is whether the
whole image sums to the target; a mismatch is a result. -/
def Obligations.M32aValidateComparesTheFixup : Prop :=
  ∀ (s : State) (p : Pending) (sum stored : Word), s.pending = some p → p.x0 % 4 = 0 → p.len % 4 = 0 →
    p.x0 + 4 ≤ p.len → wsum s.mem 0 p.len (some p.x0) = some sum → s.mem.be32 p.x0 = some stored →
      ∃ t, exec .m32aValidate s = .next t ∧ readReg .res0 t = 0x5AA55AA5 - sum ∧ readReg .res1 t = stored ∧
        readReg .res2 t = (if stored = 0x5AA55AA5 - sum then 1 else 0) ∧
        (readReg .res2 t = 1 ↔ wsum s.mem 0 p.len none = some 0x5AA55AA5) ∧
        completedWriting [.res0, .res1, .res2] s t ∧ sameMem s t

/-- R153 law 1: after M32A_UPDATE, M32A_VALIDATE with the same offset over the unchanged image answers `RES2` = 1. -/
def Obligations.M32aUpdateThenValidates : Prop :=
  ∀ (s t s' : State) (p p' : Pending), s.pending = some p → exec .m32aUpdate s = .next t → t.status.err = false →
    (∀ a, a < p.len → s'.mem.read a = t.mem.read a) → s'.pending = some p' → p'.x0 = p.x0 → p'.len = p.len →
      ∃ t', exec .m32aValidate s' = .next t' ∧ readReg .res2 t' = 1 ∧
        wsum s'.mem 0 p.len none = some 0x5AA55AA5

/-- R146, R147, R153 law 2: M32B_REGION returns the word sum and the checksum that with it makes the target. -/
def Obligations.M32bRegionReturnsTheChecksum : Prop :=
  ∀ (s : State) (p : Pending) (sum : Word), s.pending = some p → p.x0 % 4 = 0 → p.x1 % 4 = 0 → p.x0 < p.x1 →
    p.x1 ≤ p.len → wsum s.mem p.x0 p.x1 none = some sum →
      ∃ t, exec .m32bRegion s = .next t ∧ readReg .res1 t = sum ∧ readReg .res0 t + sum = readReg .m32bTarget s ∧
        completedWriting [.res0, .res1] s t ∧ sameMem s t

/-- R148–R151: M32B_TABLE_UPDATE on a table that passes the checks, whose needed bytes are written, goes through the
entries in ascending order; a sentinel leaves BUF as it is; an enabled entry stores the checksum of its region, of BUF as
updated so far, into its own checksum field; `RES0` counts the enabled entries. Which bytes of the table are needed is
the model's reading (log 10, DEDUCED); a byte of a region that an earlier enabled entry stores need not be written
before. -/
def Obligations.M32bTableUpdateStoresEveryChecksum : Prop :=
  ∀ (s : State) (p : Pending), s.pending = some p → tablePasses s.build s.mem p →
    (∀ i, i < p.x1 → fieldsWritten s.build s.mem p.x0 i) →
    (∀ i, i < p.x1 → sentinelAt s.build s.mem p.x0 i = false → regionReady s.build s.mem p.x0 i) →
    ∃ (t : State) (ms : Nat → Memory), exec .m32bTableUpdate s = .next t ∧ ms 0 = s.mem ∧ t.mem = ms p.x1 ∧
      (∀ i, i < p.x1 → sentinelAt s.build s.mem p.x0 i = true → ms (i + 1) = ms i) ∧
      (∀ i, i < p.x1 → sentinelAt s.build s.mem p.x0 i = false →
        ∃ sum, wsum (ms i) (startAt s.mem p.x0 i) (stopAt s.mem p.x0 i) none = some sum ∧
          ms (i + 1) = (ms i).wrBe32 (entryAt p.x0 i + 8) (s.build.m32bTarget - sum)) ∧
      (readReg .res0 t).toNat = (enabledEntries s.build s.mem p.x0 p.x1).length ∧ completedWriting [.res0] s t

/-- R148–R150, R152: M32B_TABLE_VALIDATE on a table that passes the checks, whose needed bytes are written, counts the
enabled entries and those whose stored checksum is wrong; with no enabled entry `RES0` is all ones. Which bytes of the
table are needed is the model's reading (log 10, DEDUCED). -/
def Obligations.M32bTableValidateCountsMismatches : Prop :=
  ∀ (s : State) (p : Pending), s.pending = some p → tablePasses s.build s.mem p →
    (∀ i, i < p.x1 → fieldsWritten s.build s.mem p.x0 i) →
    (∀ i, i < p.x1 → sentinelAt s.build s.mem p.x0 i = false →
      written s.mem (startAt s.mem p.x0 i) (stopAt s.mem p.x0 i - startAt s.mem p.x0 i) ∧
      written s.mem (p.x0 + 12 * i + 8) 4) →
    ∃ t, exec .m32bTableValidate s = .next t ∧
      (readReg .res1 t).toNat = (enabledEntries s.build s.mem p.x0 p.x1).length ∧
      (enabledEntries s.build s.mem p.x0 p.x1 = [] → readReg .res0 t = 0xFFFFFFFF) ∧
      (enabledEntries s.build s.mem p.x0 p.x1 ≠ [] →
        (readReg .res0 t).toNat =
          ((enabledEntries s.build s.mem p.x0 p.x1).filter fun i => mismatchAt s.build s.mem p.x0 i).length) ∧
      completedWriting [.res0, .res1] s t ∧ sameMem s t

/-- R153 law 3: after M32B_TABLE_UPDATE, M32B_TABLE_VALIDATE over the same table answers 0 when some entry is enabled
and no enabled entry's region holds a byte of the checksum field of the same or a later enabled entry; all ones when
none is enabled. -/
def Obligations.M32bTableUpdateThenValidates : Prop :=
  ∀ (s t s' : State) (p p' : Pending), s.pending = some p → exec .m32bTableUpdate s = .next t → t.status.err = false →
    (∀ i j, i ∈ enabledEntries s.build s.mem p.x0 p.x1 → j ∈ enabledEntries s.build s.mem p.x0 p.x1 → i ≤ j →
      entryAt p.x0 j + 12 ≤ startAt s.mem p.x0 i ∨ stopAt s.mem p.x0 i ≤ entryAt p.x0 j + 8) →
    s'.build = s.build → (∀ a, a < p.len → s'.mem.read a = t.mem.read a) → s'.pending = some p' → p'.x0 = p.x0 →
    p'.x1 = p.x1 → p'.len = p.len →
      ∃ t', exec .m32bTableValidate s' = .next t' ∧
        (enabledEntries s.build s.mem p.x0 p.x1 ≠ [] → readReg .res0 t' = 0) ∧
        (enabledEntries s.build s.mem p.x0 p.x1 = [] → readReg .res0 t' = 0xFFFFFFFF)

/-! ### Frames (42_frame.md) -/

/-- R170–R172: FRAME_ENCODE of 1 to 7 written payload bytes writes PCI, payload and checksum at the destination, even
where it overlaps the payload, and no other byte. -/
def Obligations.FrameEncodeWritesTheFrame : Prop :=
  ∀ (s : State) (p : Pending) (payload : List Byte), s.pending = some p → payload.length = p.x1 →
    1 ≤ p.x1 → p.x1 ≤ 7 → p.x0 + p.x1 ≤ p.len → p.x2 + p.x1 + 2 ≤ p.len → holds s.mem p.x0 payload →
      ∃ t, exec .frameEncode s = .next t ∧
        holds t.mem p.x2
          (BitVec.ofNat 8 p.x1 :: payload ++ [sumMod256 (BitVec.ofNat 8 p.x1 :: payload)]) ∧
        sameMemOutside s t p.x2 (p.x1 + 2) ∧ (readReg .res0 t).toNat = p.x1 + 2 ∧
        readReg .res1 t = (sumMod256 (BitVec.ofNat 8 p.x1 :: payload)).zeroExtend 32 ∧
        completedWriting [.res0, .res1] s t

/-- R173, R174: FRAME_DECODE of a short buffer answers zeros and writes nothing; of a complete frame it writes the
payload at the destination and answers its length, the flags VALID, COMPLETE, LEN_IN_RANGE and EXTRA, and the PCI and
checksum bytes; a bad checksum and an out-of-range length are results. -/
def Obligations.FrameDecodeAnswersTheFrame : Prop :=
  (∀ (s : State) (p : Pending), s.pending = some p → p.x0 + p.x1 ≤ p.len →
    (p.x1 = 0 ∨ ∃ pci, s.mem.read p.x0 = some pci ∧ p.x1 < pci.toNat % 16 + 2) →
      ∃ t, exec .frameDecode s = .next t ∧ readReg .res0 t = 0 ∧ readReg .res1 t = 0 ∧ readReg .res2 t = 0 ∧
        sameMem s t ∧ completedWriting [.res0, .res1, .res2] s t) ∧
  (∀ (s : State) (p : Pending) (f : RawFrame), s.pending = some p → p.x0 + p.x1 ≤ p.len → f.complete →
    f.payload.length + 2 ≤ p.x1 → holds s.mem p.x0 f.bytes → p.x2 + f.payload.length ≤ p.len →
      ∃ t, exec .frameDecode s = .next t ∧ holds t.mem p.x2 f.payload ∧
        sameMemOutside s t p.x2 f.payload.length ∧ (readReg .res0 t).toNat = f.payload.length ∧
        (readReg .res1 t).toNat = f.flags + (if f.payload.length + 2 < p.x1 then 8 else 0) ∧
        (readReg .res2 t).toNat = f.pci.toNat * 256 + f.cs.toNat ∧
        completedWriting [.res0, .res1, .res2] s t)

/-- R175, R176: FRAME_PARSE of a written stream finds the complete frames one after another, writes a descriptor of
each and answers their number, the bytes consumed and why it stopped; and every stream is such a run of frames and a
rest. -/
def Obligations.FrameParseFindsTheFrames : Prop :=
  (∀ (s : State) (p : Pending) (frames : List RawFrame) (rest : List Byte) (why : Nat), s.pending = some p →
    p.x0 + p.x1 ≤ p.len → p.x2 + 8 * p.x3 ≤ p.len → (∀ f, f ∈ frames → f.complete) →
    (frames.flatMap RawFrame.bytes ++ rest).length = p.x1 →
    holds s.mem p.x0 (frames.flatMap RawFrame.bytes ++ rest) → frames.length ≤ p.x3 →
    stopsWith frames rest p.x3 why →
      ∃ t, exec .frameParse s = .next t ∧ (readReg .res0 t).toNat = frames.length ∧
        (readReg .res1 t).toNat = (frames.flatMap RawFrame.bytes).length ∧ (readReg .res2 t).toNat = why ∧
        (∀ j (h : j < frames.length),
          holds t.mem (p.x2 + 8 * j) (frames[j].descriptor (p.x0 + streamOffset frames j))) ∧
        sameMemOutside s t p.x2 (8 * frames.length) ∧ completedWriting [.res0, .res1, .res2] s t) ∧
  (∀ (bytes : List Byte) (room : Nat), ∃ (frames : List RawFrame) (rest : List Byte) (why : Nat),
    bytes = frames.flatMap RawFrame.bytes ++ rest ∧ (∀ f, f ∈ frames → f.complete) ∧ frames.length ≤ room ∧
    stopsWith frames rest room why)

/-- R177 law 1: FRAME_DECODE of what FRAME_ENCODE wrote gives the payload back, valid, in range and with nothing
extra. -/
def Obligations.FrameDecodeOfEncode : Prop :=
  ∀ (s t s' : State) (p p' : Pending) (payload : List Byte), s.pending = some p → payload.length = p.x1 →
    holds s.mem p.x0 payload → exec .frameEncode s = .next t → t.status.err = false →
    (∀ a, a < p.len → s'.mem.read a = t.mem.read a) → s'.pending = some p' → p'.x0 = p.x2 → p'.x1 = p.x1 + 2 →
    p'.len = p.len → p'.x2 + p.x1 ≤ p.len →
      ∃ t', exec .frameDecode s' = .next t' ∧ (readReg .res0 t').toNat = p.x1 ∧ readReg .res1 t' = 0x7 ∧
        holds t'.mem p'.x2 payload

/-- R177 law 2: FRAME_PARSE over encoded frames one after another finds every one of them, valid, and stops at the
end. -/
def Obligations.FrameParseOfEncodedFrames : Prop :=
  ∀ (s : State) (p : Pending) (payloads : List (List Byte)), s.pending = some p →
    (∀ q, q ∈ payloads → 1 ≤ q.length ∧ q.length ≤ 7) → (payloads.flatMap encodeFrame).length = p.x1 →
    holds s.mem p.x0 (payloads.flatMap encodeFrame) → payloads.length ≤ p.x3 → p.x0 + p.x1 ≤ p.len →
    p.x2 + 8 * p.x3 ≤ p.len →
      ∃ t, exec .frameParse s = .next t ∧ (readReg .res0 t).toNat = payloads.length ∧
        (readReg .res1 t).toNat = p.x1 ∧ readReg .res2 t = 0 ∧
        ∀ j, j < payloads.length → ∃ flags, t.mem.read (p.x2 + 8 * j + 6) = some flags ∧ flags.getLsbD 0 = true

/-- R177 law 3: changing one payload byte of an encoded frame by a nonzero amount makes it invalid; changing two bytes
by opposite amounts leaves it valid. -/
def Obligations.FrameChecksumDetectsOneChangedByte : Prop :=
  ∀ (payload : List Byte) (i : Nat) (delta : Byte), 1 ≤ payload.length → payload.length ≤ 7 → i < payload.length →
    delta ≠ 0 →
    (∃ f, fdec (BitVec.ofNat 8 payload.length :: payload.modify i (· + delta) ++ [encodeChecksum payload]) = some f ∧
      f.valid = false) ∧
    (∀ j, j < payload.length → j ≠ i →
      ∃ f, fdec (BitVec.ofNat 8 payload.length :: (payload.modify i (· + delta)).modify j (· - delta) ++
          [encodeChecksum payload]) = some f ∧ f.valid = true)

/-! ### Flow control (43_flowcontrol.md) -/

/-- R201: FC_EXPECT_CTS latches the timeout, arms the timer and moves to WAITING_CTS, from every state. -/
def Obligations.FcExpectCtsArmsTheTimer : Prop :=
  decode 0x00000030 = .ok .fcExpectCts ∧
  ∀ (s : State) (p : Pending), s.pending = some p →
    ∃ t, exec .fcExpectCts s = .next t ∧ t.fc = { s.fc with timerArmed := true, state := .waitingCts } ∧
      t.timerLatch = p.timeoutMs ∧ completedOk s t ∧ sameRegsExcept (bookkeepingRegs ++ [.fcStatus]) s t ∧
      sameOutside s t ∧ sameMem s t ∧ (readReg .fcStatus s = 0 → readReg .fcStatus t = 0x00000101)

/-- R202: FC_RECEIVED_CTS disarms the timer and moves to READY, from every state; a pending timeout interrupt stays. -/
def Obligations.FcReceivedCtsMovesToReady : Prop :=
  decode 0x00000031 = .ok .fcReceivedCts ∧
  ∀ (s : State) (p : Pending), s.pending = some p →
    ∃ t, exec .fcReceivedCts s = .next t ∧ t.fc = { s.fc with timerArmed := false, state := .ready } ∧
      completedWriting [.fcStatus] s t ∧ sameMem s t ∧ (readReg .intStatus t).getLsbD 2 = (readReg .intStatus s).getLsbD 2 ∧
      (readReg .fcStatus s = 0x00000101 → readReg .fcStatus t = 0x00000002)

/-- R203, R204: FC_HANDLE_TIMEOUT counts, saturating, and allows a retry or exhausts, under both orders of increment
and comparison; the timer and `CONSUMED` stay. -/
def Obligations.FcHandleTimeoutCountsAndDecides : Prop :=
  decode 0x00000032 = .ok .fcHandleTimeout ∧
  ∀ (s : State) (p : Pending), s.pending = some p →
    ∃ t, exec .fcHandleTimeout s = .next t ∧
      (readReg .fcRetryCount t).toNat = min ((readReg .fcRetryCount s).toNat + 1) 0xFFFFFFFF ∧
      t.fc.timerArmed = s.fc.timerArmed ∧ t.fc.consumed = s.fc.consumed ∧
      ((s.build.retryOrder = .incThenCmp ∧ (readReg .fcRetryCount t).toNat < p.maxRetries.toNat) ∨
        (s.build.retryOrder = .cmpThenInc ∧ (readReg .fcRetryCount s).toNat < p.maxRetries.toNat) →
        t.fc.state = .idle ∧ t.fc.exhausted = s.fc.exhausted ∧ readReg .res0 t = 1) ∧
      (¬ ((s.build.retryOrder = .incThenCmp ∧ (readReg .fcRetryCount t).toNat < p.maxRetries.toNat) ∨
        (s.build.retryOrder = .cmpThenInc ∧ (readReg .fcRetryCount s).toNat < p.maxRetries.toNat)) →
        t.fc.state = .error ∧ t.fc.exhausted = true ∧ readReg .res0 t = 0) ∧
      completedWriting [.fcStatus, .fcRetryCount, .res0] s t ∧ sameMem s t

/-- R205: FC_RETRY is accepted only from IDLE or ERROR, and after exhaustion once (`FIRST_ALLOWED`) or never
(`BLOCK_ON_EXHAUSTED`); a refusal is a result and changes no flow-control state. -/
def Obligations.FcRetryIsAcceptedOnce : Prop :=
  decode 0x00000033 = .ok .fcRetry ∧
  ∀ (s : State) (p : Pending), s.pending = some p →
    ∃ t, exec .fcRetry s = .next t ∧ completedWriting [.fcStatus, .res0] s t ∧ sameMem s t ∧
      ((s.fc.state ≠ .idle ∧ s.fc.state ≠ .error) → t.fc = s.fc ∧ readReg .res0 t = 0) ∧
      ((s.fc.state = .idle ∨ s.fc.state = .error) → s.fc.exhausted = false →
        t.fc = { s.fc with state := .idle } ∧ readReg .res0 t = 1) ∧
      ((s.fc.state = .idle ∨ s.fc.state = .error) → s.fc.exhausted = true → s.build.retryConsume = .firstAllowed →
        s.fc.consumed = false → t.fc = { s.fc with state := .idle, consumed := true } ∧ readReg .res0 t = 1) ∧
      ((s.fc.state = .idle ∨ s.fc.state = .error) → s.fc.exhausted = true →
        (s.build.retryConsume = .firstAllowed → s.fc.consumed = true) → t.fc = s.fc ∧ readReg .res0 t = 0)

/-- R206, R207: FC_RESET and FC_TO_IDLE disarm, clear the count and move to IDLE; `EXHAUSTED` and `CONSUMED` stay. -/
def Obligations.FcResetAndToIdleClear : Prop :=
  decode 0x00000034 = .ok .fcReset ∧ decode 0x00000035 = .ok .fcToIdle ∧
  ∀ (i : Instr) (s : State) (p : Pending), i = .fcReset ∨ i = .fcToIdle → s.pending = some p →
    ∃ t, exec i s = .next t ∧ t.fc = { s.fc with timerArmed := false, retryCount := 0, state := .idle } ∧
      completedWriting [.fcStatus, .fcRetryCount] s t ∧ sameMem s t

/-- R209: FC_INIT returns the whole unit to a fresh instance; limits, timeout and a pending timeout interrupt stay. -/
def Obligations.FcInitMakesAFreshInstance : Prop :=
  decode 0x00000036 = .ok .fcInit ∧
  ∀ (s : State) (p : Pending), s.pending = some p →
    ∃ t, exec .fcInit s = .next t ∧ readReg .fcStatus t = 0 ∧ readReg .fcRetryCount t = 0 ∧
      t.fc = { state := .idle, timerArmed := false, exhausted := false, consumed := false, retryCount := 0 } ∧
      completedWriting [.fcStatus, .fcRetryCount] s t ∧ sameMem s t ∧
      (readReg .intStatus t).getLsbD 2 = (readReg .intStatus s).getLsbD 2

/-- R208: expiry disarms the timer, moves to ERROR and sets the timeout interrupt, whatever the state, and changes
nothing else. -/
def Obligations.TimerExpiryMovesToError : Prop :=
  ∀ (s : State) (rest : List Event), s.fc.timerArmed = true → s.agenda = .timer :: rest →
    ∃ t, step s = .next t ∧ t.fc = { s.fc with timerArmed := false, state := .error } ∧
      t.intStatus = s.intStatus ||| 0b100 ∧ sameRegsExcept [.fcStatus, .intStatus] s t ∧ sameMem s t ∧
      t.pending = s.pending ∧ t.timerLatch = s.timerLatch ∧ t.build = s.build ∧ t.resp = s.resp ∧ t.agenda = rest

/-- R205, R209, R241, R280: the exhausted flag, once set, is cleared by a step only if the step is the engine's and
completes FC_INIT, or is a power-on reset, or is a host write of `CTRL` with bit 0 = 1. -/
def Obligations.OnlyInitOrResetClearsExhausted : Prop :=
  ∀ s t : State, step s = .next t → s.fc.exhausted = true → t.fc.exhausted = false →
    ((∃ p, s.pending = some p ∧ p.word = 0x00000036) ∧ (s.agenda = [] ∨ ∃ rest, s.agenda = .engine :: rest)) ∨
    (∃ rest, s.agenda = .powerOn :: rest) ∨
    (∃ v rest, s.agenda = .host (.write32 0x008 v) :: rest ∧ v.getLsbD 0 = true)

/-! ### Bit fields (44_bitfield.md) -/

/-- R230, R231: BITS_EXTRACT of 1 to 32 bits inside the buffer returns the field, its first buffer bit the most
significant, zero-extended; only the bytes the field lies in need be written. -/
def Obligations.BitsExtractReturnsTheField : Prop :=
  ∀ (s : State) (p : Pending), s.pending = some p → 1 ≤ p.x3 → p.x3 ≤ 32 → p.x0 + p.x1 ≤ p.len →
    p.x2 + p.x3 ≤ 8 * p.x1 → (∀ i, i < p.x3 → (s.mem.read (p.x0 + (p.x2 + i) / 8)).isSome = true) →
      ∃ t, exec .bitsExtract s = .next t ∧
        (∀ i, i < p.x3 → ∃ v, s.mem.read (p.x0 + (p.x2 + i) / 8) = some v ∧
          (readReg .res0 t).getLsbD (p.x3 - 1 - i) = v.getLsbD (7 - (p.x2 + i) % 8)) ∧
        (∀ j, p.x3 ≤ j → (readReg .res0 t).getLsbD j = false) ∧
        completedWriting [.res0] s t ∧ sameMem s t

/-- R232: a value written bit by bit extracts back; a byte-aligned field is the big-endian integer of its bytes, and
the 32 bits at 0 are the word there; a field is the join of its two parts. -/
def Obligations.BitsExtractLaws : Prop :=
  (∀ (s : State) (p : Pending) (x : Nat), s.pending = some p → 1 ≤ p.x3 → p.x3 ≤ 32 → p.x0 + p.x1 ≤ p.len →
    p.x2 + p.x3 ≤ 8 * p.x1 → x < 2 ^ p.x3 →
    (∀ i, i < p.x3 → bitAt s.mem p.x0 (p.x2 + i) = some (x.testBit (p.x3 - 1 - i))) →
      ∃ t, exec .bitsExtract s = .next t ∧ (readReg .res0 t).toNat = x) ∧
  (∀ (s : State) (p : Pending) (j : Nat) (bytes : List Byte), s.pending = some p → 1 ≤ bytes.length →
    bytes.length ≤ 4 → p.x2 = 8 * j → p.x3 = 8 * bytes.length → p.x0 + p.x1 ≤ p.len → p.x2 + p.x3 ≤ 8 * p.x1 →
    holds s.mem (p.x0 + j) bytes →
      ∃ t, exec .bitsExtract s = .next t ∧
        (readReg .res0 t).toNat = bytes.foldl (fun acc b => acc * 256 + b.toNat) 0 ∧
        (j = 0 → bytes.length = 4 → s.mem.be32 p.x0 = some (readReg .res0 t))) ∧
  (∀ (m : Memory) (b o w1 w2 : Nat) (u v : Word), w1 + w2 ≤ 32 → extractFrom m b w1 o 0 = some u →
    extractFrom m b w2 (o + w1) 0 = some v → extractFrom m b (w1 + w2) o 0 = some ((u <<< w2) ||| v))

/-! ### Frames of all commands, and whole-machine rules -/

/-- R68, R96, R252, R258: a command that reaches a next state, with or without an error, writes only its own result and
flow-control registers and the bookkeeping; a command that stores nothing leaves every byte of BUF, and only
FC_EXPECT_CTS writes the timer's latch. -/
def Obligations.CommandsWriteOnlyTheirDestinations : Prop :=
  ∀ (i : Instr) (s t : State), exec i s = .next t →
    sameRegsExcept (bookkeepingRegs ++ destinations i) s t ∧ bookkeepingOnly s t ∧ sameOutside s t ∧
    (i ≠ .fcExpectCts → t.timerLatch = s.timerLatch) ∧ (flowControl i = false → t.fc = s.fc) ∧
    (storing i = false → sameMem s t)

/-- R68, R144, R151, R172, R174, R176, R252: where the storing commands store. On an error nothing; else M32A_UPDATE the
word at its fixup offset, M32B_TABLE_UPDATE the checksum fields of enabled entries, FRAME_ENCODE `ARG1` + 2 bytes at
`ARG2`, FRAME_DECODE as many bytes at `ARG2` as `RES0` says, FRAME_PARSE 8 bytes for each frame at `ARG2`. -/
def Obligations.CommandsStoreOnlyWhereTheirRuleSays : Prop :=
  (∀ (i : Instr) (s t : State), exec i s = .next t → t.status.err = true → sameMem s t) ∧
  (∀ (s t : State) (p : Pending), s.pending = some p → exec .m32aUpdate s = .next t →
    sameMemOutside s t p.x0 4) ∧
  (∀ (s t : State) (p : Pending), s.pending = some p → exec .m32bTableUpdate s = .next t →
    ∀ a, (∀ i, i ∈ enabledEntries s.build s.mem p.x0 p.x1 → a < entryAt p.x0 i + 8 ∨ entryAt p.x0 i + 12 ≤ a) →
      t.mem.read a = s.mem.read a) ∧
  (∀ (s t : State) (p : Pending), s.pending = some p → exec .frameEncode s = .next t →
    sameMemOutside s t p.x2 (p.x1 + 2)) ∧
  (∀ (s t : State) (p : Pending), s.pending = some p → exec .frameDecode s = .next t → t.status.err = false →
    sameMemOutside s t p.x2 (readReg .res0 t).toNat) ∧
  (∀ (s t : State) (p : Pending), s.pending = some p → exec .frameParse s = .next t → t.status.err = false →
    sameMemOutside s t p.x2 (8 * (readReg .res0 t).toNat))

/-- R43, R255: a command that comes to need a byte nothing has written faults `UninitRead`: which bytes each command
needs. (Of CRC16_COMPUTE and CRC16_CHECK their own statements say it.) The table commands need the address fields of
every entry up to the first that fails a check, a checksum field where the sentinel test needs it, then the regions of
the enabled entries and, to validate, their checksum fields; that the sentinel test needs a checksum field only where
`fieldsWritten` says so, and the sum no fixup word, is the model's reading (log 10, DEDUCED). A complete frame is needed
by FRAME_DECODE even where its destination does not fit (the clause with `p.len <`: log 11, DEDUCED), and the whole
stream by FRAME_PARSE whatever the descriptor limit (log 20, DEDUCED). -/
def Obligations.ReadsOfUnwrittenBytesFault : Prop :=
  ∀ (s : State) (p : Pending), s.pending = some p →
    (∀ i : Instr, i = .m32aCompute ∨ i = .m32aUpdate ∨ i = .m32aValidate → p.x0 % 4 = 0 → p.len % 4 = 0 →
      p.x0 + 4 ≤ p.len → (∃ a, a < p.len ∧ (a < p.x0 ∨ p.x0 + 4 ≤ a) ∧ s.mem.read a = none) →
        exec i s = .fault .uninitRead) ∧
    (p.x0 % 4 = 0 → p.len % 4 = 0 → p.x0 + 4 ≤ p.len → ¬ written s.mem p.x0 4 →
      exec .m32aValidate s = .fault .uninitRead) ∧
    (p.x0 % 4 = 0 → p.x1 % 4 = 0 → p.x0 < p.x1 → p.x1 ≤ p.len → ¬ written s.mem p.x0 (p.x1 - p.x0) →
      exec .m32bRegion s = .fault .uninitRead) ∧
    (∀ (i : Instr) (j : Nat), i = .m32bTableUpdate ∨ i = .m32bTableValidate → p.x0 % 4 = 0 →
      p.x0 + 12 * p.x1 ≤ p.len → j < p.x1 →
      (∀ k, k < j → entryPasses s.build s.mem p.x0 p.len k ∧ fieldsWritten s.build s.mem p.x0 k) →
      ¬ fieldsWritten s.build s.mem p.x0 j → exec i s = .fault .uninitRead) ∧
    (∀ j, tablePasses s.build s.mem p → (∀ k, k < p.x1 → fieldsWritten s.build s.mem p.x0 k) → j < p.x1 →
      sentinelAt s.build s.mem p.x0 j = false → ¬ regionReady s.build s.mem p.x0 j →
      exec .m32bTableUpdate s = .fault .uninitRead) ∧
    (∀ j, tablePasses s.build s.mem p → (∀ k, k < p.x1 → fieldsWritten s.build s.mem p.x0 k) → j < p.x1 →
      sentinelAt s.build s.mem p.x0 j = false →
      (¬ written s.mem (startAt s.mem p.x0 j) (stopAt s.mem p.x0 j - startAt s.mem p.x0 j) ∨
        ¬ written s.mem (p.x0 + 12 * j + 8) 4) →
      exec .m32bTableValidate s = .fault .uninitRead) ∧
    (1 ≤ p.x1 → p.x1 ≤ 7 → p.x0 + p.x1 ≤ p.len → p.x2 + p.x1 + 2 ≤ p.len → ¬ written s.mem p.x0 p.x1 →
      exec .frameEncode s = .fault .uninitRead) ∧
    (p.x0 + p.x1 ≤ p.len → 1 ≤ p.x1 → s.mem.read p.x0 = none → exec .frameDecode s = .fault .uninitRead) ∧
    (∀ pci : Byte, p.x0 + p.x1 ≤ p.len → s.mem.read p.x0 = some pci → pci.toNat % 16 + 2 ≤ p.x1 →
      p.x2 + pci.toNat % 16 ≤ p.len → ¬ written s.mem p.x0 (pci.toNat % 16 + 2) →
      exec .frameDecode s = .fault .uninitRead) ∧
    (∀ pci : Byte, p.x0 + p.x1 ≤ p.len → s.mem.read p.x0 = some pci → pci.toNat % 16 + 2 ≤ p.x1 →
      p.len < p.x2 + pci.toNat % 16 → ¬ written s.mem p.x0 (pci.toNat % 16 + 2) →
      exec .frameDecode s = .fault .uninitRead) ∧
    (p.x0 + p.x1 ≤ p.len → p.x2 + 8 * p.x3 ≤ p.len → ¬ written s.mem p.x0 p.x1 →
      exec .frameParse s = .fault .uninitRead) ∧
    (∀ k, 1 ≤ p.x3 → p.x3 ≤ 32 → p.x0 + p.x1 ≤ p.len → p.x2 + p.x3 ≤ 8 * p.x1 → k < p.x3 →
      s.mem.read (p.x0 + (p.x2 + k) / 8) = none → exec .bitsExtract s = .fault .uninitRead)

/-- R60: a command reads and writes only bytes below the latched `BUF_LEN`: with another BUF that agrees below it, the
command ends the same way, with the same registers and the same bytes below it, and bytes above it stay. -/
def Obligations.CommandsTouchOnlyBytesBelowTheLatchedLength : Prop :=
  ∀ (i : Instr) (s : State) (p : Pending) (m : Memory), s.pending = some p →
    (∀ a, a < p.len → m.read a = s.mem.read a) →
      (∀ t, exec i s = .next t → ∃ t', exec i (s.setMem m) = .next t' ∧ t'.setMem [] = t.setMem [] ∧
        (∀ a, a < p.len → t'.mem.read a = t.mem.read a) ∧
        (∀ a, p.len ≤ a → t'.mem.read a = m.read a ∧ t.mem.read a = s.mem.read a)) ∧
      (∀ f, exec i s = .fault f → exec i (s.setMem m) = .fault f)

/-- R23, R29, R41, R60: every step keeps the build, BUF canonical and inside it, and the lengths legal. -/
def Obligations.StepKeepsBufInvariant : Prop :=
  ∀ s t : State, bufInvariant s → step s = .next t → bufInvariant t ∧ t.build = s.build

/-- R26, R28, R250: every step keeps `STATUS` and `ERR_INFO` reporting one error or none, with no reserved code. -/
def Obligations.StepKeepsReportInvariant : Prop :=
  ∀ s t : State, reportInvariant s → step s = .next t → reportInvariant t

/-- R210: every step keeps the timer disarmed in READY, armed in WAITING_CTS, and `CONSUMED` only with `EXHAUSTED`. -/
def Obligations.StepKeepsFlowControlInvariant : Prop :=
  ∀ s t : State, fcInvariant s → step s = .next t → fcInvariant t
end

