-- ==== Sys2Proof/Laws/Memory.lean ====
section
/-! SUPPORT. The laws of BUF: reads after writes, the canonical form, and the byte and word reads in terms of single
bytes (20_memory.md R60–R62). -/

namespace Sys2Proof.Machine

@[simp] theorem Memory.read_nil (a : Nat) : Memory.read [] a = none := rfl

/-- A read after a write: the byte written at the same place, the old byte elsewhere. -/
theorem Memory.read_write (m : Memory) (a : Nat) (v : Byte) (b : Nat) :
    (m.write a v).read b = if b = a then some v else m.read b := by
  induction m with
  | nil => simp only [Memory.write, Memory.read]
  | cons c rest ih =>
    obtain ⟨k, w⟩ := c
    simp only [Memory.write]
    by_cases hlt : a < k
    · simp only [if_pos hlt, Memory.read]
    · by_cases heq : a = k
      · subst heq
        simp only [lt_irrefl, if_false, if_true, Memory.read]
        by_cases h : b = a <;> simp [h]
      · simp only [if_neg hlt, if_neg heq, Memory.read, ih]
        by_cases h : b = k
        · have : b ≠ a := fun e => heq (e.symm.trans h)
          simp [h, Ne.symm heq]
        · simp [h]

@[simp] theorem Memory.read_write_same (m : Memory) (a : Nat) (v : Byte) : (m.write a v).read a = some v := by
  simp [Memory.read_write]

theorem Memory.read_write_other (m : Memory) {a b : Nat} (v : Byte) (h : b ≠ a) :
    (m.write a v).read b = m.read b := by
  simp [Memory.read_write, h]

/-- Every address of a memory after a write is the written one or was there before. -/
theorem Memory.mem_write (m : Memory) (a : Nat) (v : Byte) (c : Host.Cell) (h : c ∈ m.write a v) :
    c.1 = a ∨ c ∈ m := by
  induction m with
  | nil => simp only [Memory.write, List.mem_singleton] at h; exact .inl (by rw [h])
  | cons d rest ih =>
    obtain ⟨k, w⟩ := d
    simp only [Memory.write] at h
    split at h
    · rcases List.mem_cons.mp h with rfl | h
      · exact .inl rfl
      · exact .inr h
    · split at h
      · rcases List.mem_cons.mp h with rfl | h
        · exact .inl rfl
        · exact .inr (List.mem_cons_of_mem _ h)
      · rcases List.mem_cons.mp h with rfl | h
        · exact .inr (List.mem_cons_self ..)
        · rcases ih h with h | h
          · exact .inl h
          · exact .inr (List.mem_cons_of_mem _ h)

/-- A write keeps the canonical form. -/
theorem Memory.wf_write {m : Memory} (h : m.wf) (a : Nat) (v : Byte) : (m.write a v).wf := by
  induction m with
  | nil => simp [Memory.write, Memory.wf]
  | cons d rest ih =>
    obtain ⟨k, w⟩ := d
    obtain ⟨hk, hrest⟩ := List.pairwise_cons.mp h
    simp only [Memory.write]
    split
    · rename_i hlt
      refine List.pairwise_cons.mpr ⟨?_, h⟩
      intro x hx
      rcases List.mem_cons.mp hx with rfl | hx
      · exact hlt
      · exact lt_trans hlt (hk x hx)
    · split
      · rename_i heq
        subst heq
        exact List.pairwise_cons.mpr ⟨hk, hrest⟩
      · rename_i hlt hne
        refine List.pairwise_cons.mpr ⟨?_, ih hrest⟩
        intro x hx
        rcases Memory.mem_write rest a v x hx with e | hx
        · have : k < a := by omega
          simpa [e] using this
        · exact hk x hx

/-- A run of writes keeps the canonical form. -/
theorem Memory.wf_writeBytes {m : Memory} (h : m.wf) (a : Nat) (vs : List Byte) : (m.writeBytes a vs).wf := by
  induction vs generalizing m a with
  | nil => exact h
  | cons v vs ih => exact ih (Memory.wf_write h a v) (a + 1)

theorem Memory.wf_wrBe32 {m : Memory} (h : m.wf) (a : Nat) (v : Word) : (m.wrBe32 a v).wf :=
  Memory.wf_writeBytes h a _

theorem Memory.wf_reset : State.reset.mem.wf := List.Pairwise.nil

/-- Every address of a memory after a run of writes is a written one or was there before. -/
theorem Memory.mem_writeBytes (m : Memory) (a : Nat) (vs : List Byte) (c : Host.Cell)
    (h : c ∈ m.writeBytes a vs) : (a ≤ c.1 ∧ c.1 < a + vs.length) ∨ c ∈ m := by
  induction vs generalizing m a with
  | nil => exact .inr h
  | cons v vs ih =>
    rcases ih _ _ h with ⟨h1, h2⟩ | h
    · simp only [List.length_cons]; left; omega
    · rcases Memory.mem_write m a v c h with e | h
      · simp only [List.length_cons]; left; omega
      · exact .inr h

/-- A read after a run of writes. -/
theorem Memory.read_writeBytes (m : Memory) (a : Nat) (vs : List Byte) (b : Nat) :
    (m.writeBytes a vs).read b =
      if h : a ≤ b ∧ b < a + vs.length then some (vs[b - a]'(by omega)) else m.read b := by
  induction vs generalizing m a with
  | nil => simp only [Memory.writeBytes, List.length_nil, Nat.add_zero]; rw [dif_neg (by omega)]
  | cons v vs ih =>
    simp only [Memory.writeBytes, ih, List.length_cons]
    by_cases hab : b = a
    · subst hab
      rw [dif_neg (by omega), dif_pos (by omega)]
      simp
    · by_cases hin : a + 1 ≤ b ∧ b < a + 1 + vs.length
      · rw [dif_pos hin, dif_pos (by omega)]
        obtain ⟨k, rfl⟩ : ∃ k, b = a + 1 + k := ⟨b - (a + 1), by omega⟩
        have e1 : a + 1 + k - (a + 1) = k := by omega
        have e2 : a + 1 + k - a = k + 1 := by omega
        simp [e1, e2]
      · rw [dif_neg hin, dif_neg (by omega), Memory.read_write_other _ _ hab]

/-- A run of writes leaves every other byte alone. -/
theorem Memory.read_writeBytes_outside (m : Memory) (a : Nat) (vs : List Byte) (b : Nat)
    (h : b < a ∨ a + vs.length ≤ b) : (m.writeBytes a vs).read b = m.read b := by
  rw [Memory.read_writeBytes, dif_neg (by omega)]

/-- A run of writes puts each byte in its place. -/
theorem Memory.read_writeBytes_inside (m : Memory) (a : Nat) (vs : List Byte) (k : Nat) (h : k < vs.length) :
    (m.writeBytes a vs).read (a + k) = some vs[k] := by
  rw [Memory.read_writeBytes, dif_pos (by omega)]
  simp

@[simp] theorem bytesBe_length (v : Word) : (bytesBe v).length = 4 := rfl

/-- Joining the four bytes of a word gives the word. -/
theorem joinBe_bytesBe (v : Word) :
    joinBe (v.extractLsb' 24 8) (v.extractLsb' 16 8) (v.extractLsb' 8 8) (v.extractLsb' 0 8) = v := by
  apply BitVec.eq_of_getLsbD_eq
  intro i hi
  simp only [joinBe, BitVec.getLsbD_append, BitVec.getLsbD_extractLsb']
  by_cases h0 : i < 8
  · simp [h0]
  · by_cases h1 : i < 16
    · have a1 : i - 8 < 8 := by omega
      have a2 : 8 + (i - 8) = i := by omega
      simp [h0, a1, a2]
    · by_cases h2 : i < 24
      · have a1 : ¬ i - 8 < 8 := by omega
        have a2 : i - 8 - 8 < 8 := by omega
        have a3 : 16 + (i - 8 - 8) = i := by omega
        simp [h0, a1, a2, a3]
      · have a1 : ¬ i - 8 < 8 := by omega
        have a2 : ¬ i - 8 - 8 < 8 := by omega
        have a3 : i - 8 - 8 - 8 < 8 := by omega
        have a4 : 24 + (i - 8 - 8 - 8) = i := by omega
        simp [h0, a1, a2, a3, a4]

/-- A word read after a word write at the same place (R62). -/
@[simp] theorem Memory.be32_wrBe32_same (m : Memory) (a : Nat) (v : Word) : (m.wrBe32 a v).be32 a = some v := by
  have h0 := Memory.read_writeBytes_inside m a (bytesBe v) 0 (by simp)
  have h1 := Memory.read_writeBytes_inside m a (bytesBe v) 1 (by simp)
  have h2 := Memory.read_writeBytes_inside m a (bytesBe v) 2 (by simp)
  have h3 := Memory.read_writeBytes_inside m a (bytesBe v) 3 (by simp)
  simp only [Nat.add_zero] at h0
  simp only [Memory.be32, Memory.wrBe32, h0, h1, h2, h3]
  simp only [bytesBe, List.getElem_cons_zero, List.getElem_cons_succ, joinBe_bytesBe]

/-- A word write leaves every other byte alone. -/
theorem Memory.read_wrBe32_outside (m : Memory) (a : Nat) (v : Word) (b : Nat) (h : b < a ∨ a + 4 ≤ b) :
    (m.wrBe32 a v).read b = m.read b := Memory.read_writeBytes_outside m a _ b (by simpa using h)

/-- A word write leaves a disjoint word alone. -/
theorem Memory.be32_wrBe32_other (m : Memory) (a : Nat) (v : Word) (b : Nat) (h : b + 4 ≤ a ∨ a + 4 ≤ b) :
    (m.wrBe32 a v).be32 b = m.be32 b := by
  simp only [Memory.be32]
  rw [Memory.read_wrBe32_outside _ _ _ _ (by omega), Memory.read_wrBe32_outside _ _ _ _ (by omega),
    Memory.read_wrBe32_outside _ _ _ _ (by omega), Memory.read_wrBe32_outside _ _ _ _ (by omega)]

/-- Two memories with the same four bytes hold the same word there. -/
theorem Memory.be32_congr {m m' : Memory} {a : Nat} (h : ∀ k, k < 4 → m.read (a + k) = m'.read (a + k)) :
    m.be32 a = m'.be32 a := by
  have h0 := h 0 (by omega)
  simp only [Nat.add_zero] at h0
  simp only [Memory.be32, h0, h 1 (by omega), h 2 (by omega), h 3 (by omega)]

/-- A word has a value exactly when its four bytes were written. -/
theorem Memory.be32_isSome (m : Memory) (a : Nat) :
    (m.be32 a).isSome = true ↔ ∀ k, k < 4 → (m.read (a + k)).isSome = true := by
  constructor
  · intro h k hk
    simp only [Memory.be32] at h
    split at h
    · rename_i b0 b1 b2 b3 h0 h1 h2 h3
      have : k = 0 ∨ k = 1 ∨ k = 2 ∨ k = 3 := by omega
      rcases this with rfl | rfl | rfl | rfl <;> simp [*]
    · simp at h
  · intro h
    obtain ⟨b0, h0⟩ := Option.isSome_iff_exists.mp (h 0 (by omega))
    obtain ⟨b1, h1⟩ := Option.isSome_iff_exists.mp (h 1 (by omega))
    obtain ⟨b2, h2⟩ := Option.isSome_iff_exists.mp (h 2 (by omega))
    obtain ⟨b3, h3⟩ := Option.isSome_iff_exists.mp (h 3 (by omega))
    simp only [Nat.add_zero] at h0
    simp [Memory.be32, h0, h1, h2, h3]

/-- A run of bytes read as `vs` exactly when BUF holds `vs` there. -/
theorem Memory.readBytes_eq_some (m : Memory) (a n : Nat) (vs : List Byte) :
    m.readBytes a n = some vs ↔ vs.length = n ∧ ∀ k (h : k < vs.length), m.read (a + k) = some vs[k] := by
  induction n generalizing a vs with
  | zero =>
    simp only [Memory.readBytes, Option.some.injEq]
    constructor
    · rintro rfl; simp
    · rintro ⟨h, _⟩; exact (List.eq_nil_of_length_eq_zero h).symm
  | succ n ih =>
    simp only [Memory.readBytes]
    cases hr : m.read a with
    | none =>
      simp only [reduceCtorEq, false_iff, not_and]
      intro hl h
      have := h 0 (by omega)
      simp [hr] at this
    | some v =>
      cases hrs : m.readBytes (a + 1) n with
      | none =>
        simp only [reduceCtorEq, false_iff, not_and]
        intro hl h
        cases vs with
        | nil => simp at hl
        | cons w ws =>
          have hws : m.readBytes (a + 1) n = some ws := (ih (a + 1) ws).mpr ⟨by simpa using hl, by
            intro k hk
            have := h (k + 1) (by simpa using hk)
            have e : a + 1 + k = a + (k + 1) := by omega
            simpa [e] using this⟩
          simp [hrs] at hws
      | some ws =>
        obtain ⟨hl, hws⟩ := (ih (a + 1) ws).mp hrs
        simp only [Option.some.injEq]
        constructor
        · rintro rfl
          refine ⟨by simp [hl], ?_⟩
          intro k hk
          cases k with
          | zero => simpa using hr
          | succ k =>
            have := hws k (by simpa using hk)
            have e : a + 1 + k = a + (k + 1) := by omega
            simpa [e] using this
        · rintro ⟨hl', h⟩
          cases vs with
          | nil => simp at hl'
          | cons w us =>
            have hw := h 0 (by simp)
            simp only [Nat.add_zero, hr, Option.some.injEq, List.getElem_cons_zero] at hw
            have : m.readBytes (a + 1) n = some us := (ih (a + 1) us).mpr ⟨by simpa using hl', by
              intro k hk
              have := h (k + 1) (by simpa using hk)
              have e : a + 1 + k = a + (k + 1) := by omega
              simpa [e] using this⟩
            rw [hrs] at this
            simp only [Option.some.injEq] at this
            rw [hw, this]

/-- A run of bytes has a value exactly when every byte of it was written. -/
theorem Memory.readBytes_isSome (m : Memory) (a n : Nat) :
    (m.readBytes a n).isSome = true ↔ ∀ k, k < n → (m.read (a + k)).isSome = true := by
  induction n generalizing a with
  | zero => simp [Memory.readBytes]
  | succ n ih =>
    constructor
    · intro h k hk
      simp only [Memory.readBytes] at h
      cases hr : m.read a with
      | none => simp [hr] at h
      | some v =>
        cases hrs : m.readBytes (a + 1) n with
        | none => simp [hr, hrs] at h
        | some ws =>
          cases k with
          | zero => simp [hr]
          | succ k =>
            have := (ih (a + 1)).mp (by simp [hrs]) k (by omega)
            have e : a + 1 + k = a + (k + 1) := by omega
            rwa [e] at this
    · intro h
      have h0 := h 0 (by omega)
      simp only [Nat.add_zero] at h0
      obtain ⟨v, hv⟩ := Option.isSome_iff_exists.mp h0
      have : (m.readBytes (a + 1) n).isSome = true := (ih (a + 1)).mpr (by
        intro k hk
        have := h (k + 1) (by omega)
        have e : a + 1 + k = a + (k + 1) := by omega
        rwa [e])
      obtain ⟨ws, hws⟩ := Option.isSome_iff_exists.mp this
      simp [Memory.readBytes, hv, hws]

/-- Two memories with the same bytes in a range read the same there. -/
theorem Memory.readBytes_congr {m m' : Memory} {a n : Nat}
    (h : ∀ k, k < n → m.read (a + k) = m'.read (a + k)) : m.readBytes a n = m'.readBytes a n := by
  induction n generalizing a with
  | zero => rfl
  | succ n ih =>
    have h0 := h 0 (by omega)
    simp only [Nat.add_zero] at h0
    simp only [Memory.readBytes, h0]
    rw [ih (a := a + 1)]
    intro k hk
    have := h (k + 1) (by omega)
    have e : a + 1 + k = a + (k + 1) := by omega
    rwa [e]

end Sys2Proof.Machine
end

