-- ==== Sys2Proof/Laws/State.lean ====
section
/-! SUPPORT. What every named update of the state does to every field: one lemma per field per update, true by rfl. -/

namespace Sys2Proof.Machine

@[simp] theorem State.setRes_build (s : State) (r : Results) : (s.setRes r).build = s.build := rfl
@[simp] theorem State.setRes_status (s : State) (r : Results) : (s.setRes r).status = s.status := rfl
@[simp] theorem State.setRes_cmd (s : State) (r : Results) : (s.setRes r).cmd = s.cmd := rfl
@[simp] theorem State.setRes_errInfo (s : State) (r : Results) : (s.setRes r).errInfo = s.errInfo := rfl
@[simp] theorem State.setRes_bufLen (s : State) (r : Results) : (s.setRes r).bufLen = s.bufLen := rfl
@[simp] theorem State.setRes_args (s : State) (r : Results) : (s.setRes r).args = s.args := rfl
@[simp] theorem State.setRes_res (s : State) (r : Results) : (s.setRes r).res = r := rfl
@[simp] theorem State.setRes_fc (s : State) (r : Results) : (s.setRes r).fc = s.fc := rfl
@[simp] theorem State.setRes_fcMaxRetries (s : State) (r : Results) : (s.setRes r).fcMaxRetries = s.fcMaxRetries := rfl
@[simp] theorem State.setRes_fcTimeoutMs (s : State) (r : Results) : (s.setRes r).fcTimeoutMs = s.fcTimeoutMs := rfl
@[simp] theorem State.setRes_timerLatch (s : State) (r : Results) : (s.setRes r).timerLatch = s.timerLatch := rfl
@[simp] theorem State.setRes_intStatus (s : State) (r : Results) : (s.setRes r).intStatus = s.intStatus := rfl
@[simp] theorem State.setRes_intEnable (s : State) (r : Results) : (s.setRes r).intEnable = s.intEnable := rfl
@[simp] theorem State.setRes_pending (s : State) (r : Results) : (s.setRes r).pending = s.pending := rfl
@[simp] theorem State.setRes_mem (s : State) (r : Results) : (s.setRes r).mem = s.mem := rfl
@[simp] theorem State.setRes_resp (s : State) (r : Results) : (s.setRes r).resp = s.resp := rfl
@[simp] theorem State.setRes_agenda (s : State) (r : Results) : (s.setRes r).agenda = s.agenda := rfl

@[simp] theorem State.setMem_build (s : State) (m : Memory) : (s.setMem m).build = s.build := rfl
@[simp] theorem State.setMem_status (s : State) (m : Memory) : (s.setMem m).status = s.status := rfl
@[simp] theorem State.setMem_cmd (s : State) (m : Memory) : (s.setMem m).cmd = s.cmd := rfl
@[simp] theorem State.setMem_errInfo (s : State) (m : Memory) : (s.setMem m).errInfo = s.errInfo := rfl
@[simp] theorem State.setMem_bufLen (s : State) (m : Memory) : (s.setMem m).bufLen = s.bufLen := rfl
@[simp] theorem State.setMem_args (s : State) (m : Memory) : (s.setMem m).args = s.args := rfl
@[simp] theorem State.setMem_res (s : State) (m : Memory) : (s.setMem m).res = s.res := rfl
@[simp] theorem State.setMem_fc (s : State) (m : Memory) : (s.setMem m).fc = s.fc := rfl
@[simp] theorem State.setMem_fcMaxRetries (s : State) (m : Memory) : (s.setMem m).fcMaxRetries = s.fcMaxRetries := rfl
@[simp] theorem State.setMem_fcTimeoutMs (s : State) (m : Memory) : (s.setMem m).fcTimeoutMs = s.fcTimeoutMs := rfl
@[simp] theorem State.setMem_timerLatch (s : State) (m : Memory) : (s.setMem m).timerLatch = s.timerLatch := rfl
@[simp] theorem State.setMem_intStatus (s : State) (m : Memory) : (s.setMem m).intStatus = s.intStatus := rfl
@[simp] theorem State.setMem_intEnable (s : State) (m : Memory) : (s.setMem m).intEnable = s.intEnable := rfl
@[simp] theorem State.setMem_pending (s : State) (m : Memory) : (s.setMem m).pending = s.pending := rfl
@[simp] theorem State.setMem_mem (s : State) (m : Memory) : (s.setMem m).mem = m := rfl
@[simp] theorem State.setMem_resp (s : State) (m : Memory) : (s.setMem m).resp = s.resp := rfl
@[simp] theorem State.setMem_agenda (s : State) (m : Memory) : (s.setMem m).agenda = s.agenda := rfl

@[simp] theorem State.setFc_build (s : State) (f : FcUnit) : (s.setFc f).build = s.build := rfl
@[simp] theorem State.setFc_status (s : State) (f : FcUnit) : (s.setFc f).status = s.status := rfl
@[simp] theorem State.setFc_cmd (s : State) (f : FcUnit) : (s.setFc f).cmd = s.cmd := rfl
@[simp] theorem State.setFc_errInfo (s : State) (f : FcUnit) : (s.setFc f).errInfo = s.errInfo := rfl
@[simp] theorem State.setFc_bufLen (s : State) (f : FcUnit) : (s.setFc f).bufLen = s.bufLen := rfl
@[simp] theorem State.setFc_args (s : State) (f : FcUnit) : (s.setFc f).args = s.args := rfl
@[simp] theorem State.setFc_res (s : State) (f : FcUnit) : (s.setFc f).res = s.res := rfl
@[simp] theorem State.setFc_fc (s : State) (f : FcUnit) : (s.setFc f).fc = f := rfl
@[simp] theorem State.setFc_fcMaxRetries (s : State) (f : FcUnit) : (s.setFc f).fcMaxRetries = s.fcMaxRetries := rfl
@[simp] theorem State.setFc_fcTimeoutMs (s : State) (f : FcUnit) : (s.setFc f).fcTimeoutMs = s.fcTimeoutMs := rfl
@[simp] theorem State.setFc_timerLatch (s : State) (f : FcUnit) : (s.setFc f).timerLatch = s.timerLatch := rfl
@[simp] theorem State.setFc_intStatus (s : State) (f : FcUnit) : (s.setFc f).intStatus = s.intStatus := rfl
@[simp] theorem State.setFc_intEnable (s : State) (f : FcUnit) : (s.setFc f).intEnable = s.intEnable := rfl
@[simp] theorem State.setFc_pending (s : State) (f : FcUnit) : (s.setFc f).pending = s.pending := rfl
@[simp] theorem State.setFc_mem (s : State) (f : FcUnit) : (s.setFc f).mem = s.mem := rfl
@[simp] theorem State.setFc_resp (s : State) (f : FcUnit) : (s.setFc f).resp = s.resp := rfl
@[simp] theorem State.setFc_agenda (s : State) (f : FcUnit) : (s.setFc f).agenda = s.agenda := rfl

@[simp] theorem State.setTimerLatch_build (s : State) (w : Word) : (s.setTimerLatch w).build = s.build := rfl
@[simp] theorem State.setTimerLatch_status (s : State) (w : Word) : (s.setTimerLatch w).status = s.status := rfl
@[simp] theorem State.setTimerLatch_cmd (s : State) (w : Word) : (s.setTimerLatch w).cmd = s.cmd := rfl
@[simp] theorem State.setTimerLatch_errInfo (s : State) (w : Word) : (s.setTimerLatch w).errInfo = s.errInfo := rfl
@[simp] theorem State.setTimerLatch_bufLen (s : State) (w : Word) : (s.setTimerLatch w).bufLen = s.bufLen := rfl
@[simp] theorem State.setTimerLatch_args (s : State) (w : Word) : (s.setTimerLatch w).args = s.args := rfl
@[simp] theorem State.setTimerLatch_res (s : State) (w : Word) : (s.setTimerLatch w).res = s.res := rfl
@[simp] theorem State.setTimerLatch_fc (s : State) (w : Word) : (s.setTimerLatch w).fc = s.fc := rfl
@[simp] theorem State.setTimerLatch_fcMaxRetries (s : State) (w : Word) : (s.setTimerLatch w).fcMaxRetries = s.fcMaxRetries := rfl
@[simp] theorem State.setTimerLatch_fcTimeoutMs (s : State) (w : Word) : (s.setTimerLatch w).fcTimeoutMs = s.fcTimeoutMs := rfl
@[simp] theorem State.setTimerLatch_timerLatch (s : State) (w : Word) : (s.setTimerLatch w).timerLatch = w := rfl
@[simp] theorem State.setTimerLatch_intStatus (s : State) (w : Word) : (s.setTimerLatch w).intStatus = s.intStatus := rfl
@[simp] theorem State.setTimerLatch_intEnable (s : State) (w : Word) : (s.setTimerLatch w).intEnable = s.intEnable := rfl
@[simp] theorem State.setTimerLatch_pending (s : State) (w : Word) : (s.setTimerLatch w).pending = s.pending := rfl
@[simp] theorem State.setTimerLatch_mem (s : State) (w : Word) : (s.setTimerLatch w).mem = s.mem := rfl
@[simp] theorem State.setTimerLatch_resp (s : State) (w : Word) : (s.setTimerLatch w).resp = s.resp := rfl
@[simp] theorem State.setTimerLatch_agenda (s : State) (w : Word) : (s.setTimerLatch w).agenda = s.agenda := rfl

@[simp] theorem State.setResp_build (s : State) (r : BusResponse) : (s.setResp r).build = s.build := rfl
@[simp] theorem State.setResp_status (s : State) (r : BusResponse) : (s.setResp r).status = s.status := rfl
@[simp] theorem State.setResp_cmd (s : State) (r : BusResponse) : (s.setResp r).cmd = s.cmd := rfl
@[simp] theorem State.setResp_errInfo (s : State) (r : BusResponse) : (s.setResp r).errInfo = s.errInfo := rfl
@[simp] theorem State.setResp_bufLen (s : State) (r : BusResponse) : (s.setResp r).bufLen = s.bufLen := rfl
@[simp] theorem State.setResp_args (s : State) (r : BusResponse) : (s.setResp r).args = s.args := rfl
@[simp] theorem State.setResp_res (s : State) (r : BusResponse) : (s.setResp r).res = s.res := rfl
@[simp] theorem State.setResp_fc (s : State) (r : BusResponse) : (s.setResp r).fc = s.fc := rfl
@[simp] theorem State.setResp_fcMaxRetries (s : State) (r : BusResponse) : (s.setResp r).fcMaxRetries = s.fcMaxRetries := rfl
@[simp] theorem State.setResp_fcTimeoutMs (s : State) (r : BusResponse) : (s.setResp r).fcTimeoutMs = s.fcTimeoutMs := rfl
@[simp] theorem State.setResp_timerLatch (s : State) (r : BusResponse) : (s.setResp r).timerLatch = s.timerLatch := rfl
@[simp] theorem State.setResp_intStatus (s : State) (r : BusResponse) : (s.setResp r).intStatus = s.intStatus := rfl
@[simp] theorem State.setResp_intEnable (s : State) (r : BusResponse) : (s.setResp r).intEnable = s.intEnable := rfl
@[simp] theorem State.setResp_pending (s : State) (r : BusResponse) : (s.setResp r).pending = s.pending := rfl
@[simp] theorem State.setResp_mem (s : State) (r : BusResponse) : (s.setResp r).mem = s.mem := rfl
@[simp] theorem State.setResp_resp (s : State) (r : BusResponse) : (s.setResp r).resp = some r := rfl
@[simp] theorem State.setResp_agenda (s : State) (r : BusResponse) : (s.setResp r).agenda = s.agenda := rfl

@[simp] theorem State.setAgenda_build (s : State) (l : List Event) : (s.setAgenda l).build = s.build := rfl
@[simp] theorem State.setAgenda_status (s : State) (l : List Event) : (s.setAgenda l).status = s.status := rfl
@[simp] theorem State.setAgenda_cmd (s : State) (l : List Event) : (s.setAgenda l).cmd = s.cmd := rfl
@[simp] theorem State.setAgenda_errInfo (s : State) (l : List Event) : (s.setAgenda l).errInfo = s.errInfo := rfl
@[simp] theorem State.setAgenda_bufLen (s : State) (l : List Event) : (s.setAgenda l).bufLen = s.bufLen := rfl
@[simp] theorem State.setAgenda_args (s : State) (l : List Event) : (s.setAgenda l).args = s.args := rfl
@[simp] theorem State.setAgenda_res (s : State) (l : List Event) : (s.setAgenda l).res = s.res := rfl
@[simp] theorem State.setAgenda_fc (s : State) (l : List Event) : (s.setAgenda l).fc = s.fc := rfl
@[simp] theorem State.setAgenda_fcMaxRetries (s : State) (l : List Event) : (s.setAgenda l).fcMaxRetries = s.fcMaxRetries := rfl
@[simp] theorem State.setAgenda_fcTimeoutMs (s : State) (l : List Event) : (s.setAgenda l).fcTimeoutMs = s.fcTimeoutMs := rfl
@[simp] theorem State.setAgenda_timerLatch (s : State) (l : List Event) : (s.setAgenda l).timerLatch = s.timerLatch := rfl
@[simp] theorem State.setAgenda_intStatus (s : State) (l : List Event) : (s.setAgenda l).intStatus = s.intStatus := rfl
@[simp] theorem State.setAgenda_intEnable (s : State) (l : List Event) : (s.setAgenda l).intEnable = s.intEnable := rfl
@[simp] theorem State.setAgenda_pending (s : State) (l : List Event) : (s.setAgenda l).pending = s.pending := rfl
@[simp] theorem State.setAgenda_mem (s : State) (l : List Event) : (s.setAgenda l).mem = s.mem := rfl
@[simp] theorem State.setAgenda_resp (s : State) (l : List Event) : (s.setAgenda l).resp = s.resp := rfl
@[simp] theorem State.setAgenda_agenda (s : State) (l : List Event) : (s.setAgenda l).agenda = l := rfl

@[simp] theorem State.accept_build (s : State) (w : Word) : (s.accept w).build = s.build := rfl
@[simp] theorem State.accept_status (s : State) (w : Word) : (s.accept w).status = s.status := rfl
@[simp] theorem State.accept_cmd (s : State) (w : Word) : (s.accept w).cmd = w := rfl
@[simp] theorem State.accept_errInfo (s : State) (w : Word) : (s.accept w).errInfo = s.errInfo := rfl
@[simp] theorem State.accept_bufLen (s : State) (w : Word) : (s.accept w).bufLen = s.bufLen := rfl
@[simp] theorem State.accept_args (s : State) (w : Word) : (s.accept w).args = s.args := rfl
@[simp] theorem State.accept_res (s : State) (w : Word) : (s.accept w).res = s.res := rfl
@[simp] theorem State.accept_fc (s : State) (w : Word) : (s.accept w).fc = s.fc := rfl
@[simp] theorem State.accept_fcMaxRetries (s : State) (w : Word) : (s.accept w).fcMaxRetries = s.fcMaxRetries := rfl
@[simp] theorem State.accept_fcTimeoutMs (s : State) (w : Word) : (s.accept w).fcTimeoutMs = s.fcTimeoutMs := rfl
@[simp] theorem State.accept_timerLatch (s : State) (w : Word) : (s.accept w).timerLatch = s.timerLatch := rfl
@[simp] theorem State.accept_intStatus (s : State) (w : Word) : (s.accept w).intStatus = s.intStatus := rfl
@[simp] theorem State.accept_intEnable (s : State) (w : Word) : (s.accept w).intEnable = s.intEnable := rfl
@[simp] theorem State.accept_pending (s : State) (w : Word) : (s.accept w).pending = some (s.latch w) := rfl
@[simp] theorem State.accept_mem (s : State) (w : Word) : (s.accept w).mem = s.mem := rfl
@[simp] theorem State.accept_resp (s : State) (w : Word) : (s.accept w).resp = s.resp := rfl
@[simp] theorem State.accept_agenda (s : State) (w : Word) : (s.accept w).agenda = s.agenda := rfl

@[simp] theorem State.overrun_build (s : State) : (s.overrun).build = s.build := rfl
@[simp] theorem State.overrun_status (s : State) : (s.overrun).status = { s.status with ovr := true } := rfl
@[simp] theorem State.overrun_cmd (s : State) : (s.overrun).cmd = s.cmd := rfl
@[simp] theorem State.overrun_errInfo (s : State) : (s.overrun).errInfo = s.errInfo := rfl
@[simp] theorem State.overrun_bufLen (s : State) : (s.overrun).bufLen = s.bufLen := rfl
@[simp] theorem State.overrun_args (s : State) : (s.overrun).args = s.args := rfl
@[simp] theorem State.overrun_res (s : State) : (s.overrun).res = s.res := rfl
@[simp] theorem State.overrun_fc (s : State) : (s.overrun).fc = s.fc := rfl
@[simp] theorem State.overrun_fcMaxRetries (s : State) : (s.overrun).fcMaxRetries = s.fcMaxRetries := rfl
@[simp] theorem State.overrun_fcTimeoutMs (s : State) : (s.overrun).fcTimeoutMs = s.fcTimeoutMs := rfl
@[simp] theorem State.overrun_timerLatch (s : State) : (s.overrun).timerLatch = s.timerLatch := rfl
@[simp] theorem State.overrun_intStatus (s : State) : (s.overrun).intStatus = s.intStatus := rfl
@[simp] theorem State.overrun_intEnable (s : State) : (s.overrun).intEnable = s.intEnable := rfl
@[simp] theorem State.overrun_pending (s : State) : (s.overrun).pending = s.pending := rfl
@[simp] theorem State.overrun_mem (s : State) : (s.overrun).mem = s.mem := rfl
@[simp] theorem State.overrun_resp (s : State) : (s.overrun).resp = s.resp := rfl
@[simp] theorem State.overrun_agenda (s : State) : (s.overrun).agenda = s.agenda := rfl

@[simp] theorem State.writeStatus_build (s : State) (v : Word) : (s.writeStatus v).build = s.build := rfl
@[simp] theorem State.writeStatus_status (s : State) (v : Word) : (s.writeStatus v).status = { s.status with ovr := s.status.ovr && !v.getLsbD 2 } := rfl
@[simp] theorem State.writeStatus_cmd (s : State) (v : Word) : (s.writeStatus v).cmd = s.cmd := rfl
@[simp] theorem State.writeStatus_errInfo (s : State) (v : Word) : (s.writeStatus v).errInfo = s.errInfo := rfl
@[simp] theorem State.writeStatus_bufLen (s : State) (v : Word) : (s.writeStatus v).bufLen = s.bufLen := rfl
@[simp] theorem State.writeStatus_args (s : State) (v : Word) : (s.writeStatus v).args = s.args := rfl
@[simp] theorem State.writeStatus_res (s : State) (v : Word) : (s.writeStatus v).res = s.res := rfl
@[simp] theorem State.writeStatus_fc (s : State) (v : Word) : (s.writeStatus v).fc = s.fc := rfl
@[simp] theorem State.writeStatus_fcMaxRetries (s : State) (v : Word) : (s.writeStatus v).fcMaxRetries = s.fcMaxRetries := rfl
@[simp] theorem State.writeStatus_fcTimeoutMs (s : State) (v : Word) : (s.writeStatus v).fcTimeoutMs = s.fcTimeoutMs := rfl
@[simp] theorem State.writeStatus_timerLatch (s : State) (v : Word) : (s.writeStatus v).timerLatch = s.timerLatch := rfl
@[simp] theorem State.writeStatus_intStatus (s : State) (v : Word) : (s.writeStatus v).intStatus = s.intStatus := rfl
@[simp] theorem State.writeStatus_intEnable (s : State) (v : Word) : (s.writeStatus v).intEnable = s.intEnable := rfl
@[simp] theorem State.writeStatus_pending (s : State) (v : Word) : (s.writeStatus v).pending = s.pending := rfl
@[simp] theorem State.writeStatus_mem (s : State) (v : Word) : (s.writeStatus v).mem = s.mem := rfl
@[simp] theorem State.writeStatus_resp (s : State) (v : Word) : (s.writeStatus v).resp = s.resp := rfl
@[simp] theorem State.writeStatus_agenda (s : State) (v : Word) : (s.writeStatus v).agenda = s.agenda := rfl

@[simp] theorem State.clearInterrupts_build (s : State) (v : Word) : (s.clearInterrupts v).build = s.build := rfl
@[simp] theorem State.clearInterrupts_status (s : State) (v : Word) : (s.clearInterrupts v).status = s.status := rfl
@[simp] theorem State.clearInterrupts_cmd (s : State) (v : Word) : (s.clearInterrupts v).cmd = s.cmd := rfl
@[simp] theorem State.clearInterrupts_errInfo (s : State) (v : Word) : (s.clearInterrupts v).errInfo = s.errInfo := rfl
@[simp] theorem State.clearInterrupts_bufLen (s : State) (v : Word) : (s.clearInterrupts v).bufLen = s.bufLen := rfl
@[simp] theorem State.clearInterrupts_args (s : State) (v : Word) : (s.clearInterrupts v).args = s.args := rfl
@[simp] theorem State.clearInterrupts_res (s : State) (v : Word) : (s.clearInterrupts v).res = s.res := rfl
@[simp] theorem State.clearInterrupts_fc (s : State) (v : Word) : (s.clearInterrupts v).fc = s.fc := rfl
@[simp] theorem State.clearInterrupts_fcMaxRetries (s : State) (v : Word) : (s.clearInterrupts v).fcMaxRetries = s.fcMaxRetries := rfl
@[simp] theorem State.clearInterrupts_fcTimeoutMs (s : State) (v : Word) : (s.clearInterrupts v).fcTimeoutMs = s.fcTimeoutMs := rfl
@[simp] theorem State.clearInterrupts_timerLatch (s : State) (v : Word) : (s.clearInterrupts v).timerLatch = s.timerLatch := rfl
@[simp] theorem State.clearInterrupts_intStatus (s : State) (v : Word) : (s.clearInterrupts v).intStatus = s.intStatus &&& ~~~(v.extractLsb' 0 3) := rfl
@[simp] theorem State.clearInterrupts_intEnable (s : State) (v : Word) : (s.clearInterrupts v).intEnable = s.intEnable := rfl
@[simp] theorem State.clearInterrupts_pending (s : State) (v : Word) : (s.clearInterrupts v).pending = s.pending := rfl
@[simp] theorem State.clearInterrupts_mem (s : State) (v : Word) : (s.clearInterrupts v).mem = s.mem := rfl
@[simp] theorem State.clearInterrupts_resp (s : State) (v : Word) : (s.clearInterrupts v).resp = s.resp := rfl
@[simp] theorem State.clearInterrupts_agenda (s : State) (v : Word) : (s.clearInterrupts v).agenda = s.agenda := rfl

@[simp] theorem State.enableInterrupts_build (s : State) (v : Word) : (s.enableInterrupts v).build = s.build := rfl
@[simp] theorem State.enableInterrupts_status (s : State) (v : Word) : (s.enableInterrupts v).status = s.status := rfl
@[simp] theorem State.enableInterrupts_cmd (s : State) (v : Word) : (s.enableInterrupts v).cmd = s.cmd := rfl
@[simp] theorem State.enableInterrupts_errInfo (s : State) (v : Word) : (s.enableInterrupts v).errInfo = s.errInfo := rfl
@[simp] theorem State.enableInterrupts_bufLen (s : State) (v : Word) : (s.enableInterrupts v).bufLen = s.bufLen := rfl
@[simp] theorem State.enableInterrupts_args (s : State) (v : Word) : (s.enableInterrupts v).args = s.args := rfl
@[simp] theorem State.enableInterrupts_res (s : State) (v : Word) : (s.enableInterrupts v).res = s.res := rfl
@[simp] theorem State.enableInterrupts_fc (s : State) (v : Word) : (s.enableInterrupts v).fc = s.fc := rfl
@[simp] theorem State.enableInterrupts_fcMaxRetries (s : State) (v : Word) : (s.enableInterrupts v).fcMaxRetries = s.fcMaxRetries := rfl
@[simp] theorem State.enableInterrupts_fcTimeoutMs (s : State) (v : Word) : (s.enableInterrupts v).fcTimeoutMs = s.fcTimeoutMs := rfl
@[simp] theorem State.enableInterrupts_timerLatch (s : State) (v : Word) : (s.enableInterrupts v).timerLatch = s.timerLatch := rfl
@[simp] theorem State.enableInterrupts_intStatus (s : State) (v : Word) : (s.enableInterrupts v).intStatus = s.intStatus := rfl
@[simp] theorem State.enableInterrupts_intEnable (s : State) (v : Word) : (s.enableInterrupts v).intEnable = v.extractLsb' 0 3 := rfl
@[simp] theorem State.enableInterrupts_pending (s : State) (v : Word) : (s.enableInterrupts v).pending = s.pending := rfl
@[simp] theorem State.enableInterrupts_mem (s : State) (v : Word) : (s.enableInterrupts v).mem = s.mem := rfl
@[simp] theorem State.enableInterrupts_resp (s : State) (v : Word) : (s.enableInterrupts v).resp = s.resp := rfl
@[simp] theorem State.enableInterrupts_agenda (s : State) (v : Word) : (s.enableInterrupts v).agenda = s.agenda := rfl

@[simp] theorem State.expire_build (s : State) : (s.expire).build = s.build := rfl
@[simp] theorem State.expire_status (s : State) : (s.expire).status = s.status := rfl
@[simp] theorem State.expire_cmd (s : State) : (s.expire).cmd = s.cmd := rfl
@[simp] theorem State.expire_errInfo (s : State) : (s.expire).errInfo = s.errInfo := rfl
@[simp] theorem State.expire_bufLen (s : State) : (s.expire).bufLen = s.bufLen := rfl
@[simp] theorem State.expire_args (s : State) : (s.expire).args = s.args := rfl
@[simp] theorem State.expire_res (s : State) : (s.expire).res = s.res := rfl
@[simp] theorem State.expire_fc (s : State) : (s.expire).fc = { s.fc with timerArmed := false, state := .error } := rfl
@[simp] theorem State.expire_fcMaxRetries (s : State) : (s.expire).fcMaxRetries = s.fcMaxRetries := rfl
@[simp] theorem State.expire_fcTimeoutMs (s : State) : (s.expire).fcTimeoutMs = s.fcTimeoutMs := rfl
@[simp] theorem State.expire_timerLatch (s : State) : (s.expire).timerLatch = s.timerLatch := rfl
@[simp] theorem State.expire_intStatus (s : State) : (s.expire).intStatus = s.intStatus ||| intFcTimeout := rfl
@[simp] theorem State.expire_intEnable (s : State) : (s.expire).intEnable = s.intEnable := rfl
@[simp] theorem State.expire_pending (s : State) : (s.expire).pending = s.pending := rfl
@[simp] theorem State.expire_mem (s : State) : (s.expire).mem = s.mem := rfl
@[simp] theorem State.expire_resp (s : State) : (s.expire).resp = s.resp := rfl
@[simp] theorem State.expire_agenda (s : State) : (s.expire).agenda = s.agenda := rfl

@[simp] theorem State.complete_build (s : State) (e : Option CmdError) : (s.complete e).build = s.build := by
  cases e <;> rfl
@[simp] theorem State.complete_cmd (s : State) (e : Option CmdError) : (s.complete e).cmd = s.cmd := by
  cases e <;> rfl
@[simp] theorem State.complete_bufLen (s : State) (e : Option CmdError) : (s.complete e).bufLen = s.bufLen := by
  cases e <;> rfl
@[simp] theorem State.complete_args (s : State) (e : Option CmdError) : (s.complete e).args = s.args := by
  cases e <;> rfl
@[simp] theorem State.complete_res (s : State) (e : Option CmdError) : (s.complete e).res = s.res := by
  cases e <;> rfl
@[simp] theorem State.complete_fc (s : State) (e : Option CmdError) : (s.complete e).fc = s.fc := by
  cases e <;> rfl
@[simp] theorem State.complete_fcMaxRetries (s : State) (e : Option CmdError) : (s.complete e).fcMaxRetries = s.fcMaxRetries := by
  cases e <;> rfl
@[simp] theorem State.complete_fcTimeoutMs (s : State) (e : Option CmdError) : (s.complete e).fcTimeoutMs = s.fcTimeoutMs := by
  cases e <;> rfl
@[simp] theorem State.complete_timerLatch (s : State) (e : Option CmdError) : (s.complete e).timerLatch = s.timerLatch := by
  cases e <;> rfl
@[simp] theorem State.complete_intEnable (s : State) (e : Option CmdError) : (s.complete e).intEnable = s.intEnable := by
  cases e <;> rfl
@[simp] theorem State.complete_mem (s : State) (e : Option CmdError) : (s.complete e).mem = s.mem := by
  cases e <;> rfl
@[simp] theorem State.complete_resp (s : State) (e : Option CmdError) : (s.complete e).resp = s.resp := by
  cases e <;> rfl
@[simp] theorem State.complete_agenda (s : State) (e : Option CmdError) : (s.complete e).agenda = s.agenda := by
  cases e <;> rfl
@[simp] theorem State.complete_pending (s : State) (e : Option CmdError) : (s.complete e).pending = none := by
  cases e <;> rfl

@[simp] theorem State.complete_none_status (s : State) :
    (s.complete none).status = { s.status with err := false, errcode := 0x00 } := rfl
@[simp] theorem State.complete_some_status (s : State) (e : CmdError) :
    (s.complete (some e)).status = { s.status with err := true, errcode := e.code.toByte } := rfl
@[simp] theorem State.complete_none_errInfo (s : State) :
    (s.complete none).errInfo = { entry := 0, operand := 0xFF } := rfl
@[simp] theorem State.complete_some_errInfo (s : State) (e : CmdError) :
    (s.complete (some e)).errInfo = { entry := e.entry, operand := e.culprit.toByte } := rfl
@[simp] theorem State.complete_none_intStatus (s : State) :
    (s.complete none).intStatus = s.intStatus ||| intCmdDone := rfl
@[simp] theorem State.complete_some_intStatus (s : State) (e : CmdError) :
    (s.complete (some e)).intStatus = s.intStatus ||| intCmdDone ||| intCmdErr := rfl

@[simp] theorem State.softReset_build (s : State) : s.softReset.build = s.build := rfl
@[simp] theorem State.softReset_status (s : State) : s.softReset.status = State.reset.status := rfl
@[simp] theorem State.softReset_cmd (s : State) : s.softReset.cmd = State.reset.cmd := rfl
@[simp] theorem State.softReset_errInfo (s : State) : s.softReset.errInfo = State.reset.errInfo := rfl
@[simp] theorem State.softReset_bufLen (s : State) : s.softReset.bufLen = State.reset.bufLen := rfl
@[simp] theorem State.softReset_args (s : State) : s.softReset.args = State.reset.args := rfl
@[simp] theorem State.softReset_res (s : State) : s.softReset.res = State.reset.res := rfl
@[simp] theorem State.softReset_fc (s : State) : s.softReset.fc = State.reset.fc := rfl
@[simp] theorem State.softReset_fcMaxRetries (s : State) : s.softReset.fcMaxRetries = State.reset.fcMaxRetries := rfl
@[simp] theorem State.softReset_fcTimeoutMs (s : State) : s.softReset.fcTimeoutMs = State.reset.fcTimeoutMs := rfl
@[simp] theorem State.softReset_timerLatch (s : State) : s.softReset.timerLatch = State.reset.timerLatch := rfl
@[simp] theorem State.softReset_intStatus (s : State) : s.softReset.intStatus = State.reset.intStatus := rfl
@[simp] theorem State.softReset_intEnable (s : State) : s.softReset.intEnable = State.reset.intEnable := rfl
@[simp] theorem State.softReset_pending (s : State) : s.softReset.pending = State.reset.pending := rfl
@[simp] theorem State.softReset_mem (s : State) : s.softReset.mem = s.mem := rfl
@[simp] theorem State.softReset_resp (s : State) : s.softReset.resp = s.resp := rfl
@[simp] theorem State.softReset_agenda (s : State) : s.softReset.agenda = s.agenda := rfl

@[simp] theorem State.powerOnReset_build (s : State) : s.powerOnReset.build = s.build := rfl
@[simp] theorem State.powerOnReset_status (s : State) : s.powerOnReset.status = State.reset.status := rfl
@[simp] theorem State.powerOnReset_cmd (s : State) : s.powerOnReset.cmd = State.reset.cmd := rfl
@[simp] theorem State.powerOnReset_errInfo (s : State) : s.powerOnReset.errInfo = State.reset.errInfo := rfl
@[simp] theorem State.powerOnReset_bufLen (s : State) : s.powerOnReset.bufLen = State.reset.bufLen := rfl
@[simp] theorem State.powerOnReset_args (s : State) : s.powerOnReset.args = State.reset.args := rfl
@[simp] theorem State.powerOnReset_res (s : State) : s.powerOnReset.res = State.reset.res := rfl
@[simp] theorem State.powerOnReset_fc (s : State) : s.powerOnReset.fc = State.reset.fc := rfl
@[simp] theorem State.powerOnReset_fcMaxRetries (s : State) : s.powerOnReset.fcMaxRetries = State.reset.fcMaxRetries := rfl
@[simp] theorem State.powerOnReset_fcTimeoutMs (s : State) : s.powerOnReset.fcTimeoutMs = State.reset.fcTimeoutMs := rfl
@[simp] theorem State.powerOnReset_timerLatch (s : State) : s.powerOnReset.timerLatch = State.reset.timerLatch := rfl
@[simp] theorem State.powerOnReset_intStatus (s : State) : s.powerOnReset.intStatus = State.reset.intStatus := rfl
@[simp] theorem State.powerOnReset_intEnable (s : State) : s.powerOnReset.intEnable = State.reset.intEnable := rfl
@[simp] theorem State.powerOnReset_pending (s : State) : s.powerOnReset.pending = State.reset.pending := rfl
@[simp] theorem State.powerOnReset_mem (s : State) : s.powerOnReset.mem = State.reset.mem := rfl
@[simp] theorem State.powerOnReset_resp (s : State) : s.powerOnReset.resp = State.reset.resp := rfl
@[simp] theorem State.powerOnReset_agenda (s : State) : s.powerOnReset.agenda = s.agenda := rfl

@[simp] theorem State.place_build (s : State) (w : Word) : (s.place w).build = s.build := rfl
@[simp] theorem State.place_status (s : State) (w : Word) : (s.place w).status = s.status := rfl
@[simp] theorem State.place_cmd (s : State) (w : Word) : (s.place w).cmd = w := rfl
@[simp] theorem State.place_errInfo (s : State) (w : Word) : (s.place w).errInfo = s.errInfo := rfl
@[simp] theorem State.place_bufLen (s : State) (w : Word) : (s.place w).bufLen = s.bufLen := rfl
@[simp] theorem State.place_args (s : State) (w : Word) : (s.place w).args = s.args := rfl
@[simp] theorem State.place_res (s : State) (w : Word) : (s.place w).res = s.res := rfl
@[simp] theorem State.place_fc (s : State) (w : Word) : (s.place w).fc = s.fc := rfl
@[simp] theorem State.place_fcMaxRetries (s : State) (w : Word) : (s.place w).fcMaxRetries = s.fcMaxRetries := rfl
@[simp] theorem State.place_fcTimeoutMs (s : State) (w : Word) : (s.place w).fcTimeoutMs = s.fcTimeoutMs := rfl
@[simp] theorem State.place_timerLatch (s : State) (w : Word) : (s.place w).timerLatch = s.timerLatch := rfl
@[simp] theorem State.place_intStatus (s : State) (w : Word) : (s.place w).intStatus = s.intStatus := rfl
@[simp] theorem State.place_intEnable (s : State) (w : Word) : (s.place w).intEnable = s.intEnable := rfl
@[simp] theorem State.place_pending (s : State) (w : Word) : (s.place w).pending = some (s.latch w) := rfl
@[simp] theorem State.place_mem (s : State) (w : Word) : (s.place w).mem = s.mem := rfl
@[simp] theorem State.place_resp (s : State) (w : Word) : (s.place w).resp = s.resp := rfl
@[simp] theorem State.place_agenda (s : State) (w : Word) : (s.place w).agenda = .engine :: s.agenda := rfl

@[simp] theorem State.latch_word (s : State) (w : Word) : (s.latch w).word = w := rfl
@[simp] theorem State.latch_args (s : State) (w : Word) : (s.latch w).args = s.args := rfl
@[simp] theorem State.latch_bufLen (s : State) (w : Word) : (s.latch w).bufLen = s.bufLen := rfl
@[simp] theorem State.latch_maxRetries (s : State) (w : Word) : (s.latch w).maxRetries = s.fcMaxRetries := rfl
@[simp] theorem State.latch_timeoutMs (s : State) (w : Word) : (s.latch w).timeoutMs = s.fcTimeoutMs := rfl

end Sys2Proof.Machine
end

