-- ==== Sys2Proof/Laws/Commands.lean ====
section
/-! SUPPORT. What the shared operations of the commands can answer, said once (60_exceptions.md R252, R258). -/

namespace Sys2Proof.Machine

@[simp] theorem ofRead_some {α : Type} (v : α) : ofRead (some v) = .ok v := rfl

@[simp] theorem ofRead_none {α : Type} : ofRead (none : Option α) = .error (.fault .uninitRead) := rfl

theorem ofRead_eq_ok {α : Type} {o : Option α} {v : α} : ofRead o = .ok v ↔ o = some v := by
  cases o <;> simp [ofRead]

@[simp] theorem raiseIfAt_false (code : ErrCode) (culprit : Culprit) (entry : BitVec 24) :
    raiseIfAt false code culprit entry = .ok () := rfl

@[simp] theorem raiseIfAt_true (code : ErrCode) (culprit : Culprit) (entry : BitVec 24) :
    raiseIfAt true code culprit entry = .error (.raise { code := code, culprit := culprit, entry := entry }) := rfl

@[simp] theorem raiseIf_false (code : ErrCode) (culprit : Culprit) : raiseIf false code culprit = .ok () := rfl

@[simp] theorem raiseIf_true (code : ErrCode) (culprit : Culprit) :
    raiseIf true code culprit = .error (.raise { code := code, culprit := culprit, entry := 0 }) := rfl

theorem raiseIfAt_eq_ok {bad : Bool} {code : ErrCode} {culprit : Culprit} {entry : BitVec 24} {u : Unit} :
    raiseIfAt bad code culprit entry = .ok u ↔ bad = false := by cases bad <;> simp

theorem raiseIf_eq_ok {bad : Bool} {code : ErrCode} {culprit : Culprit} {u : Unit} :
    raiseIf bad code culprit = .ok u ↔ bad = false := by cases bad <;> simp

/-- Sequencing: a value goes on, an early end stays. -/
@[simp] theorem Cmd.ok_bind {α β : Type} (v : α) (f : α → Cmd β) : ((.ok v : Cmd α) >>= f) = f v := rfl

@[simp] theorem Cmd.error_bind {α β : Type} (e : Stop) (f : α → Cmd β) : ((.error e : Cmd α) >>= f) = .error e := rfl

@[simp] theorem Cmd.pure_eq {α : Type} (v : α) : (pure v : Cmd α) = .ok v := rfl

/-- A sequence that ends in a value came through its first part. -/
theorem Cmd.bind_eq_ok {α β : Type} {c : Cmd α} {f : α → Cmd β} {b : β} (h : (c >>= f) = .ok b) :
    ∃ a, c = .ok a ∧ f a = .ok b := by
  cases c with
  | error e => simp at h
  | ok a => exact ⟨a, rfl, h⟩

/-- Everything `runCommand` can do when it answers a next state: the pseudocode's state completed, or an error with
the state as it was (R252). -/
theorem State.runCommand_next {s t : State} {body : Pending → State → Cmd State}
    (h : s.runCommand body = .next t) :
    ∃ p, s.pending = some p ∧
      ((∃ u, body p s = .ok u ∧ t = u.complete none) ∨
       (∃ e, body p s = .error (.raise e) ∧ t = s.complete (some e))) := by
  unfold State.runCommand at h
  cases hp : s.pending with
  | none => simp [hp] at h
  | some p =>
    refine ⟨p, rfl, ?_⟩
    simp only [hp] at h
    cases hb : body p s with
    | ok u => simp only [hb, Host.Outcome.next.injEq] at h; exact .inl ⟨u, rfl, h.symm⟩
    | error e =>
      cases e with
      | raise e => simp only [hb, Host.Outcome.next.injEq] at h; exact .inr ⟨e, rfl, h.symm⟩
      | fault f => simp [hb] at h

theorem State.runCommand_ok {s u : State} {p : Pending} {body : Pending → State → Cmd State}
    (hp : s.pending = some p) (hb : body p s = .ok u) : s.runCommand body = .next (u.complete none) := by
  simp [State.runCommand, hp, hb]

theorem State.runCommand_raise {s : State} {p : Pending} {e : CmdError} {body : Pending → State → Cmd State}
    (hp : s.pending = some p) (hb : body p s = .error (.raise e)) :
    s.runCommand body = .next (s.complete (some e)) := by
  simp [State.runCommand, hp, hb]

theorem State.runCommand_fault {s : State} {p : Pending} {f : Fault} {body : Pending → State → Cmd State}
    (hp : s.pending = some p) (hb : body p s = .error (.fault f)) : s.runCommand body = .fault f := by
  simp [State.runCommand, hp, hb]

theorem State.runCommand_not_refused (s : State) (body : Pending → State → Cmd State) (r : Refusal) :
    s.runCommand body ≠ .refused r := by
  unfold State.runCommand
  cases s.pending with
  | none => simp
  | some p => cases h : body p s with
    | ok u => simp [h]
    | error e => cases e <;> simp [h]

/-- One word of R140. -/
theorem wsumFrom_succ (m : Memory) (skip : Option Nat) (n a : Nat) (acc : Word) :
    wsumFrom m skip (n + 1) a acc =
      if skip = some a then wsumFrom m skip n (a + 4) acc
      else (m.be32 a).bind fun w => wsumFrom m skip n (a + 4) (acc + w) := by
  simp only [wsumFrom]
  split
  · rfl
  · cases m.be32 a <;> rfl

/-- The start value of the sum of R140 only adds to it. -/
theorem wsumFrom_acc (m : Memory) (skip : Option Nat) (n a : Nat) (acc : Word) :
    wsumFrom m skip n a acc = (wsumFrom m skip n a 0).map fun w => acc + w := by
  induction n generalizing a acc with
  | zero => simp [wsumFrom]
  | succ n ih =>
    rw [wsumFrom_succ, wsumFrom_succ]
    split
    · exact ih _ _
    · cases m.be32 a with
      | none => rfl
      | some w =>
        simp only [Option.bind_some]
        rw [ih, ih (a + 4) (0 + w)]
        cases wsumFrom m skip n (a + 4) 0 with
        | none => rfl
        | some u => simp [BitVec.add_assoc]

end Sys2Proof.Machine
end

