-- ==== Sys2Proof/Laws/Bodies.lean ====
section
/-! SUPPORT. When each command's pseudocode ends in a value, and in which: one lemma per shared check and per command,
so that no later proof unfolds them (40_crc16.md to 45_system.md). -/

namespace Sys2Proof.Machine

/-! ### Which pseudocode a command runs, and which registers an update leaves -/

/-- The pseudocode of each command. -/
def bodyOf : Instr → Pending → State → Cmd State
  | .nop => nopBody
  | .crc16Compute => crc16ComputeBody
  | .crc16Check => crc16CheckBody
  | .m32aCompute => m32aComputeBody
  | .m32aUpdate => m32aUpdateBody
  | .m32aValidate => m32aValidateBody
  | .m32bRegion => m32bRegionBody
  | .m32bTableUpdate => m32bTableUpdateBody
  | .m32bTableValidate => m32bTableValidateBody
  | .frameEncode => frameEncodeBody
  | .frameDecode => frameDecodeBody
  | .frameParse => frameParseBody
  | .fcExpectCts => fcExpectCtsBody
  | .fcReceivedCts => fcReceivedCtsBody
  | .fcHandleTimeout => fcHandleTimeoutBody
  | .fcRetry => fcRetryBody
  | .fcReset => fcResetBody
  | .fcToIdle => fcToIdleBody
  | .fcInit => fcInitBody
  | .bitsExtract => bitsExtractBody

/-- Every command is its pseudocode inside the completion step. -/
theorem exec_eq (i : Instr) (s : State) : exec i s = s.runCommand (bodyOf i) := by cases i <;> rfl

theorem readReg_setRes (s : State) (x : Results) (r : RegName) (h : r ∉ [RegName.res0, .res1, .res2]) :
    readReg r (s.setRes x) = readReg r s := by
  cases r <;> first | rfl | exact absurd (by decide) h

theorem readReg_setFc (s : State) (x : FcUnit) (r : RegName) (h : r ∉ [RegName.fcStatus, .fcRetryCount]) :
    readReg r (s.setFc x) = readReg r s := by
  cases r <;> first | rfl | exact absurd (by decide) h

@[simp] theorem readReg_setMem (s : State) (m : Memory) (r : RegName) : readReg r (s.setMem m) = readReg r s := by
  cases r <;> rfl

@[simp] theorem readReg_setTimerLatch (s : State) (w : Word) (r : RegName) :
    readReg r (s.setTimerLatch w) = readReg r s := by
  cases r <;> rfl

@[simp] theorem readReg_setResp (s : State) (x : BusResponse) (r : RegName) :
    readReg r (s.setResp x) = readReg r s := by
  cases r <;> rfl

@[simp] theorem readReg_setAgenda (s : State) (l : List Event) (r : RegName) :
    readReg r (s.setAgenda l) = readReg r s := by
  cases r <;> rfl

/-- The bookkeeping writes its three registers only (R258). -/
theorem readReg_complete (s : State) (e : Option CmdError) (r : RegName)
    (h : r ∉ [RegName.status, .errInfo, .intStatus]) : readReg r (s.complete e) = readReg r s := by
  cases r <;> first | exact absurd (by decide) h | (cases e <;> rfl)

@[simp] theorem readReg_res0 (s : State) : readReg .res0 s = s.res.r0 := rfl

@[simp] theorem readReg_res1 (s : State) : readReg .res1 s = s.res.r1 := rfl

@[simp] theorem readReg_res2 (s : State) : readReg .res2 s = s.res.r2 := rfl

/-- A sequence ends in a value exactly when both parts do. -/
theorem Cmd.bind_eq_ok_iff {α β : Type} {c : Cmd α} {f : α → Cmd β} {b : β} :
    (c >>= f) = .ok b ↔ ∃ a, c = .ok a ∧ f a = .ok b := by
  refine ⟨Cmd.bind_eq_ok, ?_⟩
  rintro ⟨a, rfl, h⟩
  exact h

theorem Cmd.ok_inj {α : Type} {a b : α} : (.ok a : Cmd α) = .ok b ↔ b = a := by
  simp only [Except.ok.injEq, eq_comm]

/-! ### The operand checks -/

@[simp] theorem misaligned_eq_false (a : Nat) : misaligned a = false ↔ a % 4 = 0 := by simp [misaligned]

@[simp] theorem past_eq_false (a len : Nat) : past a len = false ↔ a ≤ len := by simp [past]

@[simp] theorem emptyRange_eq_false (a b : Nat) : emptyRange a b = false ↔ a < b := by simp [emptyRange]

theorem crcChecks_ok (p : Pending) (u : Unit) : crcChecks p = .ok u ↔ p.x0 < p.x1 ∧ p.x1 ≤ p.len := by
  simp [crcChecks, Cmd.bind_eq_ok_iff, raiseIf_eq_ok]

theorem m32aChecks_ok (p : Pending) (u : Unit) :
    m32aChecks p = .ok u ↔ p.x0 % 4 = 0 ∧ p.len % 4 = 0 ∧ p.x0 + 4 ≤ p.len := by
  simp [m32aChecks, Cmd.bind_eq_ok_iff, raiseIf_eq_ok]

theorem m32bRegionChecks_ok (p : Pending) (u : Unit) :
    m32bRegionChecks p = .ok u ↔ p.x0 % 4 = 0 ∧ p.x1 % 4 = 0 ∧ p.x0 < p.x1 ∧ p.x1 ≤ p.len := by
  simp [m32bRegionChecks, Cmd.bind_eq_ok_iff, raiseIf_eq_ok]

theorem tableOperandChecks_ok (p : Pending) (u : Unit) :
    tableOperandChecks p = .ok u ↔ p.x0 % 4 = 0 ∧ p.x0 + 12 * p.x1 ≤ p.len := by
  simp [tableOperandChecks, Cmd.bind_eq_ok_iff, raiseIf_eq_ok]

theorem frameEncodeChecks_ok (p : Pending) (u : Unit) :
    frameEncodeChecks p = .ok u ↔ (1 ≤ p.x1 ∧ p.x1 ≤ 7) ∧ p.x0 + p.x1 ≤ p.len ∧ p.x2 + p.x1 + 2 ≤ p.len := by
  simp [frameEncodeChecks, Cmd.bind_eq_ok_iff, raiseIf_eq_ok, Nat.one_le_iff_ne_zero]

theorem frameParseChecks_ok (p : Pending) (u : Unit) :
    frameParseChecks p = .ok u ↔ p.x0 + p.x1 ≤ p.len ∧ p.x2 + 8 * p.x3 ≤ p.len := by
  simp [frameParseChecks, Cmd.bind_eq_ok_iff, raiseIf_eq_ok]

theorem bitsChecks_ok (p : Pending) (u : Unit) :
    bitsChecks p = .ok u ↔
      1 ≤ p.x3 ∧ p.x3 ≤ 32 ∧ p.x0 + p.x1 ≤ p.len ∧ p.x2 + p.x3 ≤ 8 * p.x1 := by
  have h : decide (maxExtractBits < p.x3) = false ↔ p.x3 ≤ 32 := by
    rw [decide_eq_false_iff_not]; simp [maxExtractBits]
  simp [bitsChecks, Cmd.bind_eq_ok_iff, raiseIf_eq_ok, Nat.one_le_iff_ne_zero, h]

theorem entryChecks_ok (len i start stop : Nat) (u : Unit) :
    entryChecks len i start stop = .ok u ↔ (start % 4 = 0 ∧ stop % 4 = 0) ∧ start < stop ∧ stop ≤ len := by
  simp [entryChecks, Cmd.bind_eq_ok_iff, raiseIfAt_eq_ok]

/-! ### The commands -/

theorem regionCrc_ok (p : Pending) (s : State) (c : Half) :
    regionCrc p s = .ok c ↔ p.x0 < p.x1 ∧ p.x1 ≤ p.len ∧
      ∃ bytes, s.mem.readBytes p.x0 (p.x1 - p.x0) = some bytes ∧ c = crc16 s.build.crc16Poly bytes := by
  simp only [regionCrc, Cmd.bind_eq_ok_iff, crcChecks_ok, ofRead_eq_ok, Cmd.pure_eq, Cmd.ok_inj, exists_const, and_assoc]

theorem crc16ComputeBody_ok (p : Pending) (s u : State) :
    crc16ComputeBody p s = .ok u ↔
      ∃ c, regionCrc p s = .ok c ∧ u = s.setRes { s.res with r0 := c.zeroExtend 32 } := by
  simp only [crc16ComputeBody, Cmd.bind_eq_ok_iff, Cmd.pure_eq, Cmd.ok_inj]

theorem crc16CheckBody_ok (p : Pending) (s u : State) :
    crc16CheckBody p s = .ok u ↔ ∃ c, regionCrc p s = .ok c ∧
      u = s.setRes { s.res with r0 := c.zeroExtend 32, r1 := wordOfBool (c == p.expectedCrc) } := by
  simp only [crc16CheckBody, Cmd.bind_eq_ok_iff, Cmd.pure_eq, Cmd.ok_inj]

/-- The fixup is the target less the sum (R143). -/
theorem m32aFixup_eq (sum : Word) : m32aFixup sum = 0x5AA55AA5 - sum := by
  rw [m32aFixup, m32aTarget, BitVec.sub_eq_add_neg]

theorem m32aSum_ok (p : Pending) (s : State) (sum : Word) :
    m32aSum p s = .ok sum ↔ p.x0 % 4 = 0 ∧ p.len % 4 = 0 ∧ p.x0 + 4 ≤ p.len ∧
      wsum s.mem 0 p.len (some p.x0) = some sum := by
  simp only [m32aSum, Cmd.bind_eq_ok_iff, m32aChecks_ok, ofRead_eq_ok, exists_const, and_assoc]

theorem m32aComputeBody_ok (p : Pending) (s u : State) :
    m32aComputeBody p s = .ok u ↔ ∃ sum, m32aSum p s = .ok sum ∧
      u = s.setRes { s.res with r0 := m32aFixup sum, r1 := sum } := by
  simp only [m32aComputeBody, Cmd.bind_eq_ok_iff, Cmd.pure_eq, Cmd.ok_inj]

theorem m32aUpdateBody_ok (p : Pending) (s u : State) :
    m32aUpdateBody p s = .ok u ↔ ∃ sum, m32aSum p s = .ok sum ∧
      u = (s.setMem (s.mem.wrBe32 p.x0 (m32aFixup sum))).setRes { s.res with r0 := m32aFixup sum, r1 := sum } := by
  simp only [m32aUpdateBody, Cmd.bind_eq_ok_iff, Cmd.pure_eq, Cmd.ok_inj]

theorem m32aValidateBody_ok (p : Pending) (s u : State) :
    m32aValidateBody p s = .ok u ↔ ∃ sum, m32aSum p s = .ok sum ∧ ∃ stored, s.mem.be32 p.x0 = some stored ∧
      u = s.setRes { r0 := m32aFixup sum, r1 := stored, r2 := wordOfBool (stored == m32aFixup sum) } := by
  simp only [m32aValidateBody, Cmd.bind_eq_ok_iff, ofRead_eq_ok, Cmd.pure_eq, Cmd.ok_inj]

theorem m32bRegionBody_ok (p : Pending) (s u : State) :
    m32bRegionBody p s = .ok u ↔
      (p.x0 % 4 = 0 ∧ p.x1 % 4 = 0 ∧ p.x0 < p.x1 ∧ p.x1 ≤ p.len) ∧ ∃ w, wsum s.mem p.x0 p.x1 none = some w ∧
      u = s.setRes { s.res with r0 := s.build.m32bTarget - w, r1 := w } := by
  simp only [m32bRegionBody, Cmd.bind_eq_ok_iff, m32bRegionChecks_ok, ofRead_eq_ok, Cmd.pure_eq, Cmd.ok_inj,
    exists_const]

theorem tableChecks_ok (p : Pending) (s : State) (u : Unit) :
    tableChecks p s = .ok u ↔
      (p.x0 % 4 = 0 ∧ p.x0 + 12 * p.x1 ≤ p.len) ∧ checkEntries s.build s.mem p.x0 p.len p.x1 0 = .ok u := by
  simp only [tableChecks, Cmd.bind_eq_ok_iff, tableOperandChecks_ok, exists_const]

theorem m32bTableUpdateBody_ok (p : Pending) (s u : State) :
    m32bTableUpdateBody p s = .ok u ↔ tableChecks p s = .ok () ∧
      ∃ m n, updateEntries s.build p.x0 p.x1 0 s.mem 0 = .ok (m, n) ∧
        u = (s.setMem m).setRes { s.res with r0 := wordOf n } := by
  simp only [m32bTableUpdateBody, Cmd.bind_eq_ok_iff, Cmd.pure_eq, Cmd.ok_inj, Prod.exists]
  exact ⟨fun ⟨_, h⟩ => h, fun h => ⟨(), h⟩⟩

theorem m32bTableValidateBody_ok (p : Pending) (s u : State) :
    m32bTableValidateBody p s = .ok u ↔ tableChecks p s = .ok () ∧
      ∃ mis en, validateEntries s.build s.mem p.x0 p.x1 0 0 0 = .ok (mis, en) ∧
        u = s.setRes { s.res with r0 := if en = 0 then 0xFFFFFFFF else wordOf mis, r1 := wordOf en } := by
  simp only [m32bTableValidateBody, Cmd.bind_eq_ok_iff, Cmd.pure_eq, Cmd.ok_inj, Prod.exists]
  exact ⟨fun ⟨_, h⟩ => h, fun h => ⟨(), h⟩⟩

theorem frameEncodeBody_ok (p : Pending) (s u : State) :
    frameEncodeBody p s = .ok u ↔
      ((1 ≤ p.x1 ∧ p.x1 ≤ 7) ∧ p.x0 + p.x1 ≤ p.len ∧ p.x2 + p.x1 + 2 ≤ p.len) ∧
      ∃ payload, s.mem.readBytes p.x0 p.x1 = some payload ∧
        u = (s.setMem (s.mem.writeBytes p.x2 (encodeFrame payload))).setRes
          { s.res with r0 := wordOf (p.x1 + 2), r1 := (encodeChecksum payload).zeroExtend 32 } := by
  simp only [frameEncodeBody, Cmd.bind_eq_ok_iff, frameEncodeChecks_ok, ofRead_eq_ok, Cmd.pure_eq, Cmd.ok_inj,
    exists_const]

/-- `fdec` is SHORT exactly on an empty buffer or one shorter than the PCI byte says (R173). -/
theorem fdec_cons_none (pci : Byte) (rest : List Byte) :
    fdec (pci :: rest) = none ↔ rest.length < pciLen pci + 1 := by
  simp only [fdec, List.length_cons]
  split <;> simp <;> omega

/-- A FRAME_DECODE that ends in a value found a short buffer, or a complete frame that fits its destination (R174). -/
theorem frameDecodeBody_ok (p : Pending) (s u : State) :
    frameDecodeBody p s = .ok u ↔ p.x0 + p.x1 ≤ p.len ∧
      ((p.x1 = 0 ∧ u = s.setRes shortResults) ∨
       (1 ≤ p.x1 ∧ ∃ pci, s.mem.read p.x0 = some pci ∧
        ((p.x1 < pciLen pci + 2 ∧ u = s.setRes shortResults) ∨
         (pciLen pci + 2 ≤ p.x1 ∧ ∃ bytes f, s.mem.readBytes p.x0 (pciLen pci + 2) = some bytes ∧ fdec bytes = some f ∧
          f.len = pciLen pci ∧ p.x2 + f.len ≤ p.len ∧
          u = (s.setMem (s.mem.writeBytes p.x2 f.payload)).setRes (frameResults f (decide (f.len + 2 < p.x1))))))) := by
  have hfd : ∀ pci bytes, s.mem.read p.x0 = some pci → s.mem.readBytes p.x0 (pciLen pci + 2) = some bytes →
      ∃ f, fdec bytes = some f ∧ f.len = pciLen pci := by
    intro pci bytes hr hb
    obtain ⟨hl, hk⟩ := (Memory.readBytes_eq_some _ _ _ _).mp hb
    cases bytes with
    | nil => simp at hl
    | cons b rest =>
      have h0 := hk 0 (by simp)
      simp only [Nat.add_zero, hr, Option.some.injEq, List.getElem_cons_zero] at h0
      subst h0
      simp only [List.length_cons] at hl
      simp only [fdec, List.length_cons]
      rw [if_neg (by omega)]
      exact ⟨_, rfl, rfl⟩
  simp only [frameDecodeBody, Cmd.bind_eq_ok_iff, raiseIf_eq_ok, past_eq_false, exists_const]
  refine and_congr_right fun _ => ?_
  by_cases h1 : p.x1 < 1
  · have h1' : p.x1 = 0 := by omega
    simp [h1']
    exact eq_comm
  · have h1' : 1 ≤ p.x1 := by omega
    rw [if_neg h1]
    simp only [Cmd.bind_eq_ok_iff, ofRead_eq_ok]
    constructor
    · rintro ⟨pci, hr, h⟩
      refine .inr ⟨h1', pci, hr, ?_⟩
      by_cases h2 : p.x1 < pciLen pci + 2
      · rw [if_pos h2] at h
        exact .inl ⟨h2, by simpa only [Cmd.pure_eq, Cmd.ok_inj] using h⟩
      · rw [if_neg h2] at h
        simp only [Cmd.bind_eq_ok_iff, ofRead_eq_ok] at h
        obtain ⟨bytes, hb, h⟩ := h
        obtain ⟨f, hf, hfl⟩ := hfd pci bytes hr hb
        simp only [hf, Cmd.bind_eq_ok_iff, raiseIf_eq_ok, past_eq_false, exists_const, Cmd.pure_eq, Cmd.ok_inj] at h
        exact .inr ⟨by omega, bytes, f, hb, hf, hfl, h.1, h.2⟩
    · rintro (⟨h0, -⟩ | ⟨-, pci, hr, h⟩)
      · omega
      · refine ⟨pci, hr, ?_⟩
        rcases h with ⟨h2, rfl⟩ | ⟨h2, bytes, f, hb, hf, hfl, hl, rfl⟩
        · rw [if_pos h2]; rfl
        · rw [if_neg (by omega)]
          simp only [Cmd.bind_eq_ok_iff, ofRead_eq_ok]
          refine ⟨bytes, hb, ?_⟩
          simp only [hf, Cmd.bind_eq_ok_iff, raiseIf_eq_ok, past_eq_false, exists_const]
          exact ⟨hl, rfl⟩

theorem frameParseBody_ok (p : Pending) (s u : State) :
    frameParseBody p s = .ok u ↔ (p.x0 + p.x1 ≤ p.len ∧ p.x2 + 8 * p.x3 ≤ p.len) ∧
      ∃ bytes, s.mem.readBytes p.x0 p.x1 = some bytes ∧
        u = (s.setMem (s.mem.writeBytes p.x2 (descriptorBytes p.x0 (parseStream bytes p.x3).frames))).setRes
          { r0 := wordOf (parseStream bytes p.x3).frames.length, r1 := wordOf (parseStream bytes p.x3).consumed,
            r2 := (parseStream bytes p.x3).why.code } := by
  simp only [frameParseBody, Cmd.bind_eq_ok_iff, frameParseChecks_ok, ofRead_eq_ok, Cmd.pure_eq, Cmd.ok_inj,
    exists_const]

theorem bitsExtractBody_ok (p : Pending) (s u : State) :
    bitsExtractBody p s = .ok u ↔
      (1 ≤ p.x3 ∧ p.x3 ≤ 32 ∧ p.x0 + p.x1 ≤ p.len ∧ p.x2 + p.x3 ≤ 8 * p.x1) ∧
      ∃ v, extractFrom s.mem p.x0 p.x3 p.x2 0 = some v ∧ u = s.setRes { s.res with r0 := v } := by
  simp only [bitsExtractBody, Cmd.bind_eq_ok_iff, bitsChecks_ok, ofRead_eq_ok, Cmd.pure_eq, Cmd.ok_inj, exists_const]

end Sys2Proof.Machine
end

