-- ==== Sys2Proof/Laws/Frame.lean ====
section
/-! SUPPORT. What the frame checksum, the decoder and the parser answer (42_frame.md R171, R173, R176). -/

namespace Sys2Proof.Machine

/-- The length nibble is the PCI byte modulo 16 (R173). -/
theorem pciLen_eq (pci : Byte) : pciLen pci = pci.toNat % 16 := by
  simp [pciLen, BitVec.extractLsb'_toNat]

/-- A running sum of bytes is the sum modulo 256 (R171). -/
theorem toNat_foldl_add (bytes : List Byte) (acc : Byte) :
    (bytes.foldl (fun a b => a + b) acc).toNat = (acc.toNat + (bytes.map BitVec.toNat).sum) % 256 := by
  induction bytes generalizing acc with
  | nil => simp; omega
  | cons b bytes ih =>
    rw [List.foldl_cons, ih, BitVec.toNat_add, List.map_cons, List.sum_cons]
    omega

/-- The checksum is the sum modulo 256 (R171). -/
theorem toNat_fcs (bytes : List Byte) : (fcs bytes).toNat = (bytes.map BitVec.toNat).sum % 256 := by
  simp [fcs, toNat_foldl_add]

/-- A complete frame at the head of a buffer decodes to its parts; `extra` says whether anything follows (R173). -/
theorem fdec_append (pci cs : Byte) (payload more : List Byte) (h : payload.length = pciLen pci) :
    fdec (pci :: payload ++ cs :: more) =
      some
        { pci := pci, len := payload.length, payload := payload, cs := cs, valid := cs == fcs (pci :: payload)
          inRange := lenInRange payload.length, extra := decide (0 < more.length) } := by
  simp only [fdec, List.cons_append, List.length_cons, List.length_append, ← h]
  rw [if_neg (by omega), List.take_left, List.getD_append_right _ _ _ _ (le_refl _), Nat.sub_self, List.getD_cons_zero]
  have e : (payload.length + 2 < payload.length + (more.length + 1) + 1) = (0 < more.length) := by
    rw [eq_iff_iff]; omega
  simp only [e]

/-- The parser stops at the end of the stream first (R176). -/
theorem parseFrames_nil (fuel room pos : Nat) :
    parseFrames fuel [] room pos = { frames := [], consumed := pos, why := .end_ } := by
  cases fuel <;> simp [parseFrames]

/-- With bytes left and no descriptor left the parser stops at the limit (R176). -/
theorem parseFrames_limit (fuel pos : Nat) (b : Byte) (rest : List Byte) :
    parseFrames (fuel + 1) (b :: rest) 0 pos = { frames := [], consumed := pos, why := .limit } := by
  simp [parseFrames]

/-- A short rest stops the parser (R176). -/
theorem parseFrames_short (fuel room pos : Nat) (b : Byte) (rest : List Byte) (h : fdec (b :: rest) = none) :
    parseFrames (fuel + 1) (b :: rest) (room + 1) pos = { frames := [], consumed := pos, why := .incomplete } := by
  simp [parseFrames, h]

/-- A complete frame takes one descriptor and its bytes (R176). -/
theorem parseFrames_frame (fuel room pos : Nat) (b : Byte) (rest : List Byte) (f : DecodedFrame)
    (h : fdec (b :: rest) = some f) :
    parseFrames (fuel + 1) (b :: rest) (room + 1) pos =
      { parseFrames fuel ((b :: rest).drop (f.len + 2)) room (pos + f.len + 2) with
        frames := (pos, f) :: (parseFrames fuel ((b :: rest).drop (f.len + 2)) room (pos + f.len + 2)).frames } := by
  simp [parseFrames, h]

end Sys2Proof.Machine
end

