-- ==== Sys2Proof/Laws/Mod32.lean ====
section
/-! SUPPORT. What the sums and the table loops of the modular-32 commands read and answer (41_mod32.md R140–R152). -/

namespace Sys2Proof.Machine

/-- A sum reads nothing but the words of its region that it does not skip. -/
theorem wsumFrom_congr {m m' : Memory} {skip : Option Nat} {n a : Nat} {acc : Word}
    (h : ∀ k, k < n → skip ≠ some (a + 4 * k) → m.be32 (a + 4 * k) = m'.be32 (a + 4 * k)) :
    wsumFrom m skip n a acc = wsumFrom m' skip n a acc := by
  induction n generalizing a acc with
  | zero => rfl
  | succ n ih =>
    have hrest : ∀ k, k < n → skip ≠ some (a + 4 + 4 * k) → m.be32 (a + 4 + 4 * k) = m'.be32 (a + 4 + 4 * k) := by
      intro k hk
      have := h (k + 1) (by omega)
      rwa [show a + 4 * (k + 1) = a + 4 + 4 * k by omega] at this
    rw [wsumFrom_succ, wsumFrom_succ]
    split
    · exact ih hrest
    · rename_i hs
      have h0 := h 0 (by omega) (by simpa using hs)
      simp only [Nat.mul_zero, Nat.add_zero] at h0
      rw [h0]
      cases m'.be32 a with
      | none => rfl
      | some w => exact ih hrest

/-- Two memories with the same bytes in a region have the same sum of it. -/
theorem wsum_congr {m m' : Memory} {s e : Nat} {skip : Option Nat}
    (h : ∀ a, s ≤ a → a < e → m.read a = m'.read a) : wsum m s e skip = wsum m' s e skip :=
  wsumFrom_congr fun _ _ _ => Memory.be32_congr fun _ _ => h _ (by omega) (by omega)

/-- A sum has a value when every word it does not skip has one. -/
theorem wsumFrom_isSome {m : Memory} {skip : Option Nat} {n a : Nat} {acc : Word}
    (h : ∀ k, k < n → skip ≠ some (a + 4 * k) → (m.be32 (a + 4 * k)).isSome = true) :
    (wsumFrom m skip n a acc).isSome = true := by
  induction n generalizing a acc with
  | zero => rfl
  | succ n ih =>
    have hrest : ∀ k, k < n → skip ≠ some (a + 4 + 4 * k) → (m.be32 (a + 4 + 4 * k)).isSome = true := by
      intro k hk
      have := h (k + 1) (by omega)
      rwa [show a + 4 * (k + 1) = a + 4 + 4 * k by omega] at this
    rw [wsumFrom_succ]
    split
    · exact ih hrest
    · rename_i hs
      have h0 := h 0 (by omega) (by simpa using hs)
      simp only [Nat.mul_zero, Nat.add_zero] at h0
      obtain ⟨w, hw⟩ := Option.isSome_iff_exists.mp h0
      rw [hw]
      exact ih hrest

/-- A sum over a word it does not skip and that has no value has none. -/
theorem wsumFrom_none {m : Memory} {skip : Option Nat} {n a k : Nat} {acc : Word} (hk : k < n)
    (hs : skip ≠ some (a + 4 * k)) (hw : m.be32 (a + 4 * k) = none) : wsumFrom m skip n a acc = none := by
  induction n generalizing a acc k with
  | zero => omega
  | succ n ih =>
    rw [wsumFrom_succ]
    cases k with
    | zero =>
      simp only [Nat.mul_zero, Nat.add_zero] at hs hw
      rw [if_neg hs, hw]; rfl
    | succ k =>
      rw [show a + 4 * (k + 1) = a + 4 + 4 * k by omega] at hs hw
      split
      · exact ih (by omega) hs hw
      · cases m.be32 a with
        | none => rfl
        | some w => exact ih (by omega) hs hw

/-- When the fields of an entry are read, and as what (R148, R149). -/
theorem readEntry_ok (b : Build) (m : Memory) (t i : Nat) (x : Nat × Nat × Bool) :
    readEntry b m t i = .ok x ↔ ∃ ws we, m.be32 (t + 12 * i) = some ws ∧ m.be32 (t + 12 * i + 4) = some we ∧
      ∃ sentinel, sentinelOf b m t i ws we = .ok sentinel ∧ x = (ws.toNat, we.toNat, sentinel) := by
  constructor
  · intro h
    obtain ⟨ws, hs, h⟩ := Cmd.bind_eq_ok h
    obtain ⟨we, he, h⟩ := Cmd.bind_eq_ok h
    obtain ⟨c, hc, h⟩ := Cmd.bind_eq_ok h
    simp only [Cmd.pure_eq, Except.ok.injEq] at h
    exact ⟨ws, we, ofRead_eq_ok.mp hs, ofRead_eq_ok.mp he, c, hc, h.symm⟩
  · rintro ⟨ws, we, hs, he, c, hc, rfl⟩
    simp [readEntry, entryStart, entryEnd, entryAt, hs, he, hc]

/-- An entry's fields are its own 12 bytes. -/
theorem readEntry_congr {b : Build} {m m' : Memory} {t i : Nat}
    (h : ∀ k, k < 12 → m.read (t + 12 * i + k) = m'.read (t + 12 * i + k)) : readEntry b m t i = readEntry b m' t i := by
  have h0 : m.be32 (t + 12 * i) = m'.be32 (t + 12 * i) := Memory.be32_congr fun k hk => h k (by omega)
  have h4 : m.be32 (t + 12 * i + 4) = m'.be32 (t + 12 * i + 4) :=
    Memory.be32_congr fun k hk => by rw [Nat.add_assoc _ 4 k]; exact h (4 + k) (by omega)
  have h8 : m.be32 (t + 12 * i + 8) = m'.be32 (t + 12 * i + 8) :=
    Memory.be32_congr fun k hk => by rw [Nat.add_assoc _ 8 k]; exact h (8 + k) (by omega)
  simp only [readEntry, sentinelOf, entryStart, entryEnd, entryChecksum, entryAt, h0, h4, h8]

/-- The loop of R150 ends in a value exactly when every entry can be read and passes. -/
theorem checkEntries_ok (b : Build) (m : Memory) (t len n i : Nat) (u : Unit) :
    checkEntries b m t len n i = .ok u ↔ ∀ k, i ≤ k → k < i + n → ∃ start stop sentinel,
      readEntry b m t k = .ok (start, stop, sentinel) ∧
      (sentinel = true ∨ start % 4 = 0 ∧ stop % 4 = 0 ∧ start < stop ∧ stop ≤ len) := by
  induction n generalizing i with
  | zero => simp only [checkEntries, true_iff]; omega
  | succ n ih =>
    have step : checkEntries b m t len (n + 1) i = .ok u ↔ ∃ start stop sentinel,
        readEntry b m t i = .ok (start, stop, sentinel) ∧
        (sentinel = true ∨ start % 4 = 0 ∧ stop % 4 = 0 ∧ start < stop ∧ stop ≤ len) ∧
        checkEntries b m t len n (i + 1) = .ok u := by
      simp only [checkEntries]
      constructor
      · intro h
        obtain ⟨⟨start, stop, sentinel⟩, hr, h⟩ := Cmd.bind_eq_ok h
        cases sentinel with
        | true => exact ⟨start, stop, true, hr, .inl rfl, h⟩
        | false =>
          obtain ⟨v, hc, h⟩ := Cmd.bind_eq_ok h
          refine ⟨start, stop, false, hr, .inr ?_, h⟩
          obtain ⟨v1, h1, hc⟩ := Cmd.bind_eq_ok hc
          obtain ⟨v2, h2, h3⟩ := Cmd.bind_eq_ok hc
          rw [raiseIfAt_eq_ok] at h1 h2 h3
          simp only [misaligned, emptyRange, past, Bool.or_eq_false_iff, bne_eq_false_iff_eq,
            decide_eq_false_iff_not] at h1 h2 h3
          exact ⟨h1.1, h1.2, by omega, by omega⟩
      · rintro ⟨start, stop, sentinel, hr, hc, h⟩
        rw [hr, Cmd.ok_bind]
        cases sentinel with
        | true => exact h
        | false =>
          rcases hc with hc | ⟨h1, h2, h3, h4⟩
          · simp at hc
          · have e1 : emptyRange start stop = false := by simp [emptyRange, h3]
            have e2 : past stop len = false := by simp [past, h4]
            simp only [entryChecks, misaligned, h1, h2, e1, e2, Bool.false_eq_true, if_false, bne_self_eq_false,
              Bool.or_self, raiseIfAt_false, Cmd.ok_bind]
            exact h
    rw [step]
    constructor
    · rintro ⟨start, stop, sentinel, hr, hc, h⟩ k hk hk'
      by_cases e : k = i
      · subst e; exact ⟨start, stop, sentinel, hr, hc⟩
      · exact (ih (i + 1)).mp h k (by omega) (by omega)
    · intro h
      obtain ⟨start, stop, sentinel, hr, hc⟩ := h i (le_refl i) (by omega)
      exact ⟨start, stop, sentinel, hr, hc, (ih (i + 1)).mpr fun k hk hk' => h k (by omega) (by omega)⟩

/-- The update loop passes a sentinel (R151). -/
theorem updateEntries_sentinel {b : Build} {t n i u : Nat} {m : Memory} {start stop : Nat}
    (h : readEntry b m t i = .ok (start, stop, true)) :
    updateEntries b t (n + 1) i m u = updateEntries b t n (i + 1) m u := by
  simp [updateEntries, h]

/-- The update loop stores the checksum of an enabled entry's region (R151). -/
theorem updateEntries_enabled {b : Build} {t n i u : Nat} {m : Memory} {start stop : Nat} {sum : Word}
    (h : readEntry b m t i = .ok (start, stop, false)) (hs : wsum m start stop none = some sum) :
    updateEntries b t (n + 1) i m u =
      updateEntries b t n (i + 1) (m.wrBe32 (t + 12 * i + 8) (b.m32bTarget - sum)) (u + 1) := by
  simp [updateEntries, h, ckB, hs, entryAt]

/-- The validating loop passes a sentinel (R152). -/
theorem validateEntries_sentinel {b : Build} {t n i mis en : Nat} {m : Memory} {start stop : Nat}
    (h : readEntry b m t i = .ok (start, stop, true)) :
    validateEntries b m t (n + 1) i mis en = validateEntries b m t n (i + 1) mis en := by
  simp [validateEntries, h]

/-- The validating loop compares the stored checksum of an enabled entry with its region's (R152). -/
theorem validateEntries_enabled {b : Build} {t n i mis en : Nat} {m : Memory} {start stop : Nat} {stored sum : Word}
    (h : readEntry b m t i = .ok (start, stop, false)) (hst : m.be32 (t + 12 * i + 8) = some stored)
    (hs : wsum m start stop none = some sum) :
    validateEntries b m t (n + 1) i mis en =
      validateEntries b m t n (i + 1) (if stored = b.m32bTarget - sum then mis else mis + 1) (en + 1) := by
  simp [validateEntries, h, entryChecksum, entryAt, hst, ckB, hs]

end Sys2Proof.Machine
end

