-- ==== Sys2Proof/Laws/PerInstr.lean ====
section
/-! SUPPORT. Per-instruction facts about the command words: the word of every command is one R94 does not call illegal. -/

namespace Sys2Proof.Laws

/-- The word of a command has `RSVD` = 0 and an opcode outside the ranges R94 lists. -/
def CommandWord.Statement (i : Instr) : Prop := i.wellFormed = true ∧ commandWordWellFormed (encode i) = true

theorem CommandWord.nop : CommandWord.Statement .nop := ⟨rfl, by decide⟩
theorem CommandWord.crc16Compute : CommandWord.Statement .crc16Compute := ⟨rfl, by decide⟩
theorem CommandWord.crc16Check : CommandWord.Statement .crc16Check := ⟨rfl, by decide⟩
theorem CommandWord.m32aCompute : CommandWord.Statement .m32aCompute := ⟨rfl, by decide⟩
theorem CommandWord.m32aUpdate : CommandWord.Statement .m32aUpdate := ⟨rfl, by decide⟩
theorem CommandWord.m32aValidate : CommandWord.Statement .m32aValidate := ⟨rfl, by decide⟩
theorem CommandWord.m32bRegion : CommandWord.Statement .m32bRegion := ⟨rfl, by decide⟩
theorem CommandWord.m32bTableUpdate : CommandWord.Statement .m32bTableUpdate := ⟨rfl, by decide⟩
theorem CommandWord.m32bTableValidate : CommandWord.Statement .m32bTableValidate := ⟨rfl, by decide⟩
theorem CommandWord.frameEncode : CommandWord.Statement .frameEncode := ⟨rfl, by decide⟩
theorem CommandWord.frameDecode : CommandWord.Statement .frameDecode := ⟨rfl, by decide⟩
theorem CommandWord.frameParse : CommandWord.Statement .frameParse := ⟨rfl, by decide⟩
theorem CommandWord.fcExpectCts : CommandWord.Statement .fcExpectCts := ⟨rfl, by decide⟩
theorem CommandWord.fcReceivedCts : CommandWord.Statement .fcReceivedCts := ⟨rfl, by decide⟩
theorem CommandWord.fcHandleTimeout : CommandWord.Statement .fcHandleTimeout := ⟨rfl, by decide⟩
theorem CommandWord.fcRetry : CommandWord.Statement .fcRetry := ⟨rfl, by decide⟩
theorem CommandWord.fcReset : CommandWord.Statement .fcReset := ⟨rfl, by decide⟩
theorem CommandWord.fcToIdle : CommandWord.Statement .fcToIdle := ⟨rfl, by decide⟩
theorem CommandWord.fcInit : CommandWord.Statement .fcInit := ⟨rfl, by decide⟩
theorem CommandWord.bitsExtract : CommandWord.Statement .bitsExtract := ⟨rfl, by decide⟩

end Sys2Proof.Laws
end

