-- ==== Sys2Proof/Laws/Tables.lean ====
section
/-! SUPPORT. Words, sums and table entries in the terms of Safety: when they have a value and which
(41_mod32.md R140, R148–R150; 10_state.md R43). -/

namespace Sys2Proof.Machine

/-- A word has a value exactly when its four bytes were written. -/
theorem written_word (m : Memory) (a : Nat) : written m a 4 ↔ ∃ w, m.be32 a = some w := by
  rw [← Option.isSome_iff_exists, Memory.be32_isSome]; rfl

/-- A region whose bytes were all written has a sum. -/
theorem wsum_of_written {m : Memory} {a e : Nat} (h : ∀ k, a ≤ k → k < e → (m.read k).isSome = true) :
    ∃ w, wsum m a e none = some w := by
  apply Option.isSome_iff_exists.mp
  apply wsumFrom_isSome
  intro k hk _
  rw [Memory.be32_isSome]
  intro j hj
  exact h _ (by omega) (by omega)

/-- An aligned region with an unwritten byte has no sum. -/
theorem wsum_of_unwritten {m : Memory} {s e a : Nat} (hs : s % 4 = 0) (he : e % 4 = 0) (h1 : s ≤ a) (h2 : a < e)
    (h : m.read a = none) : wsum m s e none = none := by
  refine wsumFrom_none (k := (a - s) / 4) (by omega) (by simp) ?_
  by_contra hc
  have hw := (written_word m _).mpr (Option.ne_none_iff_exists'.mp hc) ((a - s) % 4) (by omega)
  rw [show s + 4 * ((a - s) / 4) + (a - s) % 4 = a by omega, h] at hw
  simp at hw

/-- A region passes the checks of R150 exactly when it is aligned, not empty and inside the latched length. -/
theorem regionError_eq_none (start stop len : Nat) :
    regionError start stop len = none ↔ (start % 4 = 0 ∧ stop % 4 = 0) ∧ start < stop ∧ stop ≤ len := by
  unfold regionError
  split_ifs <;> simp only [false_iff, true_iff] <;> omega

/-- An entry whose needed bytes were written reads as `startAt`, `stopAt` and `sentinelAt` say (R148, R149). -/
theorem readEntry_of_fieldsWritten {b : Build} {m : Memory} {t i : Nat} (h : fieldsWritten b m t i) :
    readEntry b m t i = .ok (startAt m t i, stopAt m t i, sentinelAt b m t i) := by
  obtain ⟨h1, h2⟩ := h
  obtain ⟨v0, h0⟩ := (written_word m (t + 12 * i)).mp fun k hk => h1 k (by omega)
  obtain ⟨v4, h4⟩ := (written_word m (t + 12 * i + 4)).mp fun k hk => by
    rw [Nat.add_assoc _ 4]; exact h1 _ (by omega)
  rw [readEntry_ok]
  refine ⟨v0, v4, h0, h4, sentinelAt b m t i, ?_, by simp [startAt, stopAt, h0, h4]⟩
  simp only [sentinelOf, sentinelAt, h0, h4, entryChecksum, entryAt]
  simp only [startAt, stopAt, h0, h4, Option.getD_some] at h2
  by_cases hz : v0 = 0 ∧ v4 = 0
  · rw [if_pos hz]
    obtain ⟨rfl, rfl⟩ := hz
    cases hb : b.sentinelPolicy
    · obtain ⟨v8, h8⟩ := (written_word m _).mp (h2 hb rfl rfl)
      simp [h8]
    · simp
  · rw [if_neg hz]
    have hf : ((some v0 == some (0 : Word)) && (some v4 == some (0 : Word))) = false := by
      rw [Bool.and_eq_false_iff]
      by_cases h : v0 = 0
      · exact .inr (by simpa using fun h' => hz ⟨h, h'⟩)
      · exact .inl (by simpa using h)
    rw [hf, Bool.false_and]

/-- An entry with an unwritten byte among the needed ones faults (R43). -/
theorem readEntry_of_not_fieldsWritten {b : Build} {m : Memory} {t i : Nat} (h : ¬ fieldsWritten b m t i) :
    readEntry b m t i = .error (.fault .uninitRead) := by
  cases h0 : m.be32 (t + 12 * i) with
  | none => simp [readEntry, entryStart, entryAt, h0]
  | some v0 =>
    cases h4 : m.be32 (t + 12 * i + 4) with
    | none => simp [readEntry, entryStart, entryEnd, entryAt, h0, h4]
    | some v4 =>
      have hw : written m (t + 12 * i) 8 := by
        intro k hk
        by_cases hk4 : k < 4
        · exact (written_word m _).mpr ⟨_, h0⟩ k hk4
        · have := (written_word m _).mpr ⟨_, h4⟩ (k - 4) (by omega)
          rwa [show t + 12 * i + 4 + (k - 4) = t + 12 * i + k by omega] at this
      have hn : ¬ (b.sentinelPolicy = .addrAndChecksum → startAt m t i = 0 → stopAt m t i = 0 →
          written m (t + 12 * i + 8) 4) := fun h' => h ⟨hw, h'⟩
      simp only [startAt, stopAt, h0, h4, Option.getD_some, Classical.not_imp] at hn
      obtain ⟨hb, hs, he, h8⟩ := hn
      have e0 : v0 = 0 := BitVec.eq_of_toNat_eq (by simpa using hs)
      have e4 : v4 = 0 := BitVec.eq_of_toNat_eq (by simpa using he)
      have e8 : m.be32 (t + 12 * i + 8) = none := by
        by_contra hc
        exact h8 ((written_word m _).mpr (Option.ne_none_iff_exists'.mp hc))
      simp [readEntry, entryStart, entryEnd, entryAt, h0, h4, sentinelOf, e0, e4, hb, entryChecksum, e8]

end Sys2Proof.Machine
end

