-- ==== Sys2Proof/Tests/Slice0.lean ====
section
/-! SUPPORT. The model's own tests: the smoke tests of WellFormed, decodings of words written out from the encodings,
results against the vectors of spec/95_test_vectors.md, and a witness for the hypotheses of every statement. -/

namespace Sys2Proof.Tests

open Sys2Proof.Machine

-- One theorem at a time: each `decide +kernel` checked on a thread of its own runs the process out of threads.
set_option Elab.async false

/-! ### Small states -/

/-- This hardware's build with the test value of 95_test_vectors.md for the OPEN target. -/
def testBuild : Build := { Build.thisHardware with m32bTarget := 0x12345678 }

/-- BUF with these bytes written from an offset. -/
def buf (a : Nat) (bytes : List Byte) : Memory := Memory.writeBytes [] a bytes

/-- A pending command with these operands. -/
def pend (i : Instr) (len a0 a1 a2 a3 : Word) : Pending :=
  { word := encode i, args := { a0 := a0, a1 := a1, a2 := a2, a3 := a3 }, bufLen := len, maxRetries := 3, timeoutMs := 100 }

/-- A reset state, but for a pending command and BUF. -/
def busyState (p : Pending) (m : Memory) : State := { State.reset with build := testBuild, pending := some p, mem := m }

/-- What every witness with a pending command rests on. -/
theorem busyState_pending (p : Pending) (m : Memory) : (busyState p m).pending = some p := rfl

/-- A reset state, but for BUF and the next host access. -/
def hostState (m : Memory) (a : HostAccess) : State :=
  { State.reset with build := testBuild, mem := m, agenda := [.host a] }

/-- A command in a reset state with this BUF. -/
def runOn (i : Instr) (len a0 a1 a2 a3 : Word) (m : Memory) : Host.Outcome State Fault Refusal :=
  exec i (busyState (pend i len a0 a1 a2 a3) m)

/-- `RES0`–`RES2`, `STATUS` and `ERR_INFO` of a next state. -/
def report (o : Host.Outcome State Fault Refusal) : Option (List Word) :=
  match o with
  | .next t => some [t.res.r0, t.res.r1, t.res.r2, readReg .status t, readReg .errInfo t]
  | .fault _ => none
  | .refused _ => none

/-- Bytes of BUF in a next state. -/
def bytesOf (o : Host.Outcome State Fault Refusal) (a n : Nat) : Option (List Byte) :=
  match o with
  | .next t => t.mem.readBytes a n
  | .fault _ => none
  | .refused _ => none

/-- One register of a next state. -/
def regOf (o : Host.Outcome State Fault Refusal) (r : RegName) : Option Word :=
  match o with
  | .next t => some (readReg r t)
  | .fault _ => none
  | .refused _ => none

/-- The fault of an outcome. -/
def faultOf (o : Host.Outcome State Fault Refusal) : Option Fault :=
  match o with
  | .next _ => none
  | .fault f => some f
  | .refused _ => none

/-- The next state, or the reset state where there is none (for witnesses that need a state reached). -/
def nextOr (o : Host.Outcome State Fault Refusal) : State :=
  match o with
  | .next t => t
  | .fault _ => State.reset
  | .refused _ => State.reset

theorem next_of_report {o : Host.Outcome State Fault Refusal} (h : (report o).isSome = true) : o = .next (nextOr o) := by
  cases o <;> simp_all [report, nextOr]

/-! ### WellFormed: each check refuses its ill-formed term -/

theorem test_build_wf : testBuild.wellFormed = true := by decide
theorem test_build_size_not_multiple_of_4 : Build.wellFormed { testBuild with bufSize := 0x12 } = false := by decide
theorem test_build_size_too_small : Build.wellFormed { testBuild with bufSize := 12 } = false := by decide
theorem test_build_size_too_large : Build.wellFormed { testBuild with bufSize := 0x01000004 } = false := by decide

theorem test_word_rsvd_refused : commandWordWellFormed 0x00000100 = false := by decide
theorem test_word_gap_03 : commandWordWellFormed 0x03 = false ∧ commandWordWellFormed 0x0F = false := by decide
theorem test_word_gap_13 : commandWordWellFormed 0x13 = false ∧ commandWordWellFormed 0x17 = false := by decide
theorem test_word_gap_1B : commandWordWellFormed 0x1B = false ∧ commandWordWellFormed 0x1F = false := by decide
theorem test_word_gap_23 : commandWordWellFormed 0x23 = false ∧ commandWordWellFormed 0x2F = false := by decide
theorem test_word_gap_37 : commandWordWellFormed 0x37 = false ∧ commandWordWellFormed 0x3F = false := by decide
theorem test_word_gap_41 : commandWordWellFormed 0x41 = false ∧ commandWordWellFormed 0xFF = false := by decide

theorem test_line_wb_empty : HostLine.wellFormed testBuild (.wb 0 []) = false := by decide
theorem test_line_wb_outside : HostLine.wellFormed testBuild (.wb 0x1FFFFF [0, 0]) = false := by decide
theorem test_line_ww_misaligned : HostLine.wellFormed testBuild (.ww 2 0) = false := by decide
theorem test_line_ww_outside : HostLine.wellFormed testBuild (.ww 0x200000 0) = false := by decide
theorem test_line_rb_none : HostLine.wellFormed testBuild (.rb 0 0) = false := by decide
theorem test_line_rb_outside : HostLine.wellFormed testBuild (.rb 0x1FFFFF 2) = false := by decide
theorem test_line_rw_misaligned : HostLine.wellFormed testBuild (.rw 1) = false := by decide
theorem test_line_rw_outside : HostLine.wellFormed testBuild (.rw 0x200000) = false := by decide
theorem test_line_zero_outside : HostLine.wellFormed testBuild (.zero 0x1FFFFF 2) = false := by decide
theorem test_line_command_five_operands :
    HostLine.wellFormed testBuild (.command .nop [0, 0, 0, 0, 0] 0) = false := by decide
theorem test_line_command_wf : HostLine.wellFormed testBuild (.command .bitsExtract [0, 2, 0, 9] 3) = true := by decide

/-! ### Decoding of words written out from the "Encoding" line of each command -/

theorem test_decode_system : decode 0x00000000 = .ok .nop := rfl
theorem test_decode_crc16 : decode 0x00000001 = .ok .crc16Compute ∧ decode 0x00000002 = .ok .crc16Check := ⟨rfl, rfl⟩
theorem test_decode_m32a :
    decode 0x00000010 = .ok .m32aCompute ∧ decode 0x00000011 = .ok .m32aUpdate ∧
    decode 0x00000012 = .ok .m32aValidate := ⟨rfl, rfl, rfl⟩
theorem test_decode_m32b :
    decode 0x00000018 = .ok .m32bRegion ∧ decode 0x00000019 = .ok .m32bTableUpdate ∧
    decode 0x0000001A = .ok .m32bTableValidate := ⟨rfl, rfl, rfl⟩
theorem test_decode_frame :
    decode 0x00000020 = .ok .frameEncode ∧ decode 0x00000021 = .ok .frameDecode ∧
    decode 0x00000022 = .ok .frameParse := ⟨rfl, rfl, rfl⟩
theorem test_decode_flow_control :
    decode 0x00000030 = .ok .fcExpectCts ∧ decode 0x00000031 = .ok .fcReceivedCts ∧
    decode 0x00000032 = .ok .fcHandleTimeout ∧ decode 0x00000033 = .ok .fcRetry ∧ decode 0x00000034 = .ok .fcReset ∧
    decode 0x00000035 = .ok .fcToIdle ∧ decode 0x00000036 = .ok .fcInit := ⟨rfl, rfl, rfl, rfl, rfl, rfl, rfl⟩
theorem test_decode_bit_field : decode 0x00000040 = .ok .bitsExtract := rfl

/-- The words next to the assigned ones, and one with a reserved bit of each end (R92, R94). -/
theorem test_decode_rejects :
    decode 0x00000003 = .error .unassignedOpcode ∧ decode 0x0000000F = .error .unassignedOpcode ∧
    decode 0x00000041 = .error .unassignedOpcode ∧ decode 0x000000FF = .error .unassignedOpcode ∧
    decode 0x00000101 = .error .reservedBitsSet ∧ decode 0x80000000 = .error .reservedBitsSet :=
  ⟨rfl, rfl, rfl, rfl, rfl, rfl⟩

theorem test_decodeTableWord :
    decodeTableWord 32 0x40 = some .bitsExtract ∧ decodeTableWord 32 0x140 = none ∧ decodeTableWord 32 0x41 = none := by
  decide

/-! ### Results, from the vectors of 95_test_vectors.md (the number of each is in its name) -/

def check9 : List Byte := [0x31, 0x32, 0x33, 0x34, 0x35, 0x36, 0x37, 0x38, 0x39]

theorem test_N1_nop : report (runOn .nop 0 0 0 0 0 []) = some [0, 0, 0, 0, 0xFF] := by decide +kernel

theorem test_S1_crc16Compute :
    report (runOn .crc16Compute 9 0 9 0 0 (buf 0 check9)) = some [0x6F91, 0, 0, 0, 0xFF] := by decide +kernel
theorem test_C18_crc16Compute :
    report (runOn .crc16Compute 9 9 9 0 0 (buf 0 check9)) = some [0, 0, 0, 0x0302, 0x00] := by decide +kernel
theorem test_C13_crc16Check :
    report (runOn .crc16Check 9 0 9 0xABCD6F91 0 (buf 0 check9)) = some [0x6F91, 1, 0, 0, 0xFF] := by decide +kernel
theorem test_C14_crc16Check :
    report (runOn .crc16Check 9 0 9 0x0000906E 0 (buf 0 check9)) = some [0x6F91, 0, 0, 0, 0xFF] := by decide +kernel
theorem test_N11_uninit : faultOf (runOn .crc16Compute 1 0 1 0 0 []) = some .uninitRead := by decide +kernel

def imageI16 : List Byte :=
  [0, 0, 0, 1, 0, 0, 0, 2, 0xDE, 0xAD, 0xBE, 0xEF, 0xFF, 0xFF, 0xFF, 0xFF]

theorem test_A1_m32aCompute :
    report (runOn .m32aCompute 16 8 0 0 0 (buf 0 imageI16)) = some [0x5AA55AA3, 2, 0, 0, 0xFF] := by decide +kernel
theorem test_A10_m32aCompute :
    report (runOn .m32aCompute 18 8 0 0 0 (buf 0 imageI16)) = some [0, 0, 0, 0x0202, 0xFD] := by decide +kernel
theorem test_A3_m32aUpdate :
    bytesOf (runOn .m32aUpdate 16 8 0 0 0 (buf 0 imageI16)) 4 12 =
      some [0, 0, 0, 2, 0x5A, 0xA5, 0x5A, 0xA3, 0xFF, 0xFF, 0xFF, 0xFF] := by decide +kernel
theorem test_A12_m32aUpdate :
    report (runOn .m32aUpdate 16 6 0 0 0 (buf 0 imageI16)) = some [0, 0, 0, 0x0202, 0x00] := by decide +kernel
theorem test_A2_m32aValidate :
    report (runOn .m32aValidate 16 8 0 0 0 (buf 0 imageI16)) = some [0x5AA55AA3, 0xDEADBEEF, 0, 0, 0xFF] := by
  decide +kernel

/-- Image IB of 95_test_vectors.md 2.3 at `T` = 0x1234_5678. -/
def imageIB : List Byte :=
  [0, 0, 0, 1, 0, 0, 0, 2, 0, 0, 0, 0, 0, 0, 0, 0,
   0, 0, 0, 0, 0, 0, 0, 8, 0, 0, 0, 0,
   0, 0, 0, 0, 0, 0, 0, 0, 0x12, 0x34, 0x56, 0x78,
   0, 0, 0, 8, 0, 0, 0, 12, 0, 0, 0, 0]

theorem test_B1_m32bRegion :
    report (runOn .m32bRegion 0x34 0 8 0 0 (buf 0 imageIB)) = some [0x12345675, 3, 0, 0, 0xFF] := by decide +kernel
theorem test_B12_m32bRegion :
    report (runOn .m32bRegion 0x34 0 6 0 0 (buf 0 imageIB)) = some [0, 0, 0, 0x0202, 0x01] := by decide +kernel
theorem test_B5_m32bTableUpdate :
    bytesOf (runOn .m32bTableUpdate 0x34 0x10 3 0 0 (buf 0 imageIB)) 0x18 28 =
      some [0x12, 0x34, 0x56, 0x75, 0, 0, 0, 0, 0, 0, 0, 0, 0x12, 0x34, 0x56, 0x78, 0, 0, 0, 8, 0, 0, 0, 12,
            0x12, 0x34, 0x56, 0x78] := by decide +kernel
theorem test_B16_m32bTableUpdate :
    report (runOn .m32bTableUpdate 0x34 0x10 4 0 0 (buf 0 imageIB)) = some [0, 0, 0, 0x0402, 0x01] := by decide +kernel
theorem test_B4_m32bTableValidate :
    report (runOn .m32bTableValidate 0x34 0x10 3 0 0 (buf 0 imageIB)) = some [2, 2, 0, 0, 0xFF] := by decide +kernel
theorem test_B8_m32bTableValidate :
    report (runOn .m32bTableValidate 0x34 0x1C 1 0 0 (buf 0 imageIB)) = some [0xFFFFFFFF, 0, 0, 0, 0xFF] := by
  decide +kernel

theorem test_F5_frameEncode :
    bytesOf (runOn .frameEncode 0x100 0x68 3 0x67 0 (buf 0x68 [0x10, 0x20, 0x30])) 0x67 5 =
      some [0x03, 0x10, 0x20, 0x30, 0x63] := by decide +kernel
theorem test_F3_frameEncode :
    report (runOn .frameEncode 0x100 0x40 7 0x48 0 (buf 0x40 [0xFF, 0xFF, 0xFF, 0xFF, 0xFF, 0xFF, 0xFF])) =
      some [9, 0x00, 0, 0, 0xFF] := by decide +kernel
theorem test_F10_frameDecode :
    report (runOn .frameDecode 0x100 0x10 4 0x20 0 (buf 0x10 [0x02, 0x01, 0x0D, 0x10])) =
      some [2, 0x7, 0x0210, 0, 0xFF] := by decide +kernel
theorem test_F11_frameDecode :
    report (runOn .frameDecode 0x100 0x80 4 0x90 0 (buf 0x80 [0x02, 0x01, 0x0D, 0x11])) =
      some [2, 0x6, 0x0211, 0, 0xFF] := by decide +kernel
theorem test_F28_frameParse :
    report (runOn .frameParse 0x100 0xA0 1 0xC0 2 (buf 0xA0 [0x02, 0x01, 0x0D, 0x10, 0x01, 0x3E, 0x40])) =
      some [0, 0, 1, 0, 0xFF] := by decide +kernel
theorem test_F25_frameParse :
    bytesOf (runOn .frameParse 0x100 0xA0 7 0xC0 1 (buf 0xA0 [0x02, 0x01, 0x0D, 0x10, 0x01, 0x3E, 0x40])) 0xC0 8 =
      some [0, 0, 0, 0xA0, 0x02, 0x02, 0x07, 0x10] := by decide +kernel

/-- A reset state, but for a flow-control command and the unit. -/
def fcState (i : Instr) (f : FcUnit) : State := { busyState (pend i 0 0 0 0 0) [] with fc := f }

def fcError : FcUnit := { state := .error, timerArmed := false, exhausted := false, consumed := false, retryCount := 2 }

def fcExhausted : FcUnit := { state := .error, timerArmed := false, exhausted := true, consumed := false, retryCount := 3 }

def fcWaiting : FcUnit :=
  { state := .waitingCts, timerArmed := true, exhausted := false, consumed := false, retryCount := 0 }

theorem test_K1_fcExpectCts : regOf (exec .fcExpectCts (fcState .fcExpectCts freshFc)) .fcStatus = some 0x101 := by
  decide +kernel
theorem test_K2_fcReceivedCts : regOf (exec .fcReceivedCts (fcState .fcReceivedCts fcWaiting)) .fcStatus = some 0x002 := by
  decide +kernel
theorem test_K8_fcHandleTimeout :
    regOf (exec .fcHandleTimeout (fcState .fcHandleTimeout fcError)) .fcStatus = some 0x203 := by decide +kernel
theorem test_K5_fcHandleTimeout :
    regOf (exec .fcHandleTimeout (fcState .fcHandleTimeout { fcError with retryCount := 0 })) .res0 = some 1 := by
  decide +kernel
theorem test_K9_fcRetry : regOf (exec .fcRetry (fcState .fcRetry fcExhausted)) .fcStatus = some 0x600 := by decide +kernel
theorem test_K12_fcRetry :
    regOf (exec .fcRetry (fcState .fcRetry { fcExhausted with consumed := true })) .fcStatus = some 0x603 := by
  decide +kernel
theorem test_K13_fcReset :
    regOf (exec .fcReset (fcState .fcReset { fcExhausted with consumed := true })) .fcStatus = some 0x600 := by
  decide +kernel
theorem test_K20_fcToIdle : regOf (exec .fcToIdle (fcState .fcToIdle fcWaiting)) .fcStatus = some 0x000 := by decide +kernel
theorem test_K15_fcInit :
    regOf (exec .fcInit (fcState .fcInit { fcExhausted with consumed := true })) .fcStatus = some 0x000 := by
  decide +kernel

def bitBytes : List Byte := [0xAF, 0x00, 0x12, 0x34, 0x56, 0x78, 0x9A]

theorem test_X1_bitsExtract :
    report (runOn .bitsExtract 7 0 2 0 9 (buf 0 bitBytes)) = some [0x15E, 0, 0, 0, 0xFF] := by decide +kernel
theorem test_X10_bitsExtract :
    report (runOn .bitsExtract 7 0 7 4 32 (buf 0 bitBytes)) = some [0xF0012345, 0, 0, 0, 0xFF] := by decide +kernel

/-- C19: the engine on a word with a reserved bit set. -/
theorem test_C19_illegal :
    report (engineStep (busyState { pend .crc16Compute 0 0 0 0 0 with word := 0x101 } [])) =
      some [0, 0, 0, 0x0102, 0xFE] := by decide +kernel

theorem test_N9_identity :
    readReg .id State.reset = 0x45435542 ∧ readReg .version State.reset = 0x00000001 ∧
    readReg .crc16Poly State.reset = 0x8408 ∧ readReg .crc16Init State.reset = 0xFFFF ∧
    readReg .m32aTarget State.reset = 0x5AA55AA5 := ⟨rfl, rfl, rfl, rfl, rfl⟩

theorem test_N10_bufLen : readReg .bufLen (writeReg .bufLen 0xFFFFFFFF State.reset) = 0x00200000 := by decide +kernel

/-! ### Witnesses: states and operands that meet the hypotheses of each statement, clause by clause

A statement with no hypotheses has none here. -/

theorem not_assigned_03 : ∀ i : Instr, (0x03 : Word) ≠ encode i := by intro i; cases i <;> decide

theorem not_assigned_FF : ∀ i : Instr, (0xFF : Word) ≠ encode i := by intro i; cases i <;> decide

theorem witness_DecodeSelectsExactlyTheOpcodeMap :
    (0x40 : Word) = encode .bitsExtract ∧ 256 ≤ (0x100 : Word).toNat ∧ (0xFF : Word).toNat < 256 ∧
    ∀ i, (0xFF : Word) ≠ encode i := ⟨rfl, by decide, by decide, not_assigned_FF⟩

theorem witness_EngineRaisesIllegalCmdOnReservedWords :
    (busyState { pend .nop 0 0 0 0 0 with word := 0x03 } []).pending = some { pend .nop 0 0 0 0 0 with word := 0x03 } ∧
    (∀ i, (0x03 : Word) ≠ encode i) ∧ (pend .fcInit 0 0 0 0 0).word = encode .fcInit :=
  ⟨rfl, not_assigned_03, rfl⟩

/-- A pending CRC16_COMPUTE over the nine bytes, with an agenda. -/
def crcState (agenda : List Event) : State :=
  { busyState (pend .crc16Compute 9 0 9 0 0) (buf 0 check9) with agenda := agenda }

/-- An idle state whose timer is armed, with an agenda. -/
def armedState (agenda : List Event) : State := { State.reset with build := testBuild, fc := fcWaiting, agenda := agenda }

theorem witness_StepFollowsTheTotalOrder :
    ((crcState [.engine, .timer]).pending = some (pend .crc16Compute 9 0 9 0 0) ∧
      decode (pend .crc16Compute 9 0 9 0 0).word = .ok .crc16Compute) ∧
    (armedState [.engine]).pending = none ∧
    (hostState [] (.read .w32 0)).agenda = .host (.read .w32 0) :: [] ∧
    ((armedState [.timer]).fc.timerArmed = true ∧ (armedState [.timer]).agenda = .timer :: []) ∧
    (crcState [.timer]).fc.timerArmed = false ∧ (crcState [.powerOn]).agenda = .powerOn :: [] ∧
    ((armedState []).agenda = [] ∧ (armedState []).pending = none) ∧
    (State.reset.agenda = [] ∧ State.reset.pending = none ∧ State.reset.fc.timerArmed = false) :=
  ⟨⟨rfl, rfl⟩, rfl, rfl, ⟨rfl, rfl⟩, rfl, rfl, ⟨rfl, rfl⟩, rfl, rfl, rfl⟩

theorem witness_PlacedWordRunsNext : decode 0x00000040 = .ok .bitsExtract := rfl

theorem witness_StepStopsOnlyForTheModelFaults :
    faultOf (step { crcState [] with mem := [] }) = some .uninitRead ∧
    faultOf (step (crcState [.host (.read .w8 0x01000000)])) = some .hostRace := by decide +kernel

theorem witness_CtrlWritePerformsTheSoftReset :
    (crcState [.host (.write32 0x008 0x1)]).agenda = .host (.write32 0x008 0x1) :: [] ∧
    (0x1 : Word).getLsbD 0 = true ∧
    (crcState [.host (.write32 0x008 0xFFFFFFFE)]).agenda = .host (.write32 0x008 0xFFFFFFFE) :: [] ∧
    (0xFFFFFFFE : Word).getLsbD 0 = false := by decide

theorem reserved_register_offsets :
    (∀ r, (r, (0x03C : Word)) ∉ registerMap) ∧ (∀ r, (r, (0x068 : Word)) ∉ registerMap) ∧
    (∀ r, (r, (0x0FC : Word)) ∉ registerMap) := by
  refine ⟨?_, ?_, ?_⟩ <;> (intro r; cases r <;> decide)

theorem witness_RegisterMapReadsAndReadOnlyWrites :
    ((RegName.id, (0x000 : Word)) ∈ registerMap ∧ RegName.id ∈ readOnlyRegs) ∧
    (RegName.intEnable, (0x064 : Word)) ∈ registerMap ∧
    ((RegName.fcRetryCount, (0x054 : Word)) ∈ registerMap ∧ RegName.fcRetryCount ∈ readOnlyRegs) ∧
    ((0x0FC : Word).toNat < 0x100 ∧ (0x0FC : Word).toNat % 4 = 0) ∧
    (hostState [] (.read .w32 0x0FC)).agenda = .host (.read .w32 0x0FC) :: [] ∧
    (hostState [] (.write32 0x000 5)).agenda = .host (.write32 0x000 5) :: [] := by decide

theorem witness_ReadWriteRegistersStoreTheWrittenValue :
    ((RegName.arg0, (0x020 : Word)) ∈ registerMap ∧ RegName.arg0 ∈ [RegName.arg0, .arg1, .arg2, .arg3, .fcMaxRetries, .fcTimeoutMs, .bufLen]) ∧
    ((RegName.bufLen, (0x018 : Word)) ∈ registerMap ∧ RegName.bufLen ∈ [RegName.arg0, .arg1, .arg2, .arg3, .fcMaxRetries, .fcTimeoutMs, .bufLen]) ∧
    (hostState [] (.write32 0x018 0x200001)).agenda = .host (.write32 0x018 0x200001) :: [] := by decide

theorem witness_InterruptAndStatusWrites :
    (hostState [] (.write32 0x060 5)).agenda = .host (.write32 0x060 5) :: [] ∧
    (hostState [] (.write32 0x064 7)).agenda = .host (.write32 0x064 7) :: [] ∧
    (hostState [] (.write32 0x00C 4)).agenda = .host (.write32 0x00C 4) :: [] := ⟨rfl, rfl, rfl⟩

theorem witness_InterruptOutputIsTheMaskedLevel :
    (readReg .intStatus { hostState [] (.write32 0x064 0x4) with intStatus := 0b100 }).getLsbD 2 = true ∧
    (0x4 : Word).getLsbD 2 = true ∧ (hostState [] (.write32 0x064 0x4)).agenda = .host (.write32 0x064 0x4) :: [] := by
  decide

theorem witness_CmdWriteIsAcceptedWhenIdle :
    (hostState [] (.write32 0x010 0x103)).pending = none ∧
    (hostState [] (.write32 0x010 0x103)).agenda = .host (.write32 0x010 0x103) :: [] := ⟨rfl, rfl⟩

theorem witness_CmdWriteIsDroppedWhenBusy :
    (crcState [.host (.write32 0x010 0x01)]).pending ≠ none ∧
    (crcState [.host (.write32 0x010 0x01)]).agenda = .host (.write32 0x010 0x01) :: [] := by decide

theorem witness_ErrorsArePrecise :
    ∃ t, runOn .m32aUpdate 16 6 0 0 0 (buf 0 imageI16) = .next t ∧ t.status.err = true :=
  ⟨_, next_of_report (by decide +kernel), by decide +kernel⟩

/-- Image IB with entry 2's region set to [0x0C, 0x08) (vector B17). -/
def imageB17 : List Byte := imageIB.take 40 ++ [0, 0, 0, 12, 0, 0, 0, 8, 0, 0, 0, 0]

theorem entries_before_2 : ∀ k, k < 2 → entryPasses testBuild (buf 0 imageB17) 0x10 0x34 k := by
  unfold entryPasses; decide +kernel

theorem written_imageB17 : written (buf 0 imageB17) 0x10 (12 * 3) := by unfold written; decide +kernel

theorem written_frame_F10 : written (buf 0x80 [0x02, 0x01, 0x0D, 0x10]) 0x80 4 := by unfold written; decide +kernel

theorem witness_FirstFailingCheckIsReported :
    decode 0x00000003 = .error .unassignedOpcode ∧
    firstError (operandChecks .bitsExtract (pend .bitsExtract 7 0 0x100 0 0)) =
      some { code := .emptyRegion, culprit := .arg3, entry := 0 } ∧
    ((0x10 : Nat) % 4 = 0 ∧ 0x10 + 12 * 3 ≤ 0x34 ∧ written (buf 0 imageB17) 0x10 (12 * 3) ∧ (∀ k, k < 2 → entryPasses testBuild (buf 0 imageB17) 0x10 0x34 k) ∧
      sentinelAt testBuild (buf 0 imageB17) 0x10 2 = false ∧
      regionError (startAt (buf 0 imageB17) 0x10 2) (stopAt (buf 0 imageB17) 0x10 2) 0x34 = some .emptyRegion) ∧
    ((buf 0x80 [0x02, 0x01, 0x0D, 0x10]).read 0x80 = some 0x02 ∧ (0x02 : Byte).toNat % 16 + 2 ≤ 4 ∧
      written (buf 0x80 [0x02, 0x01, 0x0D, 0x10]) 0x80 4 ∧ 0x100 < 0xFF + (0x02 : Byte).toNat % 16) :=
  ⟨rfl, by decide +kernel, ⟨by decide, by decide, written_imageB17, entries_before_2, by decide +kernel, by decide +kernel⟩,
   by decide +kernel, by decide, written_frame_F10, by decide⟩

theorem witness_HostAccessesBufBigEndian :
    (hostState [] (.write8 (BitVec.ofNat 32 (0x01000000 + 0x1FFFFF)) 7)).pending = none ∧ testBuild.wellFormed = true ∧
    0x1FFFFF < testBuild.bufSize.toNat ∧ (0x1FFFFC % 4 = 0 ∧ 0x1FFFFC < testBuild.bufSize.toNat) ∧
    (buf 0x1FFFFF [7]).read 0x1FFFFF = some 7 ∧
    ((buf 4 [0x12, 0x34, 0x56, 0x78]).read 4 = some ((0x12345678 : Word).extractLsb' 24 8) ∧
      (buf 4 [0x12, 0x34, 0x56, 0x78]).read (4 + 1) = some ((0x12345678 : Word).extractLsb' 16 8) ∧
      (buf 4 [0x12, 0x34, 0x56, 0x78]).read (4 + 2) = some ((0x12345678 : Word).extractLsb' 8 8) ∧
      (buf 4 [0x12, 0x34, 0x56, 0x78]).read (4 + 3) = some ((0x12345678 : Word).extractLsb' 0 8)) := by decide +kernel

theorem witness_MalformedAccessesAreBusErrors :
    (0x100 ≤ (0x100 : Word).toNat ∧ (0x00FFFFFF : Word).toNat < 0x01000000) ∧
    0x01000000 + testBuild.bufSize.toNat ≤ (0x01200000 : Word).toNat ∧
    ((0x0FC : Word).toNat < 0x100 ∧ Width.w8 ≠ Width.w32) ∧ (0x01000002 : Word).toNat % 4 ≠ 0 ∧
    (hostState [] (.write16 0x01000000 0)).agenda = .host (.write16 0x01000000 0) :: [] := by decide

theorem witness_BufWindowFaults :
    testBuild.wellFormed = true ∧ 0 < testBuild.bufSize.toNat ∧
    (crcState [.host (.read .w8 (BitVec.ofNat 32 (0x01000000 + 0)))]).pending ≠ none ∧
    (hostState [] (.read .w8 (BitVec.ofNat 32 (0x01000000 + 0)))).pending = none ∧
    (hostState [] (.read .w8 (BitVec.ofNat 32 (0x01000000 + 0)))).mem.read 0 = none := by decide

theorem not_written_word : ¬ written (buf 0 [1, 2, 3]) 0 4 := fun h => absurd (h 3 (by decide)) (by decide)

theorem witness_CommandLineIssuesItsCommand :
    ({ State.reset with agenda := (HostLine.command .crc16Check [0, 9, 0x6F91] 2).events } : State).pending = none ∧
    ([0, 9, 0x6F91] : List Word).length ≤ 4 := by decide

theorem witness_NopRunsOnlyTheBookkeeping :
    (busyState (pend .nop 0 0 0 0 0) []).pending = some (pend .nop 0 0 0 0 0) ∧
    (opcodeField 0x00000100 = 0x00 ∧ rsvdField 0x00000100 ≠ 0) ∧
    (busyState { pend .nop 0 0 0 0 0 with word := 0x00000100 } []).pending =
      some { pend .nop 0 0 0 0 0 with word := 0x00000100 } ∧ (crcState []).pending ≠ none := by decide

theorem holds_check9 : holds (buf 0 check9) 0 check9 := by unfold holds; decide +kernel

theorem witness_Crc16ComputeReturnsTheRegionCrc :
    (pend .crc16Compute 9 9 9 0 0).x1 ≤ (pend .crc16Compute 9 9 9 0 0).x0 ∧
    ((pend .crc16Compute 9 0 10 0 0).x0 < (pend .crc16Compute 9 0 10 0 0).x1 ∧
      (pend .crc16Compute 9 0 10 0 0).len < (pend .crc16Compute 9 0 10 0 0).x1) ∧
    ((pend .crc16Compute 9 0 9 0 0).x0 < (pend .crc16Compute 9 0 9 0 0).x1 ∧
      (pend .crc16Compute 9 0 9 0 0).x1 ≤ (pend .crc16Compute 9 0 9 0 0).len ∧ check9.length = 9 - 0) ∧
    holds (buf 0 check9) 0 check9 ∧ ¬ written (buf 0 [1, 2, 3]) 0 4 :=
  ⟨by decide, by decide, by decide, holds_check9, not_written_word⟩

theorem witness_Crc16CheckComparesTheRegionCrc :
    (pend .crc16Check 9 3 3 0 0).x1 ≤ (pend .crc16Check 9 3 3 0 0).x0 ∧
    ((pend .crc16Check 9 8 10 0 0).x0 < (pend .crc16Check 9 8 10 0 0).x1 ∧
      (pend .crc16Check 9 8 10 0 0).len < (pend .crc16Check 9 8 10 0 0).x1) ∧
    ((pend .crc16Check 9 0 9 0x6F91 0).x0 < (pend .crc16Check 9 0 9 0x6F91 0).x1 ∧
      (pend .crc16Check 9 0 9 0x6F91 0).x1 ≤ (pend .crc16Check 9 0 9 0x6F91 0).len) ∧
    holds (buf 0 check9) 0 check9 ∧ ¬ written (buf 0 [1, 2, 3]) 0 4 :=
  ⟨by decide, by decide, by decide, holds_check9, not_written_word⟩

/-- Of law 4 the second state has another byte outside the region and a longer latched length. -/
theorem witness_CrcLaws :
    check9 ≠ [] ∧ (∃ t, exec .crc16Compute (crcState []) = .next t ∧ t.status.err = false ∧ readReg .res0 t = 0x6F91) ∧
    (∀ k, k < 9 - 0 → (buf 0 (check9 ++ [0xAA])).read (0 + k) = (buf 0 check9).read (0 + k)) ∧
    (pend .crc16Check 10 0 9 0x6F91 0).x0 = (pend .crc16Compute 9 0 9 0 0).x0 ∧
    (pend .crc16Check 10 0 9 0x6F91 0).x1 = (pend .crc16Compute 9 0 9 0 0).x1 ∧
    (pend .crc16Check 10 0 9 0x6F91 0).x1 ≤ (pend .crc16Check 10 0 9 0x6F91 0).len ∧
    (pend .crc16Check 10 0 9 0x6F91 0).args.a2 = 0x6F91 :=
  ⟨by decide, ⟨_, next_of_report (by decide +kernel), by decide +kernel, by decide +kernel⟩, by decide +kernel, by decide,
   by decide, by decide, by decide⟩

theorem witness_WordSumIsTheModularSum :
    ∀ k (h : k < ([1, 2, 5] : List Word).length), some 8 ≠ some (0 + 4 * k) →
      (buf 0 [0, 0, 0, 1, 0, 0, 0, 2]).be32 (0 + 4 * k) = some ([1, 2, 5] : List Word)[k] := by decide +kernel

theorem witness_M32aComputeReturnsTheFixup :
    (pend .m32aCompute 16 8 0 0 0).x0 % 4 = 0 ∧ (pend .m32aCompute 16 8 0 0 0).len % 4 = 0 ∧
    (pend .m32aCompute 16 8 0 0 0).x0 + 4 ≤ (pend .m32aCompute 16 8 0 0 0).len ∧
    wsum (buf 0 imageI16) 0 16 (some 8) = some 2 := by decide +kernel

theorem witness_M32aUpdateStoresTheFixup :
    (pend .m32aUpdate 4 0 0 0 0).x0 % 4 = 0 ∧ (pend .m32aUpdate 4 0 0 0 0).len % 4 = 0 ∧
    (pend .m32aUpdate 4 0 0 0 0).x0 + 4 ≤ (pend .m32aUpdate 4 0 0 0 0).len ∧ wsum [] 0 4 (some 0) = some 0 := by
  decide +kernel

theorem witness_M32aValidateComparesTheFixup :
    (pend .m32aValidate 16 8 0 0 0).x0 % 4 = 0 ∧ (pend .m32aValidate 16 8 0 0 0).len % 4 = 0 ∧
    (pend .m32aValidate 16 8 0 0 0).x0 + 4 ≤ (pend .m32aValidate 16 8 0 0 0).len ∧
    wsum (buf 0 imageI16) 0 16 (some 8) = some 2 ∧ (buf 0 imageI16).be32 8 = some 0xDEADBEEF := by decide +kernel

/-- The state after vector A3, and M32A_VALIDATE pending in it. -/
def afterA3 : State := nextOr (runOn .m32aUpdate 16 8 0 0 0 (buf 0 imageI16))

theorem witness_M32aUpdateThenValidates :
    runOn .m32aUpdate 16 8 0 0 0 (buf 0 imageI16) = .next afterA3 ∧ afterA3.status.err = false ∧
    (∀ a, a < 16 → (busyState (pend .m32aValidate 16 8 0 0 0) afterA3.mem).mem.read a = afterA3.mem.read a) :=
  ⟨next_of_report (by decide +kernel), by decide +kernel, fun _ _ => rfl⟩

theorem witness_M32bRegionReturnsTheChecksum :
    (pend .m32bRegion 0x34 0 8 0 0).x0 % 4 = 0 ∧ (pend .m32bRegion 0x34 0 8 0 0).x1 % 4 = 0 ∧
    (pend .m32bRegion 0x34 0 8 0 0).x0 < (pend .m32bRegion 0x34 0 8 0 0).x1 ∧
    (pend .m32bRegion 0x34 0 8 0 0).x1 ≤ (pend .m32bRegion 0x34 0 8 0 0).len ∧
    wsum (buf 0 imageIB) 0 8 none = some 3 := by decide +kernel

theorem tablePasses_imageIB : tablePasses testBuild (buf 0 imageIB) (pend .m32bTableUpdate 0x34 0x10 3 0 0) := by
  unfold tablePasses entryPasses; decide +kernel

/-- A table of one sentinel: the clauses about no enabled entry. -/
theorem tablePasses_sentinel_only :
    tablePasses testBuild (buf 0 imageIB) (pend .m32bTableValidate 0x34 0x1C 1 0 0) ∧
    enabledEntries testBuild (buf 0 imageIB) 0x1C 1 = [] := by
  unfold tablePasses entryPasses; decide +kernel

theorem fields_imageIB : ∀ i, i < 3 → fieldsWritten testBuild (buf 0 imageIB) 0x10 i := by
  unfold fieldsWritten written; decide +kernel

/-- Two entries with no checksum written: entry 0 over the word at 24, entry 1 over the checksum field of entry 0. -/
def tableUnstored : Memory :=
  ((buf 0 [0, 0, 0, 24, 0, 0, 0, 28]).writeBytes 12 [0, 0, 0, 8, 0, 0, 0, 12]).writeBytes 24 [0, 0, 0, 5]

theorem fields_tableUnstored : ∀ i, i < 2 → fieldsWritten testBuild tableUnstored 0 i := by
  unfold fieldsWritten written; decide +kernel

theorem tablePasses_tableUnstored : tablePasses testBuild tableUnstored (pend .m32bTableUpdate 28 0 2 0 0) := by
  unfold tablePasses entryPasses; decide +kernel

theorem regions_tableUnstored :
    startAt tableUnstored 0 0 = 24 ∧ stopAt tableUnstored 0 0 = 28 ∧ startAt tableUnstored 0 1 = 8 ∧
    stopAt tableUnstored 0 1 = 12 ∧ sentinelAt testBuild tableUnstored 0 0 = false := by decide +kernel

theorem ready_tableUnstored :
    regionReady testBuild tableUnstored 0 0 ∧ regionReady testBuild tableUnstored 0 1 := by
  obtain ⟨h0, h1, h2, h3, hs⟩ := regions_tableUnstored
  refine ⟨fun a ha hb => .inl ?_, fun a ha hb => .inr ⟨0, by omega, hs, by omega, by omega⟩⟩
  have hw : ∀ k, k < 4 → (tableUnstored.read (24 + k)).isSome = true := by decide +kernel
  have := hw (a - 24) (by omega)
  rwa [show 24 + (a - 24) = a by omega] at this

theorem witness_M32bTableUpdateStoresEveryChecksum :
    (pend .m32bTableUpdate 28 0 2 0 0).x1 = 2 ∧
    tablePasses testBuild tableUnstored (pend .m32bTableUpdate 28 0 2 0 0) ∧
    (∀ i, i < 2 → fieldsWritten testBuild tableUnstored 0 i) ∧
    (∀ i, i < 2 → sentinelAt testBuild tableUnstored 0 i = false → regionReady testBuild tableUnstored 0 i) ∧
    sentinelAt testBuild (buf 0 imageIB) 0x10 1 = true := by
  refine ⟨by decide, tablePasses_tableUnstored, fields_tableUnstored, ?_, by decide +kernel⟩
  intro i hi _
  have : i = 0 ∨ i = 1 := by omega
  rcases this with rfl | rfl
  · exact ready_tableUnstored.1
  · exact ready_tableUnstored.2

theorem witness_M32bTableValidateCountsMismatches :
    tablePasses testBuild (buf 0 imageIB) (pend .m32bTableUpdate 0x34 0x10 3 0 0) ∧
    (∀ i, i < 3 → fieldsWritten testBuild (buf 0 imageIB) 0x10 i) ∧
    (∀ i, i < 3 → sentinelAt testBuild (buf 0 imageIB) 0x10 i = false →
      written (buf 0 imageIB) (startAt (buf 0 imageIB) 0x10 i)
        (stopAt (buf 0 imageIB) 0x10 i - startAt (buf 0 imageIB) 0x10 i) ∧
      written (buf 0 imageIB) (0x10 + 12 * i + 8) 4) ∧
    enabledEntries testBuild (buf 0 imageIB) 0x10 3 = [0, 2] ∧ enabledEntries testBuild (buf 0 imageIB) 0x1C 1 = [] :=
  ⟨tablePasses_imageIB, fields_imageIB, by unfold written; decide +kernel, by decide +kernel, by decide +kernel⟩

def afterB5 : State := nextOr (runOn .m32bTableUpdate 0x34 0x10 3 0 0 (buf 0 imageIB))

theorem witness_M32bTableUpdateThenValidates :
    runOn .m32bTableUpdate 0x34 0x10 3 0 0 (buf 0 imageIB) = .next afterB5 ∧ afterB5.status.err = false ∧
    (∀ i j, i ∈ enabledEntries testBuild (buf 0 imageIB) 0x10 3 → j ∈ enabledEntries testBuild (buf 0 imageIB) 0x10 3 →
      i ≤ j → entryAt 0x10 j + 12 ≤ startAt (buf 0 imageIB) 0x10 i ∨ stopAt (buf 0 imageIB) 0x10 i ≤ entryAt 0x10 j + 8) := by
  have he : enabledEntries testBuild (buf 0 imageIB) 0x10 3 = [0, 2] := by decide +kernel
  have h0 : stopAt (buf 0 imageIB) 0x10 0 = 8 := by decide +kernel
  have h2 : stopAt (buf 0 imageIB) 0x10 2 = 12 := by decide +kernel
  refine ⟨next_of_report (by decide +kernel), by decide +kernel, ?_⟩
  intro i j hi _ _
  right
  rw [he] at hi
  simp only [List.mem_cons, List.not_mem_nil, or_false] at hi
  rcases hi with rfl | rfl
  · rw [h0]; simp only [entryAt]; omega
  · rw [h2]; simp only [entryAt]; omega

/-- The clause about a table with no enabled entry: the update of a lone sentinel completes. -/
theorem witness_M32bTableUpdateThenValidates_none_enabled :
    (∃ t, runOn .m32bTableUpdate 0x34 0x1C 1 0 0 (buf 0 imageIB) = .next t ∧ t.status.err = false) ∧
    enabledEntries testBuild (buf 0 imageIB) 0x1C 1 = [] :=
  ⟨⟨_, next_of_report (by decide +kernel), by decide +kernel⟩, by decide +kernel⟩

theorem witness_FrameEncodeWritesTheFrame :
    ([0x10, 0x20, 0x30] : List Byte).length = (pend .frameEncode 0x100 0x68 3 0x67 0).x1 ∧
    0x68 + 3 ≤ (pend .frameEncode 0x100 0x68 3 0x67 0).len ∧ 0x67 + 3 + 2 ≤ (pend .frameEncode 0x100 0x68 3 0x67 0).len ∧
    holds (buf 0x68 [0x10, 0x20, 0x30]) 0x68 [0x10, 0x20, 0x30] :=
  ⟨by decide, by decide, by decide, by unfold holds; decide +kernel⟩

def frameF10 : RawFrame := { pci := 0x02, payload := [0x01, 0x0D], cs := 0x10 }

/-- A frame of length 0 is complete and out of range (R173). -/
def frameEmpty : RawFrame := { pci := 0x00, payload := [], cs := 0x00 }

theorem witness_FrameDecodeAnswersTheFrame :
    (pend .frameDecode 0x100 0x80 0 0x90 0).x1 = 0 ∧
    ((buf 0x80 [0x02, 0x01, 0x0D]).read 0x80 = some 0x02 ∧ 3 < (0x02 : Byte).toNat % 16 + 2) ∧
    frameF10.complete ∧ frameEmpty.complete ∧ frameF10.payload.length + 2 ≤ (pend .frameDecode 0x100 0x80 4 0x90 0).x1 ∧
    holds (buf 0x80 [0x02, 0x01, 0x0D, 0x10]) 0x80 frameF10.bytes ∧ 0xFE + frameF10.payload.length ≤ 0x100 :=
  ⟨by decide, by decide +kernel, by unfold RawFrame.complete; decide, by unfold RawFrame.complete; decide, by decide,
   by unfold holds; decide +kernel, by decide⟩

theorem witness_FrameParseFindsTheFrames :
    (∀ f, f ∈ [frameF10] → f.complete) ∧
    ([frameF10].flatMap RawFrame.bytes ++ [0x03, 0xAA]).length = (pend .frameParse 0x100 0xA0 6 0xC0 4).x1 ∧
    holds (buf 0xA0 [0x02, 0x01, 0x0D, 0x10, 0x03, 0xAA]) 0xA0 ([frameF10].flatMap RawFrame.bytes ++ [0x03, 0xAA]) ∧
    stopsWith [frameF10] [] 1 0 ∧ stopsWith [frameF10] [0x03] 1 2 ∧ stopsWith [frameF10] [0x03, 0xAA] 4 1 := by
  refine ⟨?_, by decide, by unfold holds; decide +kernel, .inl ⟨rfl, rfl⟩, .inr (.inl ⟨by decide, rfl, rfl⟩),
    .inr (.inr ⟨0x03, [0xAA], rfl, by decide, by decide, rfl⟩)⟩
  intro f hf
  rw [List.mem_singleton.mp hf]
  unfold RawFrame.complete
  decide

def afterF2 : State := nextOr (runOn .frameEncode 0x100 0 2 0x10 0 (buf 0 [0x01, 0x0D]))

theorem witness_FrameDecodeOfEncode :
    ([0x01, 0x0D] : List Byte).length = (pend .frameEncode 0x100 0 2 0x10 0).x1 ∧
    holds (buf 0 [0x01, 0x0D]) 0 [0x01, 0x0D] ∧ runOn .frameEncode 0x100 0 2 0x10 0 (buf 0 [0x01, 0x0D]) = .next afterF2 ∧
    afterF2.status.err = false ∧ (pend .frameDecode 0x100 0x10 4 0xFE 0).x0 = (pend .frameEncode 0x100 0 2 0x10 0).x2 ∧
    (pend .frameDecode 0x100 0x10 4 0xFE 0).x1 = (pend .frameEncode 0x100 0 2 0x10 0).x1 + 2 ∧ 0xFE + 2 ≤ 0x100 :=
  ⟨by decide, by unfold holds; decide +kernel, next_of_report (by decide +kernel), by decide +kernel, by decide, by decide,
   by decide⟩

theorem witness_FrameParseOfEncodedFrames :
    (∀ q, q ∈ ([[0x01, 0x0D], [0x3E]] : List (List Byte)) → 1 ≤ q.length ∧ q.length ≤ 7) ∧
    (([[0x01, 0x0D], [0x3E]] : List (List Byte)).flatMap encodeFrame).length = (pend .frameParse 0x100 0xA0 7 0xC0 2).x1 ∧
    holds (buf 0xA0 [0x02, 0x01, 0x0D, 0x10, 0x01, 0x3E, 0x3F]) 0xA0
      (([[0x01, 0x0D], [0x3E]] : List (List Byte)).flatMap encodeFrame) ∧
    0xA0 + 7 ≤ 0x100 ∧ 0xC0 + 8 * 2 ≤ 0x100 :=
  ⟨by decide, by decide, by unfold holds; decide +kernel, by decide, by decide⟩

theorem witness_FrameChecksumDetectsOneChangedByte :
    1 ≤ ([0x01, 0x0D] : List Byte).length ∧ ([0x01, 0x0D] : List Byte).length ≤ 7 ∧
    0 < ([0x01, 0x0D] : List Byte).length ∧ (0x80 : Byte) ≠ 0 ∧ 1 < ([0x01, 0x0D] : List Byte).length ∧ 1 ≠ 0 := by decide

/-- Every flow-control statement asks for a pending command only; the clauses ask for these units. -/
theorem witness_flow_control :
    (fcState .fcExpectCts freshFc).pending = some (pend .fcExpectCts 0 0 0 0 0) ∧
    readReg .fcStatus (fcState .fcExpectCts freshFc) = 0 ∧
    readReg .fcStatus (fcState .fcReceivedCts fcWaiting) = 0x00000101 := by decide +kernel

theorem witness_FcHandleTimeoutCountsAndDecides :
    (fcState .fcHandleTimeout fcError).build.retryOrder = .incThenCmp ∧
    (fcState .fcHandleTimeout { fcError with retryCount := 0xFFFFFFFF }).pending = some (pend .fcHandleTimeout 0 0 0 0 0) ∧
    ({ fcState .fcHandleTimeout fcError with build := { testBuild with retryOrder := .cmpThenInc } }).fc.retryCount.toNat <
      (pend .fcHandleTimeout 0 0 0 0 0).maxRetries.toNat := by decide +kernel

theorem witness_FcRetryIsAcceptedOnce :
    (fcWaiting.state ≠ .idle ∧ fcWaiting.state ≠ .error) ∧ (fcError.state = .error ∧ fcError.exhausted = false) ∧
    (fcExhausted.exhausted = true ∧ testBuild.retryConsume = .firstAllowed ∧ fcExhausted.consumed = false) ∧
    ({ testBuild with retryConsume := .blockOnExhausted } : Build).retryConsume ≠ .firstAllowed := by decide

theorem witness_TimerExpiryMovesToError :
    (armedState [.timer]).fc.timerArmed = true ∧ (armedState [.timer]).agenda = .timer :: [] := ⟨rfl, rfl⟩

/-- FC_INIT completing by itself and by the agenda, a power-on reset and a soft reset each clear the flag. -/
theorem witness_OnlyInitOrResetClearsExhausted :
    (fcState .fcInit fcExhausted).fc.exhausted = true ∧
    regOf (step (fcState .fcInit fcExhausted)) .fcStatus = some 0 ∧
    regOf (step { fcState .fcInit fcExhausted with agenda := [.engine] }) .fcStatus = some 0 ∧
    regOf (step { fcState .fcInit fcExhausted with agenda := [.powerOn] }) .fcStatus = some 0 ∧
    regOf (step { fcState .fcInit fcExhausted with agenda := [.host (.write32 0x008 0x1)] }) .fcStatus = some 0 := by
  decide +kernel

theorem witness_BitsExtractReturnsTheField :
    1 ≤ (pend .bitsExtract 7 0 7 24 32).x3 ∧ (pend .bitsExtract 7 0 7 24 32).x3 ≤ 32 ∧
    (pend .bitsExtract 7 0 7 24 32).x0 + (pend .bitsExtract 7 0 7 24 32).x1 ≤ (pend .bitsExtract 7 0 7 24 32).len ∧
    (pend .bitsExtract 7 0 7 24 32).x2 + (pend .bitsExtract 7 0 7 24 32).x3 ≤ 8 * (pend .bitsExtract 7 0 7 24 32).x1 ∧
    (∀ i, i < 32 → ((buf 0 bitBytes).read (0 + (24 + i) / 8)).isSome = true) := by decide +kernel

theorem witness_BitsExtractLaws :
    (∀ i, i < 9 → bitAt (buf 0 bitBytes) 0 (0 + i) = some ((350 : Nat).testBit (9 - 1 - i))) ∧
    holds (buf 0 bitBytes) (0 + 2) [0x12, 0x34, 0x56, 0x78] ∧
    (extractFrom (buf 0 bitBytes) 0 1 0 0 = some 1 ∧ extractFrom (buf 0 bitBytes) 0 8 (0 + 1) 0 = some 0x5E) :=
  ⟨by decide +kernel, by unfold holds; decide +kernel, by decide +kernel⟩

theorem witness_CommandsWriteOnlyTheirDestinations :
    (report (exec .crc16Compute (crcState []))).isSome = true ∧
    (report (runOn .m32aUpdate 16 6 0 0 0 (buf 0 imageI16))).isSome = true := by decide +kernel

theorem witness_CommandsStoreOnlyWhereTheirRuleSays :
    (report (runOn .m32aUpdate 16 8 0 0 0 (buf 0 imageI16))).isSome = true ∧
    (report (runOn .m32bTableUpdate 0x34 0x10 3 0 0 (buf 0 imageIB))).isSome = true ∧
    (report (runOn .frameEncode 0x100 0 2 0x10 0 (buf 0 [0x01, 0x0D]))).isSome = true ∧
    (report (runOn .frameDecode 0x100 0x80 4 0x90 0 (buf 0x80 [0x02, 0x01, 0x0D, 0x10]))).isSome = true ∧
    (report (runOn .frameParse 0x100 0xA0 4 0xC0 1 (buf 0xA0 [0x02, 0x01, 0x0D, 0x10]))).isSome = true := by
  decide +kernel

theorem not_written_frame : ¬ written (buf 0x80 [0x02, 0x01]) 0x80 4 := fun h => absurd (h 2 (by decide)) (by decide)

theorem not_fields_entry_1 : ¬ fieldsWritten testBuild (buf 0 (imageIB.take 0x1C)) 0x10 1 :=
  fun h => absurd (h.1 0 (by decide)) (by decide +kernel)

/-- Image IB cut before the sentinel's checksum field: the sentinel test of entry 1 needs it (R149). -/
theorem not_fields_sentinel : ¬ fieldsWritten testBuild (buf 0 (imageIB.take 0x24)) 0x10 1 :=
  fun h => absurd (h.2 (by decide +kernel) (by decide +kernel) (by decide +kernel) 0 (by decide)) (by decide +kernel)

theorem before_entry_1 :
    ∀ k, k < 1 → entryPasses testBuild (buf 0 (imageIB.take 0x24)) 0x10 0x34 k ∧
      fieldsWritten testBuild (buf 0 (imageIB.take 0x24)) 0x10 k := by
  unfold entryPasses fieldsWritten written; decide +kernel

/-- One entry whose region [12, 16) was never written. -/
def tableNoRegion : Memory := buf 0 [0, 0, 0, 12, 0, 0, 0, 16]

theorem table_no_region :
    tablePasses testBuild tableNoRegion (pend .m32bTableUpdate 16 0 1 0 0) ∧
    (∀ k, k < 1 → fieldsWritten testBuild tableNoRegion 0 k) ∧ sentinelAt testBuild tableNoRegion 0 0 = false ∧
    startAt tableNoRegion 0 0 = 12 ∧ stopAt tableNoRegion 0 0 = 16 ∧ (tableNoRegion.read 12).isSome = false ∧
    (tableNoRegion.read (0 + 12 * 0 + 8)).isSome = false := by
  unfold tablePasses entryPasses fieldsWritten written; decide +kernel

theorem not_ready_no_region : ¬ regionReady testBuild tableNoRegion 0 0 := by
  obtain ⟨_, _, _, h1, h2, hr, _⟩ := table_no_region
  intro h
  rcases h 12 (by omega) (by omega) with h | ⟨k, hk, _⟩
  · rw [hr] at h; exact absurd h (by decide)
  · omega

theorem not_written_no_region :
    ¬ written tableNoRegion (startAt tableNoRegion 0 0) (stopAt tableNoRegion 0 0 - startAt tableNoRegion 0 0) ∧
    ¬ written tableNoRegion (0 + 12 * 0 + 8) 4 := by
  obtain ⟨_, _, _, h1, h2, hr, hc⟩ := table_no_region
  rw [h1, h2]
  exact ⟨fun h => absurd ((h 0 (by decide)).symm.trans hr) (by decide),
    fun h => absurd ((h 0 (by decide)).symm.trans hc) (by decide)⟩

theorem witness_ReadsOfUnwrittenBytesFault :
    ((buf 4 [0, 0, 0, 1]).read 0 = none ∧ 0 < (4 : Nat)) ∧ ¬ written (buf 0 [1, 2, 3]) 0 4 ∧
    ¬ fieldsWritten testBuild (buf 0 (imageIB.take 0x1C)) 0x10 1 ∧
    ((∀ k, k < 1 → entryPasses testBuild (buf 0 (imageIB.take 0x24)) 0x10 0x34 k ∧
      fieldsWritten testBuild (buf 0 (imageIB.take 0x24)) 0x10 k) ∧
      ¬ fieldsWritten testBuild (buf 0 (imageIB.take 0x24)) 0x10 1) ∧
    (tablePasses testBuild tableNoRegion (pend .m32bTableUpdate 16 0 1 0 0) ∧
      (∀ k, k < 1 → fieldsWritten testBuild tableNoRegion 0 k) ∧ sentinelAt testBuild tableNoRegion 0 0 = false ∧
      ¬ regionReady testBuild tableNoRegion 0 0 ∧
      ¬ written tableNoRegion (startAt tableNoRegion 0 0) (stopAt tableNoRegion 0 0 - startAt tableNoRegion 0 0) ∧
      ¬ written tableNoRegion (0 + 12 * 0 + 8) 4) ∧
    ((buf 0x80 [0x02, 0x01]).read 0x80 = some 0x02 ∧ 0xFE + (0x02 : Byte).toNat % 16 ≤ 0x100 ∧
      0x100 < 0xFF + (0x02 : Byte).toNat % 16 ∧ ¬ written (buf 0x80 [0x02, 0x01]) 0x80 4) ∧
    (buf 1 [0]).read (0 + (0 + 7) / 8) = none :=
  ⟨by decide, not_written_word, not_fields_entry_1, ⟨before_entry_1, not_fields_sentinel⟩,
   ⟨table_no_region.1, table_no_region.2.1, table_no_region.2.2.1, not_ready_no_region, not_written_no_region.1,
    not_written_no_region.2⟩, ⟨by decide, by decide, by decide, not_written_frame⟩, by decide⟩

theorem witness_CommandsTouchOnlyBytesBelowTheLatchedLength :
    (crcState []).pending = some (pend .crc16Compute 9 0 9 0 0) ∧
    (∀ a, a < 9 → ((buf 0 check9).write 9 0xAA).read a = (buf 0 check9).read a) ∧
    (report (exec .crc16Compute (crcState []))).isSome = true := by decide +kernel

/-- The state of vector S1 meets the invariants, and its step answers a next state. -/
theorem witness_StepKeepsInvariants :
    reportInvariant (crcState []) ∧ fcInvariant (crcState []) ∧ (report (step (crcState []))).isSome = true := by
  unfold reportInvariant fcInvariant; decide +kernel

theorem witness_StepKeepsBufInvariant : bufInvariant (crcState []) := by
  refine ⟨by decide +kernel, by decide +kernel, by decide +kernel, by decide +kernel, ?_⟩
  intro p hp
  cases hp
  decide +kernel

end Sys2Proof.Tests
end

section
/-! SUPPORT. How a command's pseudocode can end early (60_exceptions.md R250, R252, R255; 10_state.md R28, R43): every
raise names the entry index only for a table entry, and the only fault is `uninitRead`. -/

namespace Sys2Proof.Machine

/-- An early end a command may have: an error report as R28 has them, or a read of an unwritten byte (R43). -/
def Stop.legal : Stop → Prop
  | .raise e => e.culprit ≠ .tableEntry → e.entry = 0
  | .fault f => f = .uninitRead

/-- Every early end of this pseudocode is a legal one. -/
structure Cmd.StopsLegally {α : Type} (c : Cmd α) : Prop where
  legal : ∀ e, c = .error e → e.legal

theorem Cmd.stopsLegally_ok {α : Type} (v : α) : Cmd.StopsLegally (.ok v) := ⟨fun _ h => by cases h⟩

theorem Cmd.stopsLegally_uninitRead {α : Type} : Cmd.StopsLegally (.error (.fault .uninitRead) : Cmd α) :=
  ⟨fun _ h => by cases h; rfl⟩

theorem Cmd.stopsLegally_bind {α β : Type} {c : Cmd α} {f : α → Cmd β} (hc : c.StopsLegally)
    (hf : ∀ a, (f a).StopsLegally) : Cmd.StopsLegally (c >>= f) := by
  cases c with
  | ok a => exact hf a
  | error e => exact ⟨fun _ h => by cases h; exact hc.legal e rfl⟩

theorem stopsLegally_ofRead {α : Type} (o : Option α) : (ofRead o).StopsLegally := by
  cases o with
  | none => exact Cmd.stopsLegally_uninitRead
  | some v => exact Cmd.stopsLegally_ok v

theorem stopsLegally_raiseIfAt_tableEntry (bad : Bool) (code : ErrCode) (i : BitVec 24) :
    (raiseIfAt bad code .tableEntry i).StopsLegally := by
  cases bad with
  | false => exact Cmd.stopsLegally_ok ()
  | true => exact ⟨fun _ h => by cases h; exact fun hne => absurd rfl hne⟩

theorem stopsLegally_raiseIf (bad : Bool) (code : ErrCode) (culprit : Culprit) :
    (raiseIf bad code culprit).StopsLegally := by
  cases bad with
  | false => exact Cmd.stopsLegally_ok ()
  | true => exact ⟨fun _ h => by cases h; exact fun _ => rfl⟩

/-- A read whose value goes into a state. -/
theorem Cmd.stopsLegally_bind_ok {α β : Type} {c : Cmd α} {f : α → β} (hc : c.StopsLegally) :
    Cmd.StopsLegally (c >>= fun a => .ok (f a)) :=
  Cmd.stopsLegally_bind hc fun a => Cmd.stopsLegally_ok (f a)

/-! ### The operand checks -/

theorem stopsLegally_crcChecks (p : Pending) : (crcChecks p).StopsLegally :=
  Cmd.stopsLegally_bind (stopsLegally_raiseIf ..) fun _ => stopsLegally_raiseIf ..

theorem stopsLegally_m32aChecks (p : Pending) : (m32aChecks p).StopsLegally :=
  Cmd.stopsLegally_bind (stopsLegally_raiseIf ..) fun _ =>
    Cmd.stopsLegally_bind (stopsLegally_raiseIf ..) fun _ => stopsLegally_raiseIf ..

theorem stopsLegally_m32bRegionChecks (p : Pending) : (m32bRegionChecks p).StopsLegally :=
  Cmd.stopsLegally_bind (stopsLegally_raiseIf ..) fun _ =>
    Cmd.stopsLegally_bind (stopsLegally_raiseIf ..) fun _ =>
      Cmd.stopsLegally_bind (stopsLegally_raiseIf ..) fun _ => stopsLegally_raiseIf ..

theorem stopsLegally_tableOperandChecks (p : Pending) : (tableOperandChecks p).StopsLegally :=
  Cmd.stopsLegally_bind (stopsLegally_raiseIf ..) fun _ => stopsLegally_raiseIf ..

theorem stopsLegally_frameEncodeChecks (p : Pending) : (frameEncodeChecks p).StopsLegally :=
  Cmd.stopsLegally_bind (stopsLegally_raiseIf ..) fun _ =>
    Cmd.stopsLegally_bind (stopsLegally_raiseIf ..) fun _ => stopsLegally_raiseIf ..

theorem stopsLegally_frameParseChecks (p : Pending) : (frameParseChecks p).StopsLegally :=
  Cmd.stopsLegally_bind (stopsLegally_raiseIf ..) fun _ => stopsLegally_raiseIf ..

theorem stopsLegally_bitsChecks (p : Pending) : (bitsChecks p).StopsLegally :=
  Cmd.stopsLegally_bind (stopsLegally_raiseIf ..) fun _ =>
    Cmd.stopsLegally_bind (stopsLegally_raiseIf ..) fun _ =>
      Cmd.stopsLegally_bind (stopsLegally_raiseIf ..) fun _ => stopsLegally_raiseIf ..

theorem stopsLegally_entryChecks (len i start stop : Nat) : (entryChecks len i start stop).StopsLegally :=
  Cmd.stopsLegally_bind (stopsLegally_raiseIfAt_tableEntry ..) fun _ =>
    Cmd.stopsLegally_bind (stopsLegally_raiseIfAt_tableEntry ..) fun _ => stopsLegally_raiseIfAt_tableEntry ..

/-! ### The loops over a table -/

theorem stopsLegally_sentinelOf (b : Build) (m : Memory) (t i : Nat) (start stop : Word) :
    (sentinelOf b m t i start stop).StopsLegally := by
  unfold sentinelOf
  split
  · split
    · exact Cmd.stopsLegally_ok _
    · split
      · exact Cmd.stopsLegally_ok _
      · exact Cmd.stopsLegally_uninitRead
  · exact Cmd.stopsLegally_ok _

theorem stopsLegally_readEntry (b : Build) (m : Memory) (t i : Nat) : (readEntry b m t i).StopsLegally :=
  Cmd.stopsLegally_bind (stopsLegally_ofRead _) fun _ =>
    Cmd.stopsLegally_bind (stopsLegally_ofRead _) fun _ => Cmd.stopsLegally_bind_ok (stopsLegally_sentinelOf ..)

theorem stopsLegally_checkEntries (b : Build) (m : Memory) (t len n i : Nat) :
    (checkEntries b m t len n i).StopsLegally := by
  induction n generalizing i with
  | zero => exact Cmd.stopsLegally_ok ()
  | succ n ih =>
    refine Cmd.stopsLegally_bind (stopsLegally_readEntry ..) fun ⟨start, stop, sentinel⟩ => ?_
    cases sentinel with
    | true => exact ih (i + 1)
    | false => exact Cmd.stopsLegally_bind (stopsLegally_entryChecks ..) fun _ => ih (i + 1)

theorem stopsLegally_tableChecks (p : Pending) (s : State) : (tableChecks p s).StopsLegally :=
  Cmd.stopsLegally_bind (stopsLegally_tableOperandChecks p) fun _ => stopsLegally_checkEntries ..

theorem stopsLegally_updateEntries (b : Build) (t n i : Nat) (m : Memory) (u : Nat) :
    (updateEntries b t n i m u).StopsLegally := by
  induction n generalizing i m u with
  | zero => exact Cmd.stopsLegally_ok _
  | succ n ih =>
    refine Cmd.stopsLegally_bind (stopsLegally_readEntry ..) fun ⟨start, stop, sentinel⟩ => ?_
    cases sentinel with
    | true => exact ih (i + 1) m u
    | false => exact Cmd.stopsLegally_bind (stopsLegally_ofRead _) fun _ => ih ..

theorem stopsLegally_validateEntries (b : Build) (m : Memory) (t n i mis en : Nat) :
    (validateEntries b m t n i mis en).StopsLegally := by
  induction n generalizing i mis en with
  | zero => exact Cmd.stopsLegally_ok _
  | succ n ih =>
    refine Cmd.stopsLegally_bind (stopsLegally_readEntry ..) fun ⟨start, stop, sentinel⟩ => ?_
    cases sentinel with
    | true => exact ih (i + 1) mis en
    | false =>
      exact Cmd.stopsLegally_bind (stopsLegally_ofRead _) fun _ =>
        Cmd.stopsLegally_bind (stopsLegally_ofRead _) fun _ => ih ..

/-! ### The commands -/

theorem stopsLegally_regionCrc (p : Pending) (s : State) : (regionCrc p s).StopsLegally :=
  Cmd.stopsLegally_bind (stopsLegally_crcChecks p) fun _ => Cmd.stopsLegally_bind_ok (stopsLegally_ofRead _)

theorem stopsLegally_m32aSum (p : Pending) (s : State) : (m32aSum p s).StopsLegally :=
  Cmd.stopsLegally_bind (stopsLegally_m32aChecks p) fun _ => stopsLegally_ofRead _

theorem stopsLegally_frameDecodeBody (p : Pending) (s : State) : (frameDecodeBody p s).StopsLegally := by
  refine Cmd.stopsLegally_bind (stopsLegally_raiseIf ..) fun _ => ?_
  split
  · exact Cmd.stopsLegally_ok _
  · refine Cmd.stopsLegally_bind (stopsLegally_ofRead _) fun pci => ?_
    split
    · exact Cmd.stopsLegally_ok _
    · refine Cmd.stopsLegally_bind (stopsLegally_ofRead _) fun bytes => ?_
      split
      · exact Cmd.stopsLegally_ok _
      · exact Cmd.stopsLegally_bind_ok (stopsLegally_raiseIf ..)

/-- Every command ends early only in a legal way. -/
theorem stopsLegally_bodyOf (i : Instr) (p : Pending) (s : State) : (bodyOf i p s).StopsLegally := by
  cases i with
  | nop | fcExpectCts | fcReceivedCts | fcReset | fcToIdle | fcInit => exact Cmd.stopsLegally_ok _
  | fcHandleTimeout => simp only [bodyOf, fcHandleTimeoutBody]; split <;> exact Cmd.stopsLegally_ok _
  | fcRetry => simp only [bodyOf, fcRetryBody]; split <;> exact Cmd.stopsLegally_ok _
  | crc16Compute | crc16Check => exact Cmd.stopsLegally_bind_ok (stopsLegally_regionCrc p s)
  | m32aCompute | m32aUpdate => exact Cmd.stopsLegally_bind_ok (stopsLegally_m32aSum p s)
  | m32aValidate =>
    exact Cmd.stopsLegally_bind (stopsLegally_m32aSum p s) fun _ => Cmd.stopsLegally_bind_ok (stopsLegally_ofRead _)
  | m32bRegion =>
    exact Cmd.stopsLegally_bind (stopsLegally_m32bRegionChecks p) fun _ =>
      Cmd.stopsLegally_bind_ok (stopsLegally_ofRead _)
  | m32bTableUpdate =>
    exact Cmd.stopsLegally_bind (stopsLegally_tableChecks p s) fun _ =>
      Cmd.stopsLegally_bind_ok (stopsLegally_updateEntries ..)
  | m32bTableValidate =>
    exact Cmd.stopsLegally_bind (stopsLegally_tableChecks p s) fun _ =>
      Cmd.stopsLegally_bind_ok (stopsLegally_validateEntries ..)
  | frameEncode =>
    exact Cmd.stopsLegally_bind (stopsLegally_frameEncodeChecks p) fun _ =>
      Cmd.stopsLegally_bind_ok (stopsLegally_ofRead _)
  | frameDecode => exact stopsLegally_frameDecodeBody p s
  | frameParse =>
    exact Cmd.stopsLegally_bind (stopsLegally_frameParseChecks p) fun _ =>
      Cmd.stopsLegally_bind_ok (stopsLegally_ofRead _)
  | bitsExtract =>
    exact Cmd.stopsLegally_bind (stopsLegally_bitsChecks p) fun _ =>
      Cmd.stopsLegally_bind_ok (stopsLegally_ofRead _)

/-! ### What `exec` answers -/

/-- A command that answers a next state completed its pseudocode's state, or raised a legal error on the state it
found (R252, R258). -/
theorem exec_next {i : Instr} {s t : State} (h : exec i s = .next t) :
    ∃ p, s.pending = some p ∧
      ((∃ u, bodyOf i p s = .ok u ∧ t = u.complete none) ∨
       (∃ e, bodyOf i p s = .error (.raise e) ∧ (e.culprit ≠ .tableEntry → e.entry = 0) ∧
         t = s.complete (some e))) := by
  rw [exec_eq] at h
  obtain ⟨p, hp, hok | ⟨e, he, ht⟩⟩ := State.runCommand_next h
  · exact ⟨p, hp, .inl hok⟩
  · exact ⟨p, hp, .inr ⟨e, he, (stopsLegally_bodyOf i p s).legal _ he, ht⟩⟩

theorem exec_not_refused (i : Instr) (s : State) (r : Refusal) : exec i s ≠ .refused r := by
  rw [exec_eq]; exact State.runCommand_not_refused s _ r

/-- A pending command faults only for an unwritten byte (R43, R255). -/
theorem exec_fault {i : Instr} {s : State} {p : Pending} {f : Fault} (hp : s.pending = some p)
    (h : exec i s = .fault f) : f = .uninitRead := by
  rw [exec_eq] at h
  cases hb : bodyOf i p s with
  | ok u => rw [State.runCommand_ok hp hb] at h; cases h
  | error e =>
    have hlegal := (stopsLegally_bodyOf i p s).legal e hb
    cases e with
    | raise e => rw [State.runCommand_raise hp hb] at h; cases h
    | fault g => rw [State.runCommand_fault hp hb] at h; cases h; exact hlegal

end Sys2Proof.Machine
end

section
/-! SUPPORT. What the pseudocode of a command leaves alone, and where it stores: frames per family of commands
(30_encoding.md R96; 20_memory.md R60, R68). -/

namespace Sys2Proof.Machine

/-! ### Registers kept by an update -/

theorem sameRegsExcept_setMem (l : List RegName) (s : State) (m : Memory) : sameRegsExcept l s (s.setMem m) :=
  fun r _ => readReg_setMem s m r

theorem sameRegsExcept_setRes {l : List RegName} {s : State} {x : Results} (h0 : .res0 ∈ l ∨ x.r0 = s.res.r0)
    (h1 : .res1 ∈ l ∨ x.r1 = s.res.r1) (h2 : .res2 ∈ l ∨ x.r2 = s.res.r2) : sameRegsExcept l s (s.setRes x) := by
  intro r hr
  by_cases hres : r ∈ [RegName.res0, .res1, .res2]
  · simp only [List.mem_cons, List.not_mem_nil, or_false] at hres
    rcases hres with rfl | rfl | rfl
    · exact h0.resolve_left hr
    · exact h1.resolve_left hr
    · exact h2.resolve_left hr
  · exact readReg_setRes s x r hres

theorem sameRegsExcept_setFc {l : List RegName} {s : State} {x : FcUnit} (hs : .fcStatus ∈ l)
    (hc : .fcRetryCount ∈ l ∨ x.retryCount = s.fc.retryCount) : sameRegsExcept l s (s.setFc x) := by
  intro r hr
  by_cases hfc : r ∈ [RegName.fcStatus, .fcRetryCount]
  · simp only [List.mem_cons, List.not_mem_nil, or_false] at hfc
    rcases hfc with rfl | rfl
    · exact absurd hs hr
    · exact hc.resolve_left hr
  · exact readReg_setFc s x r hfc

theorem sameRegsExcept.trans {l : List RegName} {s t u : State} (h : sameRegsExcept l s t)
    (h' : sameRegsExcept l t u) : sameRegsExcept l s u := fun r hr => (h' r hr).trans (h r hr)

theorem sameRegsExcept_setMem_setRes {l : List RegName} {s : State} {m : Memory} {x : Results}
    (h : sameRegsExcept l s (s.setRes x)) : sameRegsExcept l s ((s.setMem m).setRes x) :=
  sameRegsExcept.trans h (sameRegsExcept_setMem l (s.setRes x) m)

/-! ### The frame of the pseudocode -/

/-- What the pseudocode of a command leaves as it found it (R68, R96): all but its destinations, BUF for a storing
command, the flow-control unit for a command of that family, and the timer's latch for FC_EXPECT_CTS. -/
structure BodyFrame (i : Instr) (s u : State) : Prop where
  regs : sameRegsExcept (destinations i) s u
  status : u.status = s.status
  errInfo : u.errInfo = s.errInfo
  intStatus : u.intStatus = s.intStatus
  outside : sameOutside s u
  timerLatch : i ≠ .fcExpectCts → u.timerLatch = s.timerLatch
  fc : flowControl i = false → u.fc = s.fc
  mem : storing i = false → u.mem = s.mem

/-- A command that writes results only. -/
theorem BodyFrame.of_setRes {i : Instr} {s : State} {x : Results}
    (h : sameRegsExcept (destinations i) s (s.setRes x)) : BodyFrame i s (s.setRes x) :=
  ⟨h, rfl, rfl, rfl, ⟨rfl, rfl, rfl⟩, fun _ => rfl, fun _ => rfl, fun _ => rfl⟩

/-- A command that stores and writes results. -/
theorem BodyFrame.of_store {i : Instr} {s : State} {m : Memory} {x : Results} (hst : storing i = true)
    (h : sameRegsExcept (destinations i) s (s.setRes x)) : BodyFrame i s ((s.setMem m).setRes x) :=
  ⟨sameRegsExcept_setMem_setRes h, rfl, rfl, rfl, ⟨rfl, rfl, rfl⟩, fun _ => rfl, fun _ => rfl,
    fun hn => by simp [hst] at hn⟩

/-- A flow-control command that writes its unit only. -/
theorem BodyFrame.of_setFc {i : Instr} {s : State} {x : FcUnit} (hf : flowControl i = true)
    (h : sameRegsExcept (destinations i) s (s.setFc x)) : BodyFrame i s (s.setFc x) :=
  ⟨h, rfl, rfl, rfl, ⟨rfl, rfl, rfl⟩, fun _ => rfl, fun hn => by simp [hf] at hn, fun _ => rfl⟩

/-- A flow-control command that writes its unit and results. -/
theorem BodyFrame.of_setFc_setRes {i : Instr} {s : State} {f : FcUnit} {x : Results} (hf : flowControl i = true)
    (hu : sameRegsExcept (destinations i) s (s.setFc f))
    (hr : sameRegsExcept (destinations i) (s.setFc f) ((s.setFc f).setRes x)) :
    BodyFrame i s ((s.setFc f).setRes x) :=
  ⟨hu.trans hr, rfl, rfl, rfl, ⟨rfl, rfl, rfl⟩, fun _ => rfl, fun hn => by simp [hf] at hn, fun _ => rfl⟩

theorem bodyFrame_fcExpectCts (p : Pending) (s : State) :
    BodyFrame .fcExpectCts s
      ((s.setTimerLatch p.timeoutMs).setFc { s.fc with timerArmed := true, state := .waitingCts }) :=
  have hl : sameRegsExcept (destinations .fcExpectCts) s (s.setTimerLatch p.timeoutMs) :=
    fun r _ => readReg_setTimerLatch s p.timeoutMs r
  ⟨hl.trans (sameRegsExcept_setFc (by decide) (.inr rfl)), rfl, rfl, rfl, ⟨rfl, rfl, rfl⟩, fun hn => absurd rfl hn,
    fun hn => by simp [flowControl] at hn, fun _ => rfl⟩

theorem bodyFrame_fcHandleTimeout {p : Pending} {s u : State} (h : fcHandleTimeoutBody p s = .ok u) :
    BodyFrame .fcHandleTimeout s u := by
  unfold fcHandleTimeoutBody at h
  split at h <;> cases h <;>
    exact BodyFrame.of_setFc_setRes rfl (sameRegsExcept_setFc (by decide) (.inl (by decide)))
      (sameRegsExcept_setRes (.inl (by decide)) (.inr rfl) (.inr rfl))

theorem bodyFrame_fcRetry {p : Pending} {s u : State} (h : fcRetryBody p s = .ok u) : BodyFrame .fcRetry s u := by
  unfold fcRetryBody at h
  split at h
  · cases h
    exact BodyFrame.of_setFc_setRes rfl (sameRegsExcept_setFc (by decide) (.inr rfl))
      (sameRegsExcept_setRes (.inl (by decide)) (.inr rfl) (.inr rfl))
  · cases h
    exact BodyFrame.of_setRes (sameRegsExcept_setRes (.inl (by decide)) (.inr rfl) (.inr rfl))

theorem bodyFrame_frameDecode {p : Pending} {s u : State} (h : frameDecodeBody p s = .ok u) :
    BodyFrame .frameDecode s u := by
  have hres : ∀ x, sameRegsExcept (destinations .frameDecode) s (s.setRes x) := fun x =>
    sameRegsExcept_setRes (.inl (by decide)) (.inl (by decide)) (.inl (by decide))
  obtain ⟨-, ⟨-, rfl⟩ | ⟨-, pci, -, ⟨-, rfl⟩ | ⟨-, bytes, f, -, -, -, -, rfl⟩⟩⟩ := (frameDecodeBody_ok p s u).mp h
  · exact .of_setRes (hres _)
  · exact .of_setRes (hres _)
  · exact .of_store rfl (hres _)

/-- The frame of every command's pseudocode (R68, R96, R201–R209). -/
theorem bodyOf_frame {i : Instr} {p : Pending} {s u : State} (h : bodyOf i p s = .ok u) : BodyFrame i s u := by
  cases i with
  | nop => cases h; exact .of_setRes (x := s.res) fun _ _ => rfl
  | fcExpectCts => cases h; exact bodyFrame_fcExpectCts p s
  | fcReceivedCts => cases h; exact .of_setFc rfl (sameRegsExcept_setFc (by decide) (.inr rfl))
  | fcHandleTimeout => exact bodyFrame_fcHandleTimeout h
  | fcRetry => exact bodyFrame_fcRetry (p := p) h
  | fcReset | fcToIdle | fcInit =>
    cases h; exact .of_setFc rfl (sameRegsExcept_setFc (by decide) (.inl (by decide)))
  | crc16Compute =>
    obtain ⟨c, -, rfl⟩ := (crc16ComputeBody_ok p s u).mp h
    exact .of_setRes (sameRegsExcept_setRes (.inl (by decide)) (.inr rfl) (.inr rfl))
  | crc16Check =>
    obtain ⟨c, -, rfl⟩ := (crc16CheckBody_ok p s u).mp h
    exact .of_setRes (sameRegsExcept_setRes (.inl (by decide)) (.inl (by decide)) (.inr rfl))
  | m32aCompute =>
    obtain ⟨sum, -, rfl⟩ := (m32aComputeBody_ok p s u).mp h
    exact .of_setRes (sameRegsExcept_setRes (.inl (by decide)) (.inl (by decide)) (.inr rfl))
  | m32aUpdate =>
    obtain ⟨sum, -, rfl⟩ := (m32aUpdateBody_ok p s u).mp h
    exact .of_store rfl (sameRegsExcept_setRes (.inl (by decide)) (.inl (by decide)) (.inr rfl))
  | m32aValidate =>
    obtain ⟨sum, -, stored, -, rfl⟩ := (m32aValidateBody_ok p s u).mp h
    exact .of_setRes (sameRegsExcept_setRes (.inl (by decide)) (.inl (by decide)) (.inl (by decide)))
  | m32bRegion =>
    obtain ⟨-, w, -, rfl⟩ := (m32bRegionBody_ok p s u).mp h
    exact .of_setRes (sameRegsExcept_setRes (.inl (by decide)) (.inl (by decide)) (.inr rfl))
  | m32bTableUpdate =>
    obtain ⟨-, m, n, -, rfl⟩ := (m32bTableUpdateBody_ok p s u).mp h
    exact .of_store rfl (sameRegsExcept_setRes (.inl (by decide)) (.inr rfl) (.inr rfl))
  | m32bTableValidate =>
    obtain ⟨-, mis, en, -, rfl⟩ := (m32bTableValidateBody_ok p s u).mp h
    exact .of_setRes (sameRegsExcept_setRes (.inl (by decide)) (.inl (by decide)) (.inr rfl))
  | frameEncode =>
    obtain ⟨-, payload, -, rfl⟩ := (frameEncodeBody_ok p s u).mp h
    exact .of_store rfl (sameRegsExcept_setRes (.inl (by decide)) (.inl (by decide)) (.inr rfl))
  | frameDecode => exact bodyFrame_frameDecode h
  | frameParse =>
    obtain ⟨-, bytes, -, rfl⟩ := (frameParseBody_ok p s u).mp h
    exact .of_store rfl (sameRegsExcept_setRes (.inl (by decide)) (.inl (by decide)) (.inl (by decide)))
  | bitsExtract =>
    obtain ⟨-, v, -, rfl⟩ := (bitsExtractBody_ok p s u).mp h
    exact .of_setRes (sameRegsExcept_setRes (.inl (by decide)) (.inr rfl) (.inr rfl))

/-! ### BUF stays inside a length -/

/-- BUF is canonical and holds no byte at or above `n` (R41, R60). -/
structure Memory.Inside (m : Memory) (n : Nat) : Prop where
  wf : m.wf
  below : ∀ c, c ∈ m → c.1 < n

theorem Memory.Inside.writeBytes {m : Memory} {n a : Nat} {vs : List Byte} (h : m.Inside n) (ha : a + vs.length ≤ n) :
    (m.writeBytes a vs).Inside n where
  wf := Memory.wf_writeBytes h.wf a vs
  below c hc := by
    rcases Memory.mem_writeBytes m a vs c hc with hin | hold
    · omega
    · exact h.below c hold

theorem Memory.Inside.wrBe32 {m : Memory} {n a : Nat} {v : Word} (h : m.Inside n) (ha : a + 4 ≤ n) :
    (m.wrBe32 a v).Inside n := h.writeBytes ha

/-- The update loop stores inside the table (R151). -/
theorem updateEntries_inside {b : Build} {t len n i u : Nat} {m : Memory} (hm : m.Inside len)
    (ht : t + 12 * (i + n) ≤ len) {x : Memory × Nat} (h : updateEntries b t n i m u = .ok x) : x.1.Inside len := by
  induction n generalizing i m u with
  | zero => cases h; exact hm
  | succ n ih =>
    obtain ⟨⟨start, stop, sentinel⟩, -, h⟩ := Cmd.bind_eq_ok h
    cases sentinel with
    | true => exact ih hm (by omega) h
    | false =>
      obtain ⟨c, -, h⟩ := Cmd.bind_eq_ok h
      exact ih (hm.wrBe32 (by unfold entryAt; omega)) (by omega) h

theorem encodeFrame_length (payload : List Byte) : (encodeFrame payload).length = payload.length + 2 := by
  simp [encodeFrame]

/-- A decoded payload is no longer than the length the frame claims (R173). -/
theorem fdec_payload_length_le {bytes : List Byte} {f : DecodedFrame} (h : fdec bytes = some f) :
    f.payload.length ≤ f.len := by
  cases bytes with
  | nil => cases h
  | cons pci rest =>
    simp only [fdec] at h
    split at h
    · cases h
    · cases h; exact List.length_take_le _ _

theorem descriptor_length (a : Nat) (f : DecodedFrame) : (descriptor a f).length = 8 := rfl

theorem descriptorBytes_length (a : Nat) (frames : List (Nat × DecodedFrame)) :
    (descriptorBytes a frames).length = 8 * frames.length := by
  induction frames with
  | nil => rfl
  | cons f frames ih =>
    rw [descriptorBytes, List.flatMap_cons, List.length_append, descriptor_length, ← descriptorBytes, ih,
      List.length_cons]
    omega

/-- The parser finds no more frames than it has descriptors (R176). -/
theorem parseFrames_length_le (fuel : Nat) (bytes : List Byte) (room pos : Nat) :
    (parseFrames fuel bytes room pos).frames.length ≤ room := by
  induction fuel generalizing bytes room pos with
  | zero => exact Nat.zero_le _
  | succ fuel ih =>
    cases bytes with
    | nil => rw [parseFrames_nil]; exact Nat.zero_le _
    | cons b rest =>
      cases room with
      | zero => rw [parseFrames_limit]; exact Nat.le_refl _
      | succ room =>
        cases hf : fdec (b :: rest) with
        | none => rw [parseFrames_short _ _ _ _ _ hf]; exact Nat.zero_le _
        | some f => rw [parseFrames_frame _ _ _ _ _ _ hf]; exact Nat.succ_le_succ (ih ..)

/-- Every command keeps BUF canonical and inside any length that holds BUF and the latched length (R60). -/
theorem bodyOf_inside {i : Instr} {p : Pending} {s u : State} {n : Nat} (hm : s.mem.Inside n) (hp : p.len ≤ n)
    (h : bodyOf i p s = .ok u) : u.mem.Inside n := by
  by_cases hst : storing i = false
  · rw [(bodyOf_frame h).mem hst]; exact hm
  cases i with
  | m32aUpdate =>
    obtain ⟨sum, hsum, rfl⟩ := (m32aUpdateBody_ok p s u).mp h
    obtain ⟨-, -, hfit, -⟩ := (m32aSum_ok p s sum).mp hsum
    exact hm.wrBe32 (by omega)
  | m32bTableUpdate =>
    obtain ⟨hc, m, k, hloop, rfl⟩ := (m32bTableUpdateBody_ok p s u).mp h
    obtain ⟨⟨-, hfit⟩, -⟩ := (tableChecks_ok p s ()).mp hc
    exact updateEntries_inside hm (by omega) hloop
  | frameEncode =>
    obtain ⟨⟨-, -, hfit⟩, payload, hread, rfl⟩ := (frameEncodeBody_ok p s u).mp h
    obtain ⟨hlen, -⟩ := (Memory.readBytes_eq_some _ _ _ _).mp hread
    exact hm.writeBytes (by rw [encodeFrame_length]; omega)
  | frameDecode =>
    obtain ⟨-, ⟨-, rfl⟩ | ⟨-, pci, -, ⟨-, rfl⟩ | ⟨-, bytes, f, -, hf, -, hfit, rfl⟩⟩⟩ :=
      (frameDecodeBody_ok p s u).mp h
    · exact hm
    · exact hm
    · have hpay := fdec_payload_length_le hf
      exact hm.writeBytes (by omega)
  | frameParse =>
    obtain ⟨⟨-, hfit⟩, bytes, -, rfl⟩ := (frameParseBody_ok p s u).mp h
    have hroom : (parseStream bytes p.x3).frames.length ≤ p.x3 := parseFrames_length_le ..
    exact hm.writeBytes (by rw [descriptorBytes_length]; omega)
  | nop | crc16Compute | crc16Check | m32aCompute | m32aValidate | m32bRegion | m32bTableValidate | fcExpectCts
  | fcReceivedCts | fcHandleTimeout | fcRetry | fcReset | fcToIdle | fcInit | bitsExtract => exact absurd rfl hst

end Sys2Proof.Machine
end

section
/-! SUPPORT. What one step can do, said once (20_memory.md R64–R72): the address map at the places the statements name,
the outcomes of a host access, and the moves of a step. -/

namespace Sys2Proof.Machine

/-! ### The address map -/

/-- The map of R22 is the one the bus decodes. -/
theorem busTarget_register {r : RegName} {off : Word} (h : (r, off) ∈ registerMap) (b : Build) :
    busTarget b .w32 off = .register r := by
  have hmap : ∀ x ∈ registerMap, x.2.toNat < regBlockSize ∧ x.2.toNat % 4 = 0 ∧ regAt x.2.toNat = some x.1 := by
    decide
  obtain ⟨hlt, hal, hat⟩ := hmap _ h
  simp only at hlt hal hat
  simp [busTarget, regTarget, hlt, hal, hat]

/-- Every register has its row in the map of R22. -/
theorem mem_registerMap (r : RegName) : (r, wordOf r.offset) ∈ registerMap := by cases r <;> decide

/-- A word of the register block with no row in the map is reserved (R22). -/
theorem busTarget_reserved {off : Word} (hlt : off.toNat < 0x100) (hal : off.toNat % 4 = 0)
    (h : ∀ r, (r, off) ∉ registerMap) (b : Build) : busTarget b .w32 off = .reservedReg := by
  have hat : regAt off.toNat = none := by
    refine List.find?_eq_none.mpr fun r _ he => h r ?_
    have hoff : wordOf r.offset = off := by
      rw [wordOf, eq_of_beq he, BitVec.ofNat_toNat, BitVec.setWidth_eq]
    exact hoff ▸ mem_registerMap r
  simp [busTarget, regTarget, regBlockSize, hlt, hal, hat]

theorem Build.wellFormed_bufSize {b : Build} (h : b.wellFormed = true) :
    b.bufSize.toNat % 4 = 0 ∧ 16 ≤ b.bufSize.toNat ∧ b.bufSize.toNat ≤ 0x01000000 := by
  simpa [Build.wellFormed, and_assoc] using h

/-- The BUF window of a legal build (R64). -/
theorem busTarget_window {b : Build} {a : Nat} (hb : b.wellFormed = true) (ha : a < b.bufSize.toNat) (width : Width) :
    busTarget b width (BitVec.ofNat 32 (0x01000000 + a)) = bufTarget width a := by
  obtain ⟨-, -, hmax⟩ := Build.wellFormed_bufSize hb
  have hoff : (BitVec.ofNat 32 (0x01000000 + a)).toNat = 0x01000000 + a := by
    rw [BitVec.toNat_ofNat]; omega
  simp only [busTarget, hoff, regBlockSize, bufWindowBase]
  rw [if_neg (by omega), if_pos (by omega), Nat.add_sub_cancel_left]

theorem bufTarget_byte (a : Nat) : bufTarget .w8 a = .bufByte a := rfl

theorem bufTarget_word {a : Nat} (ha : a % 4 = 0) : bufTarget .w32 a = .bufWord a := if_pos ha

/-- No register access reaches BUF. -/
theorem regTarget_not_buf (width : Width) (off a : Nat) :
    regTarget width off ≠ .bufByte a ∧ regTarget width off ≠ .bufWord a := by
  unfold regTarget
  split
  · split <;> simp
  · simp

/-- An access that reaches BUF reaches a place inside it (R64). -/
theorem busTarget_inside {b : Build} {width : Width} {off : Word} {a : Nat}
    (h : busTarget b width off = .bufByte a ∨ busTarget b width off = .bufWord a) :
    a < b.bufSize.toNat ∧ bufTarget width a = busTarget b width off := by
  unfold busTarget at h ⊢
  simp only at h ⊢
  split at h
  · obtain ⟨hb, hw⟩ := regTarget_not_buf width off.toNat a
    exact absurd h (not_or.mpr ⟨hb, hw⟩)
  · split at h
    · rename_i hreg hwin
      have ha : off.toNat - bufWindowBase = a := by
        cases width with
        | w8 => simpa [bufTarget] using h
        | w16 => simp [bufTarget] at h
        | w32 =>
          simp only [bufTarget] at h
          split at h
          · simpa using h
          · simp at h
      rw [if_neg hreg, if_pos hwin, ha]
      exact ⟨by omega, rfl⟩
    · simp at h

theorem busTarget_bufByte_lt {b : Build} {width : Width} {off : Word} {a : Nat}
    (h : busTarget b width off = .bufByte a) : a < b.bufSize.toNat := (busTarget_inside (.inl h)).1

/-- A word access of BUF is aligned and inside it (R66). -/
theorem busTarget_bufWord_lt {b : Build} {width : Width} {off : Word} {a : Nat}
    (h : busTarget b width off = .bufWord a) : a % 4 = 0 ∧ a < b.bufSize.toNat := by
  obtain ⟨ha, htarget⟩ := busTarget_inside (.inr h)
  rw [h] at htarget
  refine ⟨?_, ha⟩
  by_contra hal
  cases width <;> simp [bufTarget, hal] at htarget

/-! ### The BUF window and `BUSY` -/

theorem bufAccess_idle {s : State} (h : s.pending = none) (k : Host.Outcome State Fault Refusal) :
    bufAccess s k = k := by simp [bufAccess, State.busy, h]

theorem bufAccess_busy {s : State} (h : s.pending ≠ none) (k : Host.Outcome State Fault Refusal) :
    bufAccess s k = .fault .hostRace := by
  obtain ⟨p, hp⟩ := Option.ne_none_iff_exists'.mp h
  simp [bufAccess, State.busy, hp]

/-! ### The moves of a step -/

/-- What a step that answers a next state does to the state, the rest of the agenda in place (R64–R72, R208, R282). -/
inductive Move : State → State → Prop where
  /-- A step that is not enabled. -/
  | stay (s : State) : Move s s
  /-- The timer expires (R208). -/
  | expire (s : State) : s.fc.timerArmed = true → Move s s.expire
  /-- The reset input (R282). -/
  | powerOn (s : State) : Move s s.powerOnReset
  /-- A pending command completes (R70). -/
  | command (s : State) (p : Pending) (i : Instr) (t : State) :
      s.pending = some p → decode p.word = .ok i → exec i s = .next t → Move s t
  /-- A pending word that selects no command completes (R92). -/
  | illegal (s : State) (p : Pending) (d : DecodeError) :
      s.pending = some p → decode p.word = .error d → Move s (s.complete (some illegalCommand))
  /-- A host access that only answers. -/
  | answer (s : State) (r : BusResponse) : Move s (s.setResp r)
  /-- An 8-bit host write of BUF (R66). -/
  | storeByte (s : State) (a : Nat) (v : Byte) :
      s.pending = none → a < s.build.bufSize.toNat → Move s ((s.setMem (s.mem.write a v)).setResp .done)
  /-- A 32-bit host write of BUF (R66). -/
  | storeWord (s : State) (a : Nat) (v : Word) :
      s.pending = none → a % 4 = 0 → a < s.build.bufSize.toNat →
        Move s ((s.setMem (s.mem.wrBe32 a v)).setResp .done)
  /-- A host write of a register (R65). -/
  | register (s : State) (r : RegName) (v : Word) : Move s ((writeReg r v s).setResp .done)

/-- What a step from `s` answers: a move, or one of the two faults of R255, the race only where `race` holds. -/
inductive StepOutcome (race : Prop) (s : State) : Host.Outcome State Fault Refusal → Prop where
  | next (t : State) : Move s t → StepOutcome race s (.next t)
  | uninitRead : StepOutcome race s (.fault .uninitRead)
  | hostRace : race → StepOutcome race s (.fault .hostRace)

theorem StepOutcome.mono {race race' : Prop} {s : State} {o : Host.Outcome State Fault Refusal}
    (h : StepOutcome race s o) (hr : race → race') : StepOutcome race' s o := by
  cases h with
  | next t ht => exact .next t ht
  | uninitRead => exact .uninitRead
  | hostRace h => exact .hostRace (hr h)

/-- A BUF window access does its work on an idle block and races on a busy one (R72). -/
theorem bufAccess_outcome {s : State} {k : Host.Outcome State Fault Refusal}
    (h : s.pending = none → StepOutcome (s.pending ≠ none) s k) : StepOutcome (s.pending ≠ none) s (bufAccess s k) := by
  by_cases hp : s.pending = none
  · rw [bufAccess_idle hp]; exact h hp
  · rw [bufAccess_busy hp]; exact .hostRace hp

theorem hostRead_outcome (s : State) (width : Width) (off : Word) :
    StepOutcome (s.pending ≠ none) s (hostRead s width off) := by
  unfold hostRead
  split
  · exact .next _ (.answer s _)
  · exact .next _ (.answer s _)
  · refine bufAccess_outcome fun _ => ?_
    split
    · exact .next _ (.answer s _)
    · exact .uninitRead
  · refine bufAccess_outcome fun _ => ?_
    split
    · exact .next _ (.answer s _)
    · exact .uninitRead
  · exact .next _ (.answer s _)

theorem hostWrite8_outcome (s : State) (off : Word) (v : Byte) :
    StepOutcome (s.pending ≠ none) s (hostWrite8 s off v) := by
  unfold hostWrite8
  split
  · rename_i a ha
    exact bufAccess_outcome fun hp => .next _ (.storeByte s a v hp (busTarget_bufByte_lt ha))
  all_goals exact .next _ (.answer s _)

theorem hostWrite32_outcome (s : State) (off : Word) (v : Word) :
    StepOutcome (s.pending ≠ none) s (hostWrite32 s off v) := by
  unfold hostWrite32
  split
  · exact .next _ (.register s _ v)
  · exact .next _ (.answer s _)
  · rename_i a ha
    obtain ⟨hal, hlt⟩ := busTarget_bufWord_lt ha
    exact bufAccess_outcome fun hp => .next _ (.storeWord s a v hp hal hlt)
  all_goals exact .next _ (.answer s _)

theorem hostStep_outcome (a : HostAccess) (s : State) : StepOutcome (s.pending ≠ none) s (hostStep a s) := by
  cases a with
  | read width off => exact hostRead_outcome s width off
  | write8 off v => exact hostWrite8_outcome s off v
  | write16 off v => exact .next _ (.answer s _)
  | write32 off v => exact hostWrite32_outcome s off v

theorem engineStep_outcome (s : State) : StepOutcome False s (engineStep s) := by
  unfold engineStep
  split
  · exact .next _ (.stay s)
  · rename_i p hp
    split
    · rename_i i hi
      cases h : exec i s with
      | next t => exact .next _ (.command s p i t hp hi h)
      | fault f => rw [exec_fault hp h]; exact .uninitRead
      | refused r => exact absurd h (exec_not_refused i s r)
    · rename_i d hd
      exact .next _ (.illegal s p d hp hd)

theorem timerStep_outcome (s : State) : StepOutcome False s (timerStep s) := by
  unfold timerStep
  split
  · rename_i harmed
    exact .next _ (.expire s harmed)
  · exact .next _ (.stay s)

theorem idleStep_outcome (s : State) : StepOutcome False s (idleStep s) := by
  unfold idleStep
  split
  · exact engineStep_outcome s
  · exact timerStep_outcome s

/-- Everything a step can answer; `l` is what is left of the agenda. -/
theorem step_outcome (s : State) :
    ∃ l, StepOutcome (s.pending ≠ none ∧ ∃ a rest, s.agenda = .host a :: rest) (s.setAgenda l) (step s) := by
  unfold step agendaStep
  split
  · exact ⟨s.agenda, (idleStep_outcome s).mono False.elim⟩
  · rename_i e rest hagenda
    refine ⟨rest, ?_⟩
    cases e with
    | host a => exact (hostStep_outcome a _).mono fun hp => ⟨hp, a, rest, hagenda⟩
    | engine => exact (engineStep_outcome _).mono False.elim
    | timer => exact (timerStep_outcome _).mono False.elim
    | powerOn => exact .next _ (.powerOn _)

/-- A step that answers a next state is one of the moves, with what is left of the agenda in place. -/
theorem step_next {s t : State} (h : step s = .next t) : ∃ l, Move (s.setAgenda l) t := by
  obtain ⟨l, hl⟩ := step_outcome s
  rw [h] at hl
  cases hl with
  | next _ hm => exact ⟨l, hm⟩

/-! ### Host accesses at the head of the agenda -/

theorem step_host {s : State} {a : HostAccess} {rest : List Event} (h : s.agenda = .host a :: rest) :
    step s = hostStep a (s.setAgenda rest) := by
  unfold step agendaStep
  rw [h]
  rfl

theorem step_readReg {s : State} {r : RegName} {off : Word} {rest : List Event} (hr : (r, off) ∈ registerMap)
    (h : s.agenda = .host (.read .w32 off) :: rest) :
    step s = .next ((s.setAgenda rest).setResp (.word (readReg r s))) := by
  rw [step_host h]
  simp only [hostStep, hostRead, busTarget_register hr, readReg_setAgenda]

/-- The state after the host's write of a register, with what is left of the agenda. -/
def afterWrite (s : State) (r : RegName) (v : Word) (rest : List Event) : State :=
  (writeReg r v (s.setAgenda rest)).setResp .done

theorem step_writeReg {s : State} {r : RegName} {off v : Word} {rest : List Event} (hr : (r, off) ∈ registerMap)
    (h : s.agenda = .host (.write32 off v) :: rest) : step s = .next (afterWrite s r v rest) := by
  rw [step_host h]
  simp only [hostStep, hostWrite32, busTarget_register hr, afterWrite]

/-! ### What a register write keeps -/

@[simp] theorem writeReg_build (r : RegName) (v : Word) (s : State) : (writeReg r v s).build = s.build := by
  cases r with
  | ctrl => simp only [writeReg, State.writeCtrl]; split <;> rfl
  | cmd => simp only [writeReg, State.writeCmd]; split <;> rfl
  | _ => rfl

@[simp] theorem writeReg_mem (r : RegName) (v : Word) (s : State) : (writeReg r v s).mem = s.mem := by
  cases r with
  | ctrl => simp only [writeReg, State.writeCtrl]; split <;> rfl
  | cmd => simp only [writeReg, State.writeCmd]; split <;> rfl
  | _ => rfl

/-- The length a write of `BUF_LEN` stores is the smaller of the two (R29). -/
theorem toNat_clampBufLen (size v : Word) : (clampBufLen size v).toNat = min v.toNat size.toNat := by
  unfold clampBufLen
  split <;> omega

/-- No register write leaves `BUF_LEN` above `BUF_SIZE` (R29). -/
theorem writeReg_bufLen_le {r : RegName} {v : Word} {s : State} (h : s.bufLen.toNat ≤ s.build.bufSize.toNat) :
    (writeReg r v s).bufLen.toNat ≤ s.build.bufSize.toNat := by
  cases r with
  | ctrl =>
    simp only [writeReg, State.writeCtrl]
    split
    · exact Nat.zero_le _
    · exact h
  | cmd => simp only [writeReg, State.writeCmd]; split <;> exact h
  | bufLen => exact (toNat_clampBufLen s.build.bufSize v).trans_le (Nat.min_le_right _ _)
  | _ => exact h

/-- A register write keeps the pending command, drops it (R241), or accepts the word written (R256). -/
theorem writeReg_pending (r : RegName) (v : Word) (s : State) :
    (writeReg r v s).pending = s.pending ∨ (writeReg r v s).pending = none ∨
      (writeReg r v s).pending = some (s.latch v) := by
  cases r with
  | ctrl =>
    simp only [writeReg, State.writeCtrl]
    split
    · exact .inr (.inl rfl)
    · exact .inl rfl
  | cmd =>
    simp only [writeReg, State.writeCmd]
    split
    · exact .inl rfl
    · exact .inr (.inr rfl)
  | _ => exact .inl rfl

/-- A register write resets the error report (R241) or keeps it: `OVR` aside, no write reaches it (R23, R26). -/
theorem writeReg_report (r : RegName) (v : Word) (s : State) :
    writeReg r v s = s.softReset ∨
    ((writeReg r v s).status.err = s.status.err ∧ (writeReg r v s).status.errcode = s.status.errcode ∧
      (writeReg r v s).errInfo = s.errInfo) := by
  cases r with
  | ctrl =>
    simp only [writeReg, State.writeCtrl]
    split
    · exact .inl rfl
    · exact .inr ⟨rfl, rfl, rfl⟩
  | cmd => simp only [writeReg, State.writeCmd]; split <;> exact .inr ⟨rfl, rfl, rfl⟩
  | _ => exact .inr ⟨rfl, rfl, rfl⟩

end Sys2Proof.Machine
end

section
/-! SUPPORT. O58, O59, O6: what every step keeps of BUF and of the error report, and why a step can stop. -/

namespace Sys2Proof.Machine

/-! ### The invariant of BUF (R29, R41, R60) -/

/-- The invariant reads the build, BUF, `BUF_LEN` and the latched length only. -/
theorem bufInvariant_iff (s : State) :
    bufInvariant s ↔ s.build.wellFormed = true ∧ s.mem.Inside s.build.bufSize.toNat ∧
      s.bufLen.toNat ≤ s.build.bufSize.toNat ∧ ∀ p, s.pending = some p → p.len ≤ s.build.bufSize.toNat :=
  ⟨fun ⟨hb, hwf, hlt, hlen, hp⟩ => ⟨hb, ⟨hwf, hlt⟩, hlen, hp⟩,
    fun ⟨hb, ⟨hwf, hlt⟩, hlen, hp⟩ => ⟨hb, hwf, hlt, hlen, hp⟩⟩

/-- An idle state that keeps the build and `BUF_LEN` meets the invariant when its BUF is inside. -/
theorem bufInvariant_of_idle {s t : State} (h : bufInvariant s) (hb : t.build = s.build)
    (hm : t.mem.Inside s.build.bufSize.toNat) (hl : t.bufLen = s.bufLen) (hp : t.pending = none) :
    bufInvariant t := by
  obtain ⟨hwf, -, hlen, -⟩ := (bufInvariant_iff s).mp h
  rw [bufInvariant_iff, hb, hl, hp]
  exact ⟨hwf, hm, hlen, fun p hp => by cases hp⟩

theorem exec_keeps_bufInvariant {i : Instr} {s t : State} (h : bufInvariant s) (ht : exec i s = .next t) :
    bufInvariant t ∧ t.build = s.build := by
  obtain ⟨-, hm, -, hlatch⟩ := (bufInvariant_iff s).mp h
  obtain ⟨p, hp, ⟨u, hu, rfl⟩ | ⟨e, -, -, rfl⟩⟩ := exec_next ht
  · have hframe := bodyOf_frame hu
    have hbuild : (u.complete none).build = s.build := hframe.outside.1
    have hinside : u.mem.Inside s.build.bufSize.toNat := bodyOf_inside hm (hlatch p hp) hu
    refine ⟨bufInvariant_of_idle h hbuild hinside ?_ rfl, hbuild⟩
    have hreg : RegName.bufLen ∉ destinations i := by cases i <;> decide
    exact hframe.regs .bufLen hreg
  · exact ⟨bufInvariant_of_idle h rfl hm rfl rfl, rfl⟩

theorem writeReg_keeps_bufInvariant {s : State} (r : RegName) (v : Word) (h : bufInvariant s) :
    bufInvariant (writeReg r v s) := by
  obtain ⟨hwf, hm, hlen, hlatch⟩ := (bufInvariant_iff s).mp h
  rw [bufInvariant_iff, writeReg_build, writeReg_mem]
  refine ⟨hwf, hm, writeReg_bufLen_le hlen, ?_⟩
  intro p hp
  rcases writeReg_pending r v s with hkeep | hdrop | haccept
  · exact hlatch p (hkeep ▸ hp)
  · rw [hdrop] at hp; cases hp
  · rw [haccept] at hp; cases hp; exact hlen

theorem Move.keeps_bufInvariant {s t : State} (hmove : Move s t) (h : bufInvariant s) :
    bufInvariant t ∧ t.build = s.build := by
  obtain ⟨hwf, hm, -, -⟩ := (bufInvariant_iff s).mp h
  cases hmove with
  | stay | expire | answer => exact ⟨h, rfl⟩
  | powerOn =>
    exact ⟨(bufInvariant_iff _).mpr ⟨hwf, ⟨List.Pairwise.nil, fun _ hc => by cases hc⟩, Nat.zero_le _,
      fun _ hp => by cases hp⟩, rfl⟩
  | command p i t _ _ ht => exact exec_keeps_bufInvariant h ht
  | illegal => exact ⟨bufInvariant_of_idle h rfl hm rfl rfl, rfl⟩
  | storeByte a v hp ha =>
    exact ⟨bufInvariant_of_idle h rfl (hm.writeBytes (vs := [v]) ha) rfl hp, rfl⟩
  | storeWord a v hp hal ha =>
    obtain ⟨hsize, -, -⟩ := Build.wellFormed_bufSize hwf
    exact ⟨bufInvariant_of_idle h rfl (hm.wrBe32 (by omega)) rfl hp, rfl⟩
  | register r v => exact ⟨writeReg_keeps_bufInvariant r v h, writeReg_build r v s⟩

/-! ### The invariant of the error report (R26, R28, R250) -/

/-- The invariant reads `ERR`, `ERRCODE` and `ERR_INFO` only. -/
theorem reportInvariant_congr {s t : State} (h : reportInvariant s) (herr : t.status.err = s.status.err)
    (hcode : t.status.errcode = s.status.errcode) (hinfo : t.errInfo = s.errInfo) : reportInvariant t := by
  unfold reportInvariant
  rw [herr, hcode, hinfo]
  exact h

theorem reportInvariant_reset : reportInvariant State.reset := by unfold reportInvariant; decide

theorem reportInvariant_softReset (s : State) : reportInvariant s.softReset :=
  reportInvariant_congr reportInvariant_reset rfl rfl rfl

/-- A completion without error reports none (R258). -/
theorem reportInvariant_complete_none (s : State) : reportInvariant (s.complete none) := by
  simp [reportInvariant]

/-- A completion with an error reports it, the entry index only for a table entry (R252). -/
theorem reportInvariant_complete_some (s : State) {e : CmdError} (h : e.culprit ≠ .tableEntry → e.entry = 0) :
    reportInvariant (s.complete (some e)) := by
  have hcode : e.code.toByte.toNat ≤ 6 ∧ e.code.toByte ≠ 0x00 := by cases e.code <;> decide
  have hculprit : e.culprit.toByte ∈ ([0x00, 0x01, 0x02, 0x03, 0xFC, 0xFD, 0xFE, 0xFF] : List (BitVec 8)) ∧
      e.culprit.toByte ≠ 0xFF ∧ (e.culprit.toByte ≠ 0xFC → e.culprit ≠ .tableEntry) := by
    cases e.culprit <;> decide
  obtain ⟨hmem, hne, htable⟩ := hculprit
  exact ⟨hcode.1, iff_of_true rfl hcode.2, hmem, iff_of_true rfl hne, fun hn => h (htable hn)⟩

theorem Move.keeps_reportInvariant {s t : State} (hmove : Move s t) (h : reportInvariant s) : reportInvariant t := by
  cases hmove with
  | stay | expire | answer | storeByte | storeWord => exact h
  | powerOn => exact reportInvariant_congr reportInvariant_reset rfl rfl rfl
  | command p i t _ _ ht =>
    obtain ⟨-, -, ⟨u, -, rfl⟩ | ⟨e, -, he, rfl⟩⟩ := exec_next ht
    · exact reportInvariant_complete_none u
    · exact reportInvariant_complete_some s he
  | illegal => exact reportInvariant_complete_some s fun _ => rfl
  | register r v =>
    rcases writeReg_report r v s with hreset | ⟨herr, hcode, hinfo⟩
    · rw [hreset]; exact reportInvariant_softReset s
    · exact reportInvariant_congr h herr hcode hinfo

end Sys2Proof.Machine

namespace Sys2Proof.Proofs

open Sys2Proof.Machine

/-- Settles O58: every move of a step keeps the invariant, and the agenda is no part of it. -/
theorem stepKeepsBufInvariant : Obligations.StepKeepsBufInvariant := by
  intro s t h ht
  obtain ⟨l, hmove⟩ := step_next ht
  exact hmove.keeps_bufInvariant (s := s.setAgenda l) h

/-- Settles O59: every move of a step keeps the report, since a command raises only legal errors. -/
theorem stepKeepsReportInvariant : Obligations.StepKeepsReportInvariant := by
  intro s t h ht
  obtain ⟨l, hmove⟩ := step_next ht
  exact hmove.keeps_reportInvariant (s := s.setAgenda l) h

/-- Settles O6: the outcomes of a step are its moves and the two faults. -/
theorem stepStopsOnlyForTheModelFaults : Obligations.StepStopsOnlyForTheModelFaults := by
  intro s
  obtain ⟨l, ho⟩ := step_outcome s
  refine ⟨fun r hr => ?_, fun f hf => ?_⟩
  · rw [hr] at ho; cases ho
  · rw [hf] at ho
    cases ho with
    | uninitRead => exact .inl rfl
    | hostRace hrace => exact .inr ⟨rfl, hrace⟩

end Sys2Proof.Proofs
end

section
/-! SUPPORT. O8, O10, O11, O12, O13, O22: the registers as the host sees them (10_state.md) and the faults of the BUF
window (20_memory.md R66, R72). -/

namespace Sys2Proof.Machine

/-! ### The status words (R26, R28, R36, R40) -/

theorem toNat_append_eq_add {m n : Nat} (x : BitVec m) (y : BitVec n) :
    (x ++ y).toNat = x.toNat * 2 ^ n + y.toNat := by
  rw [BitVec.toNat_append, ← Nat.shiftLeft_add_eq_or_of_lt y.isLt, Nat.shiftLeft_eq]

theorem toNat_bit (c : Bool) : (bit c).toNat = if c then 1 else 0 := by cases c <;> rfl

theorem toNat_statusWord (s : State) :
    s.statusWord.toNat = (if s.pending.isSome then 1 else 0) + (if s.status.err then 2 else 0) +
      (if s.status.ovr then 4 else 0) + s.status.errcode.toNat * 256 := by
  simp only [State.statusWord, toNat_append_eq_add, toNat_bit, State.busy, BitVec.ofNat_eq_ofNat, BitVec.toNat_zero]
  split_ifs <;> omega

theorem toNat_errInfo_toWord (e : ErrInfo) : e.toWord.toNat = e.operand.toNat + e.entry.toNat * 256 := by
  rw [ErrInfo.toWord, toNat_append_eq_add]
  omega

theorem toNat_fcUnit_statusWord (f : FcUnit) :
    f.statusWord.toNat = f.state.code.toNat + (if f.timerArmed then 256 else 0) +
      (if f.exhausted then 512 else 0) + (if f.consumed then 1024 else 0) := by
  simp only [FcUnit.statusWord, toNat_append_eq_add, toNat_bit, BitVec.ofNat_eq_ofNat, BitVec.toNat_zero]
  generalize f.state.code.toNat = c
  split_ifs <;> omega

theorem getLsbD_intWord (b : BitVec 3) (k : Nat) : (intWord b).getLsbD k = b.getLsbD k := by
  simp only [intWord, BitVec.truncate_eq_setWidth, BitVec.getLsbD_setWidth, Bool.and_eq_right_iff_imp,
    decide_eq_true_eq]
  intro h
  have hlt := BitVec.lt_of_getLsbD h
  omega

theorem getLsbD_statusWord_ovr (s : State) : s.statusWord.getLsbD 2 = s.status.ovr := by
  simp only [State.statusWord, BitVec.getLsbD_append]
  cases s.status.ovr <;> rfl

/-- Every bit of `STATUS` but bit 2 is independent of `OVR` (R26). -/
theorem getLsbD_statusWord_writeStatus (s : State) (v : Word) {k : Nat} (hk : k ≠ 2) :
    (s.writeStatus v).statusWord.getLsbD k = s.statusWord.getLsbD k := by
  simp only [State.statusWord, BitVec.getLsbD_append]
  by_cases h0 : k < 1
  · simp only [if_pos h0]; rfl
  · by_cases h1 : k - 1 < 1
    · simp only [if_neg h0, if_pos h1]; rfl
    · have h2 : ¬ k - 1 - 1 < 1 := by omega
      simp only [if_neg h0, if_neg h1, if_neg h2]; rfl

/-! ### What a write of each register does (R23, R25, R29, R31, R38–R40) -/

theorem writeReg_readOnly {r : RegName} (hr : r ∈ readOnlyRegs) (v : Word) (s : State) : writeReg r v s = s := by
  simp only [readOnlyRegs, List.mem_cons, List.not_mem_nil, or_false] at hr
  rcases hr with rfl | rfl | rfl | rfl | rfl | rfl | rfl | rfl | rfl | rfl | rfl | rfl | rfl <;> rfl

/-- A write of a register but `CTRL` and `CMD` reaches no other register. -/
theorem sameRegsExcept_writeReg {r : RegName} (hctrl : r ≠ .ctrl) (hcmd : r ≠ .cmd) (v : Word) (s : State) :
    sameRegsExcept [r] s (writeReg r v s) := by
  intro q hq
  cases r with
  | ctrl => exact absurd rfl hctrl
  | cmd => exact absurd rfl hcmd
  | _ => cases q <;> simp at hq <;> rfl  -- `hq` closes the case where `q` is the written register

theorem readReg_writeReg_stored {r : RegName}
    (hr : r ∈ [RegName.arg0, .arg1, .arg2, .arg3, .fcMaxRetries, .fcTimeoutMs])
    (v : Word) (s : State) : readReg r (writeReg r v s) = v := by
  simp only [List.mem_cons, List.not_mem_nil, or_false] at hr
  rcases hr with rfl | rfl | rfl | rfl | rfl | rfl <;> rfl

theorem readReg_bufLen_writeReg (v : Word) (s : State) :
    readReg .bufLen (writeReg .bufLen v s) = clampBufLen s.build.bufSize v := rfl

theorem getLsbD_intStatus_writeReg (v : Word) (s : State) {k : Nat} (hk : k < 3) :
    (readReg .intStatus (writeReg .intStatus v s)).getLsbD k =
      ((readReg .intStatus s).getLsbD k && !v.getLsbD k) := by
  simp [readReg, writeReg, getLsbD_intWord, hk]

theorem getLsbD_intEnable_writeReg (v : Word) (s : State) {k : Nat} (hk : k < 3) :
    (readReg .intEnable (writeReg .intEnable v s)).getLsbD k = v.getLsbD k := by
  simp [readReg, writeReg, getLsbD_intWord, hk]

/-- The reserved bits of the interrupt registers read 0 (R40). -/
theorem getLsbD_intWord_reserved (b : BitVec 3) {k : Nat} (hk : 3 ≤ k) : (intWord b).getLsbD k = false := by
  rw [getLsbD_intWord, BitVec.getLsbD_of_ge b k hk]

theorem getLsbD_status_ovr_writeReg (v : Word) (s : State) :
    (readReg .status (writeReg .status v s)).getLsbD 2 = ((readReg .status s).getLsbD 2 && !v.getLsbD 2) := by
  simp only [readReg, writeReg, getLsbD_statusWord_ovr, State.writeStatus_status]

theorem readReg_softReset (s : State) (r : RegName) : readReg r s.softReset = resetValue s.build r := by
  cases r with
  | status => exact (show State.reset.statusWord = 0 by decide)
  | errInfo => exact (show State.reset.errInfo.toWord = 0x000000FF by decide)
  | fcStatus => exact (show State.reset.fc.statusWord = 0 by decide)
  | _ => rfl

theorem irq_softReset (s : State) : s.softReset.irq = false := show State.reset.irq = false by decide

/-! ### The step of a host write -/

/-- What is left of the agenda has no part in a register write. -/
theorem writeReg_setAgenda (r : RegName) (v : Word) (s : State) (l : List Event) :
    writeReg r v (s.setAgenda l) = (writeReg r v s).setAgenda l := by
  cases r with
  | ctrl => exact (apply_ite (State.setAgenda · l) (v.getLsbD 0 = true) s.softReset s).symm
  | cmd => exact (apply_ite (State.setAgenda · l) (s.busy = true) s.overrun (s.accept v)).symm
  | _ => rfl

/-- Reading the written register sees the write on the state as it was: the agenda and the answer are no register. -/
theorem readReg_afterWrite (s : State) (r : RegName) (v : Word) (rest : List Event) :
    readReg r (afterWrite s r v rest) = readReg r (writeReg r v s) := by
  rw [afterWrite, writeReg_setAgenda, readReg_setResp, readReg_setAgenda]

/-- A write of a register but `CTRL` and `CMD` changes that register and nothing else (R23). -/
theorem afterWrite_frame (s : State) {r : RegName} (hctrl : r ≠ .ctrl) (hcmd : r ≠ .cmd) (v : Word)
    (rest : List Event) :
    sameRegsExcept [r] s (afterWrite s r v rest) ∧ sameMem s (afterWrite s r v rest) ∧
      (afterWrite s r v rest).pending = s.pending ∧ (afterWrite s r v rest).timerLatch = s.timerLatch ∧
      (afterWrite s r v rest).build = s.build ∧ (afterWrite s r v rest).agenda = rest ∧
      (afterWrite s r v rest).resp = some .done := by
  have hregs : sameRegsExcept [r] s (afterWrite s r v rest) := fun q hq => by
    rw [afterWrite, readReg_setResp, sameRegsExcept_writeReg hctrl hcmd v _ q hq, readReg_setAgenda]
  have hmem : (afterWrite s r v rest).mem = s.mem := writeReg_mem r v _
  refine ⟨hregs, fun a => by rw [hmem], ?_⟩
  cases r with
  | ctrl => exact absurd rfl hctrl
  | cmd => exact absurd rfl hcmd
  | _ => exact ⟨rfl, rfl, rfl, rfl, rfl⟩

/-- A host access of the BUF window of a busy block (R72). -/
theorem hostStep_window_busy {s : State} {a : Nat} (hb : s.build.wellFormed = true) (ha : a < s.build.bufSize.toNat)
    (hp : s.pending ≠ none) :
    (∀ v, hostStep (.write8 (BitVec.ofNat 32 (0x01000000 + a)) v) s = .fault .hostRace) ∧
    hostStep (.read .w8 (BitVec.ofNat 32 (0x01000000 + a))) s = .fault .hostRace ∧
    (a % 4 = 0 → (∀ v, hostStep (.write32 (BitVec.ofNat 32 (0x01000000 + a)) v) s = .fault .hostRace) ∧
      hostStep (.read .w32 (BitVec.ofNat 32 (0x01000000 + a))) s = .fault .hostRace) := by
  refine ⟨fun v => ?_, ?_, fun hal => ⟨fun v => ?_, ?_⟩⟩
  · simp only [hostStep, hostWrite8, busTarget_window hb ha, bufTarget_byte, bufAccess_busy hp]
  · simp only [hostStep, hostRead, busTarget_window hb ha, bufTarget_byte, bufAccess_busy hp]
  · simp only [hostStep, hostWrite32, busTarget_window hb ha, bufTarget_word hal, bufAccess_busy hp]
  · simp only [hostStep, hostRead, busTarget_window hb ha, bufTarget_word hal, bufAccess_busy hp]

theorem hostStep_readByte_unwritten {s : State} {a : Nat} (hb : s.build.wellFormed = true)
    (ha : a < s.build.bufSize.toNat) (hp : s.pending = none) (h : s.mem.read a = none) :
    hostStep (.read .w8 (BitVec.ofNat 32 (0x01000000 + a))) s = .fault .uninitRead := by
  simp only [hostStep, hostRead, busTarget_window hb ha, bufTarget_byte, bufAccess_idle hp, h]

theorem be32_of_not_written {m : Memory} {a : Nat} (h : ¬ written m a 4) : m.be32 a = none := by
  by_contra hne
  exact h ((written_word m a).mpr (Option.ne_none_iff_exists'.mp hne))

theorem hostStep_readWord_unwritten {s : State} {a : Nat} (hb : s.build.wellFormed = true)
    (ha : a < s.build.bufSize.toNat) (hp : s.pending = none) (hal : a % 4 = 0) (h : ¬ written s.mem a 4) :
    hostStep (.read .w32 (BitVec.ofNat 32 (0x01000000 + a))) s = .fault .uninitRead := by
  simp only [hostStep, hostRead, busTarget_window hb ha, bufTarget_word hal, bufAccess_idle hp, be32_of_not_written h]

end Sys2Proof.Machine

namespace Sys2Proof.Proofs

open Sys2Proof.Machine

/-- Settles O8: a set bit 0 runs the soft reset of the state, a clear one nothing. -/
theorem ctrlWritePerformsTheSoftReset : Obligations.CtrlWritePerformsTheSoftReset := by
  intro s v rest h
  have hstep : step s = .next ((State.writeCtrl (s.setAgenda rest) v).setResp .done) :=
    step_writeReg (r := .ctrl) (by decide) h
  refine ⟨rfl, fun hbit => ?_, fun hbit => ?_⟩
  · rw [State.writeCtrl, if_pos hbit] at hstep
    exact ⟨_, hstep, fun r => (readReg_setResp _ _ r).trans (readReg_softReset _ r), rfl, rfl,
      irq_softReset s, fun _ => rfl, rfl, rfl⟩
  · rw [State.writeCtrl, if_neg (by rw [hbit]; exact Bool.false_ne_true)] at hstep
    exact hstep

/-- Settles O10: the bus decodes exactly the map of R22. -/
theorem registerMapReadsAndReadOnlyWrites : Obligations.RegisterMapReadsAndReadOnlyWrites := by
  refine ⟨fun s r off rest hr h => step_readReg hr h, fun s off rest hlt hal hr h => ?_,
    fun s r off v rest hr hro h => ?_, fun s off v rest hlt hal hr h => ?_⟩
  · simp only [step_host h, hostStep, hostRead, busTarget_reserved hlt hal hr]
  · rw [step_writeReg hr h, afterWrite, writeReg_readOnly hro]
  · simp only [step_host h, hostStep, hostWrite32, busTarget_reserved hlt hal hr]

/-- Settles O11: the write stores, and reaches no register but its own. -/
theorem readWriteRegistersStoreTheWrittenValue : Obligations.ReadWriteRegistersStoreTheWrittenValue := by
  intro s r off v rest hr hrw h
  have hne : r ≠ .ctrl ∧ r ≠ .cmd := by constructor <;> rintro rfl <;> exact absurd hrw (by decide)
  refine ⟨_, step_writeReg hr h, fun hlen => ?_, ?_, afterWrite_frame s hne.1 hne.2 v rest⟩
  · rw [readReg_afterWrite, readReg_writeReg_stored]
    simpa [hlen] using hrw
  · rintro rfl
    rw [readReg_afterWrite, readReg_bufLen_writeReg, toNat_clampBufLen]

/-- Settles O12, bit by bit. -/
theorem interruptAndStatusWrites : Obligations.InterruptAndStatusWrites := by
  refine ⟨fun s v rest h => ?_, fun s v rest h => ?_, fun s v rest h => ?_⟩
  · refine ⟨_, step_writeReg (r := .intStatus) (by decide) h, fun k hk => ?_,
      fun k hk => getLsbD_intWord_reserved _ hk, afterWrite_frame s (by decide) (by decide) v rest⟩
    rw [readReg_afterWrite, getLsbD_intStatus_writeReg v s hk]
  · refine ⟨_, step_writeReg (r := .intEnable) (by decide) h, fun k hk => ?_,
      fun k hk => getLsbD_intWord_reserved _ hk, afterWrite_frame s (by decide) (by decide) v rest⟩
    rw [readReg_afterWrite, getLsbD_intEnable_writeReg v s hk]
  · refine ⟨_, step_writeReg (r := .status) (by decide) h, ?_, fun k hk => ?_,
      afterWrite_frame s (by decide) (by decide) v rest⟩
    · rw [readReg_afterWrite, getLsbD_status_ovr_writeReg]
    · rw [readReg_afterWrite]
      exact getLsbD_statusWord_writeStatus s v hk

/-- Settles O13: the three words as sums of their fields. -/
theorem statusWordsPlaceTheirFields : Obligations.StatusWordsPlaceTheirFields := by
  intro s
  refine ⟨toNat_statusWord s, toNat_errInfo_toWord s.errInfo, (toNat_fcUnit_statusWord s.fc).trans ?_⟩
  cases s.fc.state <;> rfl

/-- Settles O22: the window decodes to its byte or word, where a busy block races. -/
theorem bufWindowFaults : Obligations.BufWindowFaults := by
  intro s a rest hb ha
  refine ⟨fun hp => ?_, fun hp => ⟨fun hread h => ?_, fun hal hw h => ?_⟩⟩
  · obtain ⟨hw8, hr8, hword⟩ := hostStep_window_busy (s := s.setAgenda rest) hb ha hp
    exact ⟨fun v h => (step_host h).trans (hw8 v), fun h => (step_host h).trans hr8,
      fun v hal h => (step_host h).trans ((hword hal).1 v), fun hal h => (step_host h).trans (hword hal).2⟩
  · rw [step_host h]; exact hostStep_readByte_unwritten (s := s.setAgenda rest) hb ha hp hread
  · rw [step_host h]; exact hostStep_readWord_unwritten (s := s.setAgenda rest) hb ha hp hal hw

end Sys2Proof.Proofs
end

section
/-! SUPPORT. O54: the frame of every command (20_memory.md R68; 60_exceptions.md R252, R258). -/

namespace Sys2Proof.Machine

/-- Completing adds the bookkeeping to what the pseudocode left alone. -/
theorem sameRegsExcept_complete {l : List RegName} {s u : State} (h : sameRegsExcept l s u) (e : Option CmdError) :
    sameRegsExcept (bookkeepingRegs ++ l) s (u.complete e) := by
  intro r hr
  obtain ⟨hbook, hl⟩ := List.mem_append.not.trans not_or |>.mp hr
  exact (readReg_complete u e r hbook).trans (h r hl)

/-- A raise sets both completion bits (R258). -/
theorem intStatus_complete_some (s : State) (e : CmdError) :
    (s.complete (some e)).intStatus = s.intStatus ||| 0b011 := by
  rw [State.complete_some_intStatus, BitVec.or_assoc]
  rfl

end Sys2Proof.Machine

namespace Sys2Proof.Proofs

open Sys2Proof.Machine

/-- Settles O54: the frame of the pseudocode with the bookkeeping, or the bookkeeping alone after a raise. -/
theorem commandsWriteOnlyTheirDestinations : Obligations.CommandsWriteOnlyTheirDestinations := by
  intro i s t h
  obtain ⟨p, -, ⟨u, hu, rfl⟩ | ⟨e, -, -, rfl⟩⟩ := exec_next h
  · have hframe := bodyOf_frame hu
    refine ⟨sameRegsExcept_complete hframe.regs none, ⟨rfl, ?_, .inl ?_⟩, hframe.outside, hframe.timerLatch,
      hframe.fc, fun hst a => ?_⟩
    · rw [State.complete_none_status, hframe.status]
    · rw [State.complete_none_intStatus, hframe.intStatus]; rfl
    · rw [State.complete_mem, hframe.mem hst]
  · exact ⟨sameRegsExcept_complete (fun _ _ => rfl) (some e), ⟨rfl, rfl, .inr (intStatus_complete_some s e)⟩,
      ⟨rfl, rfl, rfl⟩, fun _ => rfl, fun _ => rfl, fun _ _ => rfl⟩

end Sys2Proof.Proofs
end

section
/-! SUPPORT. O56: which unwritten bytes make a command fault (10_state.md R43; 41_mod32.md R140–R152; 42_frame.md
R172–R176; 44_bitfield.md R231). -/

namespace Sys2Proof.Machine

theorem exec_of_body_fault {i : Instr} {s : State} {p : Pending} {f : Fault} (hp : s.pending = some p)
    (h : bodyOf i p s = .error (.fault f)) : exec i s = .fault f := by
  rw [exec_eq]; exact State.runCommand_fault hp h

/-! ### Reads of unwritten bytes have no value -/

theorem exists_unwritten {m : Memory} {a n : Nat} (h : ¬ written m a n) : ∃ k, k < n ∧ m.read (a + k) = none := by
  simpa [written] using h

theorem readBytes_of_not_written {m : Memory} {a n : Nat} (h : ¬ written m a n) : m.readBytes a n = none := by
  by_contra hne
  exact h ((Memory.readBytes_isSome m a n).mp (Option.isSome_iff_ne_none.mpr hne))

theorem be32_of_unwritten {m : Memory} {a b : Nat} (hab : a ≤ b) (hb : b < a + 4) (h : m.read b = none) :
    m.be32 a = none := by
  refine be32_of_not_written fun hw => ?_
  have hread := hw (b - a) (by omega)
  rw [Nat.add_sub_cancel' hab, h] at hread
  cases hread

/-- A sum needs every byte of its words but the skipped one. -/
theorem wsum_skip_of_unwritten {m : Memory} {e x a : Nat} (he : e % 4 = 0) (hx : x % 4 = 0) (ha : a < e)
    (hout : a < x ∨ x + 4 ≤ a) (h : m.read a = none) : wsum m 0 e (some x) = none := by
  refine wsumFrom_none (k := a / 4) (by omega) ?_ (be32_of_unwritten (b := a) (by omega) (by omega) h)
  simp only [ne_eq, Option.some.injEq]
  omega

theorem ckB_of_unwritten {b : Build} {m : Memory} {start stop a : Nat} (hs : start % 4 = 0) (he : stop % 4 = 0)
    (h1 : start ≤ a) (h2 : a < stop) (h : m.read a = none) : ckB b m start stop = none := by
  rw [ckB, wsum_of_unwritten hs he h1 h2 h]; rfl

theorem extractFrom_of_unwritten {m : Memory} {b w k j : Nat} {v : Word} (hj : j < w)
    (h : m.read (b + (k + j) / 8) = none) : extractFrom m b w k v = none := by
  induction w generalizing k j v with
  | zero => omega
  | succ w ih =>
    cases hbit : bitAt m b k with
    | none => simp only [extractFrom, hbit]
    | some c =>
      simp only [extractFrom, hbit]
      cases j with
      | zero =>
        have hread : m.read (b + k / 8) = none := h
        simp [bitAt, hread] at hbit
      | succ j => exact ih (j := j) (by omega) (by rwa [Nat.add_right_comm, Nat.add_assoc])

/-! ### Vendor A -/

theorem m32aSum_uninitRead {p : Pending} {s : State} {a : Nat} (hx : p.x0 % 4 = 0) (hl : p.len % 4 = 0)
    (hfit : p.x0 + 4 ≤ p.len) (ha : a < p.len) (hout : a < p.x0 ∨ p.x0 + 4 ≤ a) (h : s.mem.read a = none) :
    m32aSum p s = .error (.fault .uninitRead) := by
  rw [m32aSum, (m32aChecks_ok p ()).mpr ⟨hx, hl, hfit⟩, Cmd.ok_bind, wsum_skip_of_unwritten hl hx ha hout h]
  rfl

/-- The commands of Vendor A all sum the image first. -/
theorem m32a_uninitRead {i : Instr} {p : Pending} {s : State}
    (hi : i = .m32aCompute ∨ i = .m32aUpdate ∨ i = .m32aValidate)
    (h : m32aSum p s = .error (.fault .uninitRead)) : bodyOf i p s = .error (.fault .uninitRead) := by
  rcases hi with rfl | rfl | rfl
  · rw [bodyOf, m32aComputeBody, h, Cmd.error_bind]
  · rw [bodyOf, m32aUpdateBody, h, Cmd.error_bind]
  · rw [bodyOf, m32aValidateBody, h, Cmd.error_bind]

/-- Validating needs the fixup word too. -/
theorem m32aValidateBody_uninitRead {p : Pending} {s : State} (hx : p.x0 % 4 = 0) (hl : p.len % 4 = 0)
    (hfit : p.x0 + 4 ≤ p.len) (h : ¬ written s.mem p.x0 4) :
    m32aValidateBody p s = .error (.fault .uninitRead) := by
  have hsum : m32aSum p s = ofRead (wsum s.mem 0 p.len (some p.x0)) := by
    rw [m32aSum, (m32aChecks_ok p ()).mpr ⟨hx, hl, hfit⟩, Cmd.ok_bind]
  rw [m32aValidateBody, hsum, be32_of_not_written h]
  cases wsum s.mem 0 p.len (some p.x0) <;> rfl

/-! ### Vendor B -/

theorem m32bRegionBody_uninitRead {p : Pending} {s : State} (h0 : p.x0 % 4 = 0) (h1 : p.x1 % 4 = 0)
    (hlt : p.x0 < p.x1) (hfit : p.x1 ≤ p.len) (h : ¬ written s.mem p.x0 (p.x1 - p.x0)) :
    m32bRegionBody p s = .error (.fault .uninitRead) := by
  obtain ⟨k, hk, hread⟩ := exists_unwritten h
  rw [m32bRegionBody, (m32bRegionChecks_ok p ()).mpr ⟨h0, h1, hlt, hfit⟩, Cmd.ok_bind,
    wsum_of_unwritten h0 h1 (by omega) (by omega) hread]
  rfl

/-- The checking loop goes on past an entry that passes (R150). -/
theorem checkEntries_passing {b : Build} {m : Memory} {t len n i : Nat} (hp : entryPasses b m t len i)
    (hw : fieldsWritten b m t i) : checkEntries b m t len (n + 1) i = checkEntries b m t len n (i + 1) := by
  rw [checkEntries, readEntry_of_fieldsWritten hw, Cmd.ok_bind]
  cases hs : sentinelAt b m t i with
  | true => rfl
  | false =>
    have hregion := (regionError_eq_none _ _ _).mp (hp.resolve_left (by simp [hs]))
    change (entryChecks len i (startAt m t i) (stopAt m t i) >>= fun _ => _) = _
    rw [(entryChecks_ok _ _ _ _ ()).mpr hregion, Cmd.ok_bind]

/-- The checking loop faults at the first entry with a needed byte unwritten, when those before it pass. -/
theorem checkEntries_uninitRead {b : Build} {m : Memory} {t len n i j : Nat} (hij : i ≤ j) (hj : j < i + n)
    (hbefore : ∀ k, k < j → entryPasses b m t len k ∧ fieldsWritten b m t k) (h : ¬ fieldsWritten b m t j) :
    checkEntries b m t len n i = .error (.fault .uninitRead) := by
  induction n generalizing i with
  | zero => omega
  | succ n ih =>
    rcases Nat.eq_or_lt_of_le hij with rfl | hlt
    · rw [checkEntries, readEntry_of_not_fieldsWritten h, Cmd.error_bind]
    · obtain ⟨hpass, hw⟩ := hbefore i hlt
      rw [checkEntries_passing hpass hw]
      exact ih hlt (by omega)

/-- A table whose entries all pass, with the bytes the checks need, is accepted (R150). -/
theorem tableChecks_passing {p : Pending} {s : State} (hp : tablePasses s.build s.mem p)
    (hw : ∀ k, k < p.x1 → fieldsWritten s.build s.mem p.x0 k) : tableChecks p s = .ok () := by
  obtain ⟨hal, hfit, hentries⟩ := hp
  refine (tableChecks_ok p s ()).mpr ⟨⟨hal, hfit⟩, (checkEntries_ok ..).mpr fun k _ hk => ?_⟩
  have hk' : k < p.x1 := by omega
  refine ⟨_, _, _, readEntry_of_fieldsWritten (hw k hk'), ?_⟩
  rcases hentries k hk' with hs | hregion
  · exact .inl hs
  · obtain ⟨⟨h1, h2⟩, h3, h4⟩ := (regionError_eq_none _ _ _).mp hregion
    exact .inr ⟨h1, h2, h3, h4⟩

/-- The region of an enabled entry of a passing table is aligned (R150). -/
theorem tablePasses_aligned {b : Build} {m : Memory} {p : Pending} {j : Nat} (hp : tablePasses b m p) (hj : j < p.x1)
    (hs : sentinelAt b m p.x0 j = false) : startAt m p.x0 j % 4 = 0 ∧ stopAt m p.x0 j % 4 = 0 := by
  obtain ⟨-, -, hentries⟩ := hp
  exact ((regionError_eq_none _ _ _).mp ((hentries j hj).resolve_left (by simp [hs]))).1

theorem table_uninitRead {i : Instr} {p : Pending} {s : State} (hi : i = .m32bTableUpdate ∨ i = .m32bTableValidate)
    (h : tableChecks p s = .error (.fault .uninitRead)) : bodyOf i p s = .error (.fault .uninitRead) := by
  rcases hi with rfl | rfl
  · rw [bodyOf, m32bTableUpdateBody, h, Cmd.error_bind]
  · rw [bodyOf, m32bTableValidateBody, h, Cmd.error_bind]

/-- What the update loop has made of BUF `m0` when it comes to entry `i`: only checksum fields of enabled entries before
it were stored (R151). -/
def storedBefore (b : Build) (m0 : Memory) (t i : Nat) (m : Memory) : Prop :=
  ∀ a, m.read a = m0.read a ∨ ∃ k, k < i ∧ sentinelAt b m0 t k = false ∧ t + 12 * k + 8 ≤ a ∧ a < t + 12 * k + 12

theorem storedBefore_refl (b : Build) (m0 : Memory) (t i : Nat) : storedBefore b m0 t i m0 := fun _ => .inl rfl

theorem storedBefore.succ {b : Build} {m0 m : Memory} {t i : Nat} (h : storedBefore b m0 t i m) :
    storedBefore b m0 t (i + 1) m := fun a =>
  (h a).imp_right fun ⟨k, hk, hin⟩ => ⟨k, Nat.lt_succ_of_lt hk, hin⟩

theorem storedBefore.store {b : Build} {m0 m : Memory} {t i : Nat} (h : storedBefore b m0 t i m)
    (hs : sentinelAt b m0 t i = false) (c : Word) : storedBefore b m0 t (i + 1) (m.wrBe32 (t + 12 * i + 8) c) := by
  intro a
  by_cases ha : t + 12 * i + 8 ≤ a ∧ a < t + 12 * i + 12
  · exact .inr ⟨i, Nat.lt_succ_self i, hs, ha⟩
  · rw [Memory.read_wrBe32_outside _ _ _ _ (by omega)]
    exact h.succ a

/-- The fields of the entry the loop comes to are as they were. -/
theorem storedBefore.readEntry {b : Build} {m0 m : Memory} {t i : Nat} (h : storedBefore b m0 t i m) :
    readEntry b m t i = readEntry b m0 t i := by
  refine readEntry_congr fun k hk => (h _).resolve_right ?_
  rintro ⟨j, hj, -, -, hlt⟩
  omega

/-- The update loop faults at an enabled entry whose region is not ready, if not before (R151). -/
theorem updateEntries_uninitRead {b : Build} {m0 m : Memory} {t n i j u : Nat} (hm : storedBefore b m0 t i m)
    (hij : i ≤ j) (hj : j < i + n) (hw : ∀ k, k < i + n → fieldsWritten b m0 t k)
    (hal : startAt m0 t j % 4 = 0 ∧ stopAt m0 t j % 4 = 0) (hs : sentinelAt b m0 t j = false)
    (hready : ¬ regionReady b m0 t j) : updateEntries b t n i m u = .error (.fault .uninitRead) := by
  induction n generalizing i m u with
  | zero => omega
  | succ n ih =>
    have hw' : ∀ k, k < i + 1 + n → fieldsWritten b m0 t k := fun k hk => hw k (by omega)
    have hentry := hm.readEntry.trans (readEntry_of_fieldsWritten (hw i (by omega)))
    rcases Nat.eq_or_lt_of_le hij with rfl | hlt
    · simp only [regionReady, not_forall, not_or] at hready
      obtain ⟨a, h1, h2, hnone, hstored⟩ := hready
      have hread : m.read a = none := by
        rw [(hm a).resolve_right hstored]
        simpa using hnone
      rw [updateEntries, hentry, hs, Cmd.ok_bind]
      change (ofRead (ckB b m (startAt m0 t i) (stopAt m0 t i)) >>= fun _ => _) = _
      rw [ckB_of_unwritten hal.1 hal.2 h1 h2 hread, ofRead_none, Cmd.error_bind]
    · cases hsi : sentinelAt b m0 t i with
      | true =>
        rw [hsi] at hentry
        rw [updateEntries_sentinel hentry]
        exact ih hm.succ hlt (by omega) hw'
      | false =>
        rw [hsi] at hentry
        cases hsum : wsum m (startAt m0 t i) (stopAt m0 t i) none with
        | none => simp [updateEntries, hentry, ckB, hsum]
        | some sum =>
          rw [updateEntries_enabled hentry hsum]
          exact ih (hm.store hsi _) hlt (by omega) hw'

/-- The validating loop faults at an enabled entry with an unwritten byte in its region or its checksum field, if not
before (R152). -/
theorem validateEntries_uninitRead {b : Build} {m : Memory} {t n i j mis en : Nat} (hij : i ≤ j) (hj : j < i + n)
    (hw : ∀ k, k < i + n → fieldsWritten b m t k) (hal : startAt m t j % 4 = 0 ∧ stopAt m t j % 4 = 0)
    (hs : sentinelAt b m t j = false)
    (h : ¬ written m (startAt m t j) (stopAt m t j - startAt m t j) ∨ ¬ written m (t + 12 * j + 8) 4) :
    validateEntries b m t n i mis en = .error (.fault .uninitRead) := by
  induction n generalizing i mis en with
  | zero => omega
  | succ n ih =>
    have hw' : ∀ k, k < i + 1 + n → fieldsWritten b m t k := fun k hk => hw k (by omega)
    have hentry := readEntry_of_fieldsWritten (hw i (by omega))
    cases hsi : sentinelAt b m t i with
    | true =>
      have hne : i ≠ j := by rintro rfl; rw [hs] at hsi; cases hsi
      rw [hsi] at hentry
      rw [validateEntries_sentinel hentry]
      exact ih (by omega) (by omega) hw'
    | false =>
      rw [hsi] at hentry
      cases hstored : m.be32 (t + 12 * i + 8) with
      | none => simp [validateEntries, hentry, entryChecksum, entryAt, hstored]
      | some stored =>
        cases hsum : wsum m (startAt m t i) (stopAt m t i) none with
        | none => simp [validateEntries, hentry, entryChecksum, entryAt, hstored, ckB, hsum]
        | some sum =>
          have hne : i ≠ j := by
            rintro rfl
            rcases h with hregion | hfield
            · obtain ⟨k, hk, hread⟩ := exists_unwritten hregion
              rw [wsum_of_unwritten hal.1 hal.2 (by omega) (by omega) hread] at hsum
              cases hsum
            · rw [be32_of_not_written hfield] at hstored
              cases hstored
          rw [validateEntries_enabled hentry hstored hsum]
          exact ih (by omega) (by omega) hw'

/-! ### Frames -/

theorem frameEncodeBody_uninitRead {p : Pending} {s : State} (h1 : 1 ≤ p.x1) (h7 : p.x1 ≤ 7)
    (hsrc : p.x0 + p.x1 ≤ p.len) (hdst : p.x2 + p.x1 + 2 ≤ p.len) (h : ¬ written s.mem p.x0 p.x1) :
    frameEncodeBody p s = .error (.fault .uninitRead) := by
  rw [frameEncodeBody, (frameEncodeChecks_ok p ()).mpr ⟨⟨h1, h7⟩, hsrc, hdst⟩, Cmd.ok_bind,
    readBytes_of_not_written h]
  rfl

/-- Past the check of its source, FRAME_DECODE of a buffer of at least one byte reads the PCI byte (R174). -/
theorem frameDecodeBody_uninitRead_pci {p : Pending} {s : State} (hsrc : p.x0 + p.x1 ≤ p.len) (h1 : 1 ≤ p.x1)
    (h : s.mem.read p.x0 = none) : frameDecodeBody p s = .error (.fault .uninitRead) := by
  rw [frameDecodeBody, (past_eq_false _ _).mpr hsrc, raiseIf_false, Cmd.ok_bind, if_neg (by omega), h]
  rfl

/-- FRAME_DECODE reads a complete frame whole before it looks at its destination (R174, log 11). -/
theorem frameDecodeBody_uninitRead_frame {p : Pending} {s : State} {pci : Byte} (hsrc : p.x0 + p.x1 ≤ p.len)
    (hpci : s.mem.read p.x0 = some pci) (hlen : pci.toNat % 16 + 2 ≤ p.x1)
    (h : ¬ written s.mem p.x0 (pci.toNat % 16 + 2)) : frameDecodeBody p s = .error (.fault .uninitRead) := by
  rw [← pciLen_eq] at hlen h
  rw [frameDecodeBody, (past_eq_false _ _).mpr hsrc, raiseIf_false, Cmd.ok_bind, if_neg (by omega), hpci, ofRead_some,
    Cmd.ok_bind, if_neg (by omega), readBytes_of_not_written h]
  rfl

theorem frameParseBody_uninitRead {p : Pending} {s : State} (hsrc : p.x0 + p.x1 ≤ p.len)
    (hdst : p.x2 + 8 * p.x3 ≤ p.len) (h : ¬ written s.mem p.x0 p.x1) :
    frameParseBody p s = .error (.fault .uninitRead) := by
  rw [frameParseBody, (frameParseChecks_ok p ()).mpr ⟨hsrc, hdst⟩, Cmd.ok_bind, readBytes_of_not_written h]
  rfl

/-! ### Bit fields -/

theorem bitsExtractBody_uninitRead {p : Pending} {s : State} {k : Nat} (h1 : 1 ≤ p.x3) (h32 : p.x3 ≤ 32)
    (hsrc : p.x0 + p.x1 ≤ p.len) (hfield : p.x2 + p.x3 ≤ 8 * p.x1) (hk : k < p.x3)
    (h : s.mem.read (p.x0 + (p.x2 + k) / 8) = none) : bitsExtractBody p s = .error (.fault .uninitRead) := by
  rw [bitsExtractBody, (bitsChecks_ok p ()).mpr ⟨h1, h32, hsrc, hfield⟩, Cmd.ok_bind, extractFrom_of_unwritten hk h]
  rfl

end Sys2Proof.Machine

namespace Sys2Proof.Proofs

open Sys2Proof.Machine

/-- Settles O56: each clause from what the pseudocode of its command reads past its checks. -/
theorem readsOfUnwrittenBytesFault : Obligations.ReadsOfUnwrittenBytesFault := by
  intro s p hp
  refine ⟨?_, ?_, ?_, ?_, ?_, ?_, ?_, ?_, ?_, ?_, ?_, ?_⟩
  · rintro i hi hx hl hfit ⟨a, ha, hout, hread⟩
    exact exec_of_body_fault hp (m32a_uninitRead hi (m32aSum_uninitRead hx hl hfit ha hout hread))
  · exact fun hx hl hfit hw => exec_of_body_fault hp (m32aValidateBody_uninitRead hx hl hfit hw)
  · exact fun h0 h1 hlt hfit hw => exec_of_body_fault hp (m32bRegionBody_uninitRead h0 h1 hlt hfit hw)
  · intro i j hi hal hfit hj hbefore hw
    have hchecks : tableChecks p s = .error (.fault .uninitRead) := by
      rw [tableChecks, (tableOperandChecks_ok p ()).mpr ⟨hal, hfit⟩, Cmd.ok_bind]
      exact checkEntries_uninitRead (Nat.zero_le j) (by omega) hbefore hw
    exact exec_of_body_fault hp (table_uninitRead hi hchecks)
  · intro j hpass hw hj hs hready
    have hloop : updateEntries s.build p.x0 p.x1 0 s.mem 0 = .error (.fault .uninitRead) :=
      updateEntries_uninitRead (storedBefore_refl s.build s.mem p.x0 0) (Nat.zero_le j) (by omega)
        (fun k hk => hw k (by omega)) (tablePasses_aligned hpass hj hs) hs hready
    refine exec_of_body_fault hp ?_
    rw [bodyOf, m32bTableUpdateBody, tableChecks_passing hpass hw, Cmd.ok_bind, hloop, Cmd.error_bind]
  · intro j hpass hw hj hs hmissing
    have hloop : validateEntries s.build s.mem p.x0 p.x1 0 0 0 = .error (.fault .uninitRead) :=
      validateEntries_uninitRead (Nat.zero_le j) (by omega) (fun k hk => hw k (by omega))
        (tablePasses_aligned hpass hj hs) hs hmissing
    refine exec_of_body_fault hp ?_
    rw [bodyOf, m32bTableValidateBody, tableChecks_passing hpass hw, Cmd.ok_bind, hloop, Cmd.error_bind]
  · exact fun h1 h7 hsrc hdst hw => exec_of_body_fault hp (frameEncodeBody_uninitRead h1 h7 hsrc hdst hw)
  · exact fun hsrc h1 hread => exec_of_body_fault hp (frameDecodeBody_uninitRead_pci hsrc h1 hread)
  · exact fun pci hsrc hpci hlen _ hw =>
      exec_of_body_fault hp (frameDecodeBody_uninitRead_frame hsrc hpci hlen hw)
  · exact fun pci hsrc hpci hlen _ hw =>
      exec_of_body_fault hp (frameDecodeBody_uninitRead_frame hsrc hpci hlen hw)
  · exact fun hsrc hdst hw => exec_of_body_fault hp (frameParseBody_uninitRead hsrc hdst hw)
  · exact fun k h1 h32 hsrc hfield hk hread =>
      exec_of_body_fault hp (bitsExtractBody_uninitRead h1 h32 hsrc hfield hk hread)

end Sys2Proof.Proofs
end

section
/-! SUPPORT. O57: no command reads or stores at or above the latched `BUF_LEN` (20_memory.md R60): two runs over buffers
that agree below it read the same, store the same, and end alike. -/

namespace Sys2Proof.Machine

/-! ### Buffers that agree below a length read alike there -/

/-- Every byte below `n` reads the same. -/
def Memory.AgreeBelow (n : Nat) (m m' : Memory) : Prop := ∀ a, a < n → m'.read a = m.read a

theorem Memory.AgreeBelow.readBytes_eq {n a k : Nat} {m m' : Memory} (h : AgreeBelow n m m') (hk : a + k ≤ n) :
    m'.readBytes a k = m.readBytes a k :=
  Memory.readBytes_congr fun _ _ => h _ (by omega)

theorem Memory.AgreeBelow.be32_eq {n a : Nat} {m m' : Memory} (h : AgreeBelow n m m') (ha : a + 4 ≤ n) :
    m'.be32 a = m.be32 a :=
  Memory.be32_congr fun _ _ => h _ (by omega)

theorem Memory.AgreeBelow.wsum_eq {n a e : Nat} {m m' : Memory} {skip : Option Nat} (h : AgreeBelow n m m')
    (he : e ≤ n) : wsum m' a e skip = wsum m a e skip :=
  wsum_congr fun _ _ _ => h _ (by omega)

theorem Memory.AgreeBelow.ckB_eq {n a e : Nat} {m m' : Memory} (h : AgreeBelow n m m') (b : Build) (he : e ≤ n) :
    ckB b m' a e = ckB b m a e := by
  rw [ckB, ckB, h.wsum_eq he]

theorem Memory.AgreeBelow.readEntry_eq {n t i : Nat} {m m' : Memory} (h : AgreeBelow n m m') (b : Build)
    (hi : t + 12 * i + 12 ≤ n) : readEntry b m' t i = readEntry b m t i :=
  readEntry_congr fun _ _ => h _ (by omega)

theorem Memory.AgreeBelow.extractFrom_eq {n b l w k : Nat} {m m' : Memory} {v : Word} (h : AgreeBelow n m m')
    (hl : b + l ≤ n) (hk : k + w ≤ 8 * l) : extractFrom m' b w k v = extractFrom m b w k v := by
  induction w generalizing k v with
  | zero => rfl
  | succ w ih =>
    have hbit : bitAt m' b k = bitAt m b k := by rw [bitAt, bitAt, h _ (by omega)]
    simp only [extractFrom, hbit]
    split
    · rfl
    · exact ih (by omega)

/-! ### The same early end, or values in a relation -/

/-- Two pseudocodes end early in the same way, or in values that `R` relates. -/
def Cmd.EndsAlike {α β : Type} (R : α → β → Prop) (c : Cmd α) (c' : Cmd β) : Prop :=
  (∃ a b, c = .ok a ∧ c' = .ok b ∧ R a b) ∨ ∃ e, c = .error e ∧ c' = .error e

theorem Cmd.EndsAlike.ok {α β : Type} {R : α → β → Prop} {a : α} {b : β} (h : R a b) :
    EndsAlike R (.ok a) (.ok b) := .inl ⟨a, b, rfl, rfl, h⟩

theorem Cmd.EndsAlike.bind {α β γ δ : Type} {R : α → β → Prop} {S : γ → δ → Prop} {c : Cmd α} {c' : Cmd β}
    {f : α → Cmd γ} {g : β → Cmd δ} (h : EndsAlike R c c') (hfg : ∀ a b, R a b → EndsAlike S (f a) (g b)) :
    EndsAlike S (c >>= f) (c' >>= g) := by
  obtain ⟨a, b, rfl, rfl, hab⟩ | ⟨e, rfl, rfl⟩ := h
  · exact hfg a b hab
  · exact .inr ⟨e, rfl, rfl⟩

theorem Cmd.EndsAlike.ite {α β : Type} {R : α → β → Prop} {P : Prop} [Decidable P] {c d : Cmd α} {c' d' : Cmd β}
    (hc : P → EndsAlike R c c') (hd : ¬ P → EndsAlike R d d') :
    EndsAlike R (if P then c else d) (if P then c' else d') := by
  split
  · exact hc ‹P›
  · exact hd ‹¬ P›

/-- A first part that does not differ: what follows may use that it ended in the value. -/
theorem Cmd.EndsAlike.bind_same {α γ δ : Type} {S : γ → δ → Prop} {c c' : Cmd α} {f : α → Cmd γ} {g : α → Cmd δ}
    (h : c' = c) (hfg : ∀ a, c = .ok a → EndsAlike S (f a) (g a)) : EndsAlike S (c >>= f) (c' >>= g) := by
  subst h
  cases c' with
  | ok a => exact hfg a rfl
  | error e => exact .inr ⟨e, rfl, rfl⟩

/-- Sequences with the same first part are equal when what follows its value is. -/
theorem Cmd.bind_congr {α β : Type} {c c' : Cmd α} {f g : α → Cmd β} (h : c' = c) (hfg : ∀ a, c = .ok a → g a = f a) :
    (c' >>= g) = (c >>= f) := by
  subst h
  cases c' with
  | ok a => exact hfg a rfl
  | error e => rfl

/-! ### The same stores below a length -/

/-- `x` comes of `m`, and `x'` of `m'`, by the same stores below `n`. -/
structure Memory.StoredAlike (n : Nat) (m m' x x' : Memory) : Prop where
  below : AgreeBelow n x x'
  above : ∀ a, n ≤ a → x'.read a = m'.read a ∧ x.read a = m.read a

theorem Memory.StoredAlike.refl {n : Nat} {m m' : Memory} (h : AgreeBelow n m m') : StoredAlike n m m' m m' :=
  ⟨h, fun _ _ => ⟨rfl, rfl⟩⟩

theorem Memory.StoredAlike.writeBytes {n a : Nat} {m m' x x' : Memory} {vs : List Byte}
    (h : StoredAlike n m m' x x') (ha : a + vs.length ≤ n) :
    StoredAlike n m m' (x.writeBytes a vs) (x'.writeBytes a vs) where
  below b hb := by
    rw [Memory.read_writeBytes, Memory.read_writeBytes, h.below b hb]
  above b hb := by
    rw [Memory.read_writeBytes_outside _ _ _ _ (by omega), Memory.read_writeBytes_outside _ _ _ _ (by omega)]
    exact h.above b hb

theorem Memory.StoredAlike.wrBe32 {n a : Nat} {m m' x x' : Memory} {v : Word} (h : StoredAlike n m m' x x')
    (ha : a + 4 ≤ n) : StoredAlike n m m' (x.wrBe32 a v) (x'.wrBe32 a v) := h.writeBytes ha

/-- The states two runs from `s` and `s'` come to: BUF aside they are equal, and BUF was stored alike below `n`. -/
structure State.EndAlike (n : Nat) (s s' u u' : State) : Prop where
  regs : u'.setMem [] = u.setMem []
  mem : Memory.StoredAlike n s.mem s'.mem u.mem u'.mem

/-! ### The loops over a table (R150–R152) -/

/-- The checking loop reads nothing but the entries. -/
theorem checkEntries_congr {b : Build} {m m' : Memory} {t len n i : Nat}
    (h : ∀ k, i ≤ k → k < i + n → readEntry b m' t k = readEntry b m t k) :
    checkEntries b m' t len n i = checkEntries b m t len n i := by
  induction n generalizing i with
  | zero => rfl
  | succ n ih =>
    rw [checkEntries, checkEntries, h i (Nat.le_refl i) (by omega), ih fun k hk hk' => h k (by omega) (by omega)]

/-- An accepted table has a first entry that reads and, where it is enabled, a region inside the length, and an accepted
rest. -/
theorem checkEntries_succ_ok {b : Build} {m : Memory} {t len n i : Nat} {u : Unit}
    (h : checkEntries b m t len (n + 1) i = .ok u) :
    ∃ start stop sentinel, readEntry b m t i = .ok (start, stop, sentinel) ∧ (sentinel = true ∨ stop ≤ len) ∧
      checkEntries b m t len n (i + 1) = .ok u := by
  rw [checkEntries_ok] at h
  obtain ⟨start, stop, sentinel, hr, hpass⟩ := h i (Nat.le_refl i) (by omega)
  refine ⟨start, stop, sentinel, hr, hpass.imp_right fun ⟨_, _, _, hstop⟩ => hstop, ?_⟩
  exact (checkEntries_ok ..).mpr fun k hk hk' => h k (by omega) (by omega)

/-- Storing the checksum of an entry leaves the checks of the entries after it as they were. -/
theorem checkEntries_wrBe32 (b : Build) (m : Memory) (t len n i : Nat) (c : Word) :
    checkEntries b (m.wrBe32 (entryAt t i + 8) c) t len n (i + 1) = checkEntries b m t len n (i + 1) :=
  checkEntries_congr fun _ _ _ => readEntry_congr fun _ _ =>
    Memory.read_wrBe32_outside _ _ _ _ (by unfold entryAt; omega)

theorem Memory.AgreeBelow.tableChecks_eq {p : Pending} {s : State} {m : Memory} (h : AgreeBelow p.len s.mem m) :
    tableChecks p (s.setMem m) = tableChecks p s := by
  refine Cmd.bind_congr rfl fun _ hops => ?_
  obtain ⟨-, hfit⟩ := (tableOperandChecks_ok p _).mp hops
  exact checkEntries_congr fun k _ hk => h.readEntry_eq _ (by omega)

theorem Memory.AgreeBelow.validateEntries_eq {b : Build} {m m' : Memory} {t len n i mis en : Nat}
    (h : AgreeBelow len m m') (ht : t + 12 * (i + n) ≤ len) (hc : checkEntries b m t len n i = .ok ()) :
    validateEntries b m' t n i mis en = validateEntries b m t n i mis en := by
  induction n generalizing i mis en with
  | zero => rfl
  | succ n ih =>
    obtain ⟨start, stop, sentinel, hr, hstop, hrest⟩ := checkEntries_succ_ok hc
    refine Cmd.bind_congr (h.readEntry_eq b (by omega)) fun x hx => ?_
    obtain rfl : (start, stop, sentinel) = x := Except.ok.inj (hr.symm.trans hx)
    cases sentinel with
    | true => exact ih (by omega) hrest
    | false =>
      have hck : ckB b m' start stop = ckB b m start stop := h.ckB_eq b (by simpa using hstop)
      have hsum : entryChecksum m' t i = entryChecksum m t i := h.be32_eq (by unfold entryAt; omega)
      exact Cmd.bind_congr (congrArg ofRead hsum) fun _ _ =>
        Cmd.bind_congr (congrArg ofRead hck) fun _ _ => ih (by omega) hrest

/-- The update loops of two runs store the same checksums. -/
theorem updateEntries_endsAlike {b : Build} {m m' x x' : Memory} {t len n i u : Nat}
    (h : Memory.StoredAlike len m m' x x') (ht : t + 12 * (i + n) ≤ len)
    (hc : checkEntries b x t len n i = .ok ()) :
    Cmd.EndsAlike (fun y y' => Memory.StoredAlike len m m' y.1 y'.1 ∧ y'.2 = y.2)
      (updateEntries b t n i x u) (updateEntries b t n i x' u) := by
  induction n generalizing i x x' u with
  | zero => exact .ok ⟨h, rfl⟩
  | succ n ih =>
    obtain ⟨start, stop, sentinel, hr, hstop, hrest⟩ := checkEntries_succ_ok hc
    refine .bind_same (h.below.readEntry_eq b (by omega)) fun y hy => ?_
    obtain rfl : (start, stop, sentinel) = y := Except.ok.inj (hr.symm.trans hy)
    cases sentinel with
    | true => exact ih h (by omega) hrest
    | false =>
      have hck : ckB b x' start stop = ckB b x start stop := h.below.ckB_eq b (by simpa using hstop)
      refine .bind_same (congrArg ofRead hck) fun c _ => ih (h.wrBe32 ?_) (by omega) ?_
      · unfold entryAt; omega
      · rw [checkEntries_wrBe32]; exact hrest

/-! ### The commands -/

section
variable {p : Pending} {s : State} {m : Memory}

theorem Memory.AgreeBelow.regionCrc_eq (h : AgreeBelow p.len s.mem m) : regionCrc p (s.setMem m) = regionCrc p s := by
  refine Cmd.bind_congr rfl fun _ hc => ?_
  obtain ⟨hlt, hfit⟩ := (crcChecks_ok p _).mp hc
  exact Cmd.bind_congr (congrArg ofRead (h.readBytes_eq (by omega))) fun _ _ => rfl

theorem Memory.AgreeBelow.m32aSum_eq (h : AgreeBelow p.len s.mem m) : m32aSum p (s.setMem m) = m32aSum p s :=
  Cmd.bind_congr rfl fun _ _ => congrArg ofRead (h.wsum_eq (Nat.le_refl _))

/-- Two runs that come to the same value and put it into the results. -/
theorem endsAlike_setRes {α : Type} {n : Nat} {c c' : Cmd α} {x : α → Results} (h : Memory.AgreeBelow n s.mem m)
    (hc : c' = c) :
    Cmd.EndsAlike (State.EndAlike n s (s.setMem m)) (c >>= fun a => .ok (s.setRes (x a)))
      (c' >>= fun a => .ok ((s.setMem m).setRes (x a))) :=
  .bind_same hc fun _ _ => .ok ⟨rfl, .refl h⟩

/-- Two runs that come to the same value and store what it says below the length. -/
theorem endsAlike_store {α : Type} {n d : Nat} {c c' : Cmd α} {vs : α → List Byte} {x : α → Results}
    (h : Memory.AgreeBelow n s.mem m) (hc : c' = c) (hfit : ∀ a, c = .ok a → d + (vs a).length ≤ n) :
    Cmd.EndsAlike (State.EndAlike n s (s.setMem m))
      (c >>= fun a => .ok ((s.setMem (s.mem.writeBytes d (vs a))).setRes (x a)))
      (c' >>= fun a => .ok (((s.setMem m).setMem (m.writeBytes d (vs a))).setRes (x a))) :=
  .bind_same hc fun a ha => .ok ⟨rfl, (Memory.StoredAlike.refl h).writeBytes (hfit a ha)⟩

theorem m32bTableUpdateBody_endsAlike (h : Memory.AgreeBelow p.len s.mem m) :
    Cmd.EndsAlike (State.EndAlike p.len s (s.setMem m)) (m32bTableUpdateBody p s)
      (m32bTableUpdateBody p (s.setMem m)) := by
  refine .bind_same h.tableChecks_eq fun _ hc => ?_
  obtain ⟨⟨-, hfit⟩, hentries⟩ := (tableChecks_ok p s _).mp hc
  refine .bind (updateEntries_endsAlike (.refl h) (by omega) hentries) ?_
  rintro ⟨y, u⟩ ⟨y', u'⟩ ⟨hy, rfl⟩
  exact .ok ⟨rfl, hy⟩

theorem frameDecodeBody_endsAlike (h : Memory.AgreeBelow p.len s.mem m) :
    Cmd.EndsAlike (State.EndAlike p.len s (s.setMem m)) (frameDecodeBody p s) (frameDecodeBody p (s.setMem m)) := by
  have hshort : Cmd.EndsAlike (State.EndAlike p.len s (s.setMem m)) (.ok (s.setRes shortResults))
      (.ok ((s.setMem m).setRes shortResults)) := .ok ⟨rfl, .refl h⟩
  refine .bind_same rfl fun _ hsrc => ?_
  rw [raiseIf_eq_ok, past_eq_false] at hsrc
  refine .ite (fun _ => hshort) fun h1 => ?_
  refine .bind_same (congrArg ofRead (h _ (by omega))) fun pci _ => ?_
  refine .ite (fun _ => hshort) fun hlen => ?_
  refine .bind_same (congrArg ofRead (h.readBytes_eq (by omega))) fun bytes _ => ?_
  cases hf : fdec bytes with
  | none => exact hshort
  | some f =>
    refine endsAlike_store h rfl fun _ hdst => ?_
    rw [raiseIf_eq_ok, past_eq_false] at hdst
    have hpay := fdec_payload_length_le hf
    omega

/-- Two runs of a command over buffers that agree below the latched length end alike. -/
theorem bodyOf_endsAlike (i : Instr) (h : Memory.AgreeBelow p.len s.mem m) :
    Cmd.EndsAlike (State.EndAlike p.len s (s.setMem m)) (bodyOf i p s) (bodyOf i p (s.setMem m)) := by
  cases i with
  | nop | fcExpectCts | fcReceivedCts | fcReset | fcToIdle | fcInit => exact .ok ⟨rfl, .refl h⟩
  | fcHandleTimeout | fcRetry =>
    exact .ite (fun _ => .ok ⟨rfl, .refl h⟩) fun _ => .ok ⟨rfl, .refl h⟩
  | crc16Compute | crc16Check => exact endsAlike_setRes h h.regionCrc_eq
  | m32aCompute => exact endsAlike_setRes h h.m32aSum_eq
  | m32aUpdate =>
    refine endsAlike_store h h.m32aSum_eq fun sum hsum => ?_
    obtain ⟨-, -, hfit, -⟩ := (m32aSum_ok p s sum).mp hsum
    exact hfit
  | m32aValidate =>
    refine .bind_same h.m32aSum_eq fun sum hsum => ?_
    obtain ⟨-, -, hfit, -⟩ := (m32aSum_ok p s sum).mp hsum
    exact endsAlike_setRes h (congrArg ofRead (h.be32_eq hfit))
  | m32bRegion =>
    refine .bind_same rfl fun _ hc => ?_
    obtain ⟨-, -, -, hfit⟩ := (m32bRegionChecks_ok p _).mp hc
    exact endsAlike_setRes h (congrArg ofRead (h.wsum_eq hfit))
  | m32bTableUpdate => exact m32bTableUpdateBody_endsAlike h
  | m32bTableValidate =>
    refine .bind_same h.tableChecks_eq fun _ hc => ?_
    obtain ⟨⟨-, hfit⟩, hentries⟩ := (tableChecks_ok p s _).mp hc
    exact endsAlike_setRes h (h.validateEntries_eq (by omega) hentries)
  | frameEncode =>
    refine .bind_same rfl fun _ hc => ?_
    obtain ⟨-, hsrc, hdst⟩ := (frameEncodeChecks_ok p _).mp hc
    refine endsAlike_store h (congrArg ofRead (h.readBytes_eq hsrc)) fun payload hread => ?_
    obtain ⟨hlen, -⟩ := (Memory.readBytes_eq_some _ _ _ _).mp (ofRead_eq_ok.mp hread)
    rw [encodeFrame_length]
    omega
  | frameDecode => exact frameDecodeBody_endsAlike h
  | frameParse =>
    refine .bind_same rfl fun _ hc => ?_
    obtain ⟨hsrc, hdst⟩ := (frameParseChecks_ok p _).mp hc
    refine endsAlike_store h (congrArg ofRead (h.readBytes_eq hsrc)) fun bytes _ => ?_
    have hroom : (parseStream bytes p.x3).frames.length ≤ p.x3 := parseFrames_length_le ..
    rw [descriptorBytes_length]
    omega
  | bitsExtract =>
    refine .bind_same rfl fun _ hc => ?_
    obtain ⟨-, -, hsrc, hfield⟩ := (bitsChecks_ok p _).mp hc
    exact endsAlike_setRes h (congrArg ofRead (h.extractFrom_eq hsrc hfield))

end

theorem exec_of_body_ok {i : Instr} {s u : State} {p : Pending} (hp : s.pending = some p)
    (h : bodyOf i p s = .ok u) : exec i s = .next (u.complete none) := by
  rw [exec_eq]; exact State.runCommand_ok hp h

theorem exec_of_body_raise {i : Instr} {s : State} {p : Pending} {e : CmdError} (hp : s.pending = some p)
    (h : bodyOf i p s = .error (.raise e)) : exec i s = .next (s.complete (some e)) := by
  rw [exec_eq]; exact State.runCommand_raise hp h

end Sys2Proof.Machine

namespace Sys2Proof.Proofs

open Sys2Proof.Machine

/-- Settles O57: the pseudocode of the two runs ends alike, and so do the completions. -/
theorem commandsTouchOnlyBytesBelowTheLatchedLength : Obligations.CommandsTouchOnlyBytesBelowTheLatchedLength := by
  intro i s p m hp hm
  have hp' : (s.setMem m).pending = some p := hp
  obtain ⟨u, u', hu, hu', halike⟩ | ⟨e, he, he'⟩ := bodyOf_endsAlike i hm
  · rw [exec_of_body_ok hp hu, exec_of_body_ok hp' hu']
    refine ⟨?_, fun f hf => by cases hf⟩
    rintro t ⟨⟩
    exact ⟨_, rfl, congrArg (State.complete · none) halike.regs, halike.mem.below, halike.mem.above⟩
  cases e with
  | raise e =>
    rw [exec_of_body_raise hp he, exec_of_body_raise hp' he']
    refine ⟨?_, fun f hf => by cases hf⟩
    rintro t ⟨⟩
    exact ⟨_, rfl, rfl, hm, fun _ _ => ⟨rfl, rfl⟩⟩
  | fault f =>
    rw [exec_of_body_fault hp he, exec_of_body_fault hp' he']
    exact ⟨fun t ht => (by cases ht), fun _ hf => hf⟩

end Sys2Proof.Proofs
end

section
/-! SUPPORT. O55: where the storing commands store (20_memory.md R68; 41_mod32.md R144, R151; 42_frame.md R172–R176). -/

namespace Sys2Proof.Machine

/-- An error leaves BUF as the command found it (R252). -/
theorem exec_error_mem {i : Instr} {s t : State} (h : exec i s = .next t) (herr : t.status.err = true) :
    t.mem = s.mem := by
  obtain ⟨p, -, ⟨u, -, rfl⟩ | ⟨e, -, -, rfl⟩⟩ := exec_next h
  · rw [State.complete_none_status] at herr; cases herr
  · rfl

/-- What the pending command answers: its pseudocode's state completed, or BUF as the command found it and `ERR`
set (R252). -/
theorem exec_next_pending {i : Instr} {s t : State} {p : Pending} (hp : s.pending = some p) (h : exec i s = .next t) :
    (∃ u, bodyOf i p s = .ok u ∧ t = u.complete none) ∨ (t.mem = s.mem ∧ t.status.err = true) := by
  obtain ⟨q, hq, ⟨u, hu, rfl⟩ | ⟨e, -, -, rfl⟩⟩ := exec_next h
  · obtain rfl : q = p := Option.some.inj (hq.symm.trans hp)
    exact .inl ⟨u, hu, rfl⟩
  · exact .inr ⟨rfl, rfl⟩

theorem toNat_wordOf {n : Nat} (h : n < 2 ^ 32) : (wordOf n).toNat = n := by
  rw [wordOf, BitVec.toNat_ofNat, Nat.mod_eq_of_lt h]

theorem sameMemOutside_of_mem_eq {s t : State} (h : t.mem = s.mem) (d n : Nat) : sameMemOutside s t d n :=
  fun a _ => by rw [h]

/-- A run of bytes no longer than `n` is stored inside `[d, d+n)`. -/
theorem sameMemOutside_of_writeBytes {s t : State} {d n : Nat} {vs : List Byte} (h : t.mem = s.mem.writeBytes d vs)
    (hn : vs.length ≤ n) : sameMemOutside s t d n := fun a ha => by
  rw [h, Memory.read_writeBytes_outside _ _ _ _ (by omega)]

/-! ### M32B_TABLE_UPDATE -/

/-- An entry that can be read reads as `startAt`, `stopAt` and `sentinelAt` say (R148, R149). -/
theorem readEntry_ok_eq {b : Build} {m : Memory} {t i : Nat} {x : Nat × Nat × Bool} (h : readEntry b m t i = .ok x) :
    x = (startAt m t i, stopAt m t i, sentinelAt b m t i) := by
  by_cases hw : fieldsWritten b m t i
  · rw [readEntry_of_fieldsWritten hw] at h
    exact (Except.ok.inj h).symm
  · rw [readEntry_of_not_fieldsWritten hw] at h
    cases h

/-- The update loop stores the checksum fields of enabled entries only (R151). -/
theorem updateEntries_storedBefore {b : Build} {m0 m : Memory} {t n i u : Nat} {x : Memory × Nat}
    (hm : storedBefore b m0 t i m) (h : updateEntries b t n i m u = .ok x) : storedBefore b m0 t (i + n) x.1 := by
  induction n generalizing i m u with
  | zero => cases h; exact hm
  | succ n ih =>
    rw [← Nat.add_assoc, Nat.add_right_comm]
    obtain ⟨⟨start, stop, sentinel⟩, hr, h⟩ := Cmd.bind_eq_ok h
    have hsentinel : sentinel = sentinelAt b m0 t i :=
      congrArg (·.2.2) (readEntry_ok_eq (hm.readEntry.symm.trans hr))
    cases sentinel with
    | true => exact ih hm.succ h
    | false =>
      obtain ⟨c, -, h⟩ := Cmd.bind_eq_ok h
      exact ih (hm.store hsentinel.symm c) h

theorem mem_enabledEntries {b : Build} {m : Memory} {t n k : Nat} :
    k ∈ enabledEntries b m t n ↔ k < n ∧ sentinelAt b m t k = false := by
  simp [enabledEntries]

theorem m32bTableUpdateBody_stores {p : Pending} {s u : State} (h : m32bTableUpdateBody p s = .ok u) {a : Nat}
    (ha : ∀ i, i ∈ enabledEntries s.build s.mem p.x0 p.x1 → a < entryAt p.x0 i + 8 ∨ entryAt p.x0 i + 12 ≤ a) :
    u.mem.read a = s.mem.read a := by
  obtain ⟨-, m, k, hloop, rfl⟩ := (m32bTableUpdateBody_ok p s u).mp h
  have hstored := updateEntries_storedBefore (storedBefore_refl s.build s.mem p.x0 0) hloop
  refine (hstored a).resolve_right ?_
  rintro ⟨j, hj, hsj, h1, h2⟩
  have hout := ha j (mem_enabledEntries.mpr ⟨by omega, hsj⟩)
  unfold entryAt at hout
  omega

/-! ### Vendor A and frames -/

theorem m32aUpdateBody_stores {p : Pending} {s u : State} (h : m32aUpdateBody p s = .ok u) :
    sameMemOutside s u p.x0 4 := by
  obtain ⟨sum, -, rfl⟩ := (m32aUpdateBody_ok p s u).mp h
  exact sameMemOutside_of_writeBytes rfl (Nat.le_refl 4)

theorem frameEncodeBody_stores {p : Pending} {s u : State} (h : frameEncodeBody p s = .ok u) :
    sameMemOutside s u p.x2 (p.x1 + 2) := by
  obtain ⟨-, payload, hread, rfl⟩ := (frameEncodeBody_ok p s u).mp h
  obtain ⟨hlen, -⟩ := (Memory.readBytes_eq_some _ _ _ _).mp hread
  exact sameMemOutside_of_writeBytes rfl (by rw [encodeFrame_length, hlen])

theorem pciLen_lt (pci : Byte) : pciLen pci < 16 := by
  rw [pciLen_eq]; exact Nat.mod_lt _ (by decide)

theorem frameDecodeBody_stores {p : Pending} {s u : State} (h : frameDecodeBody p s = .ok u) :
    sameMemOutside s u p.x2 u.res.r0.toNat := by
  obtain ⟨-, ⟨-, rfl⟩ | ⟨-, pci, -, ⟨-, rfl⟩ | ⟨-, bytes, f, -, hf, hlen, -, rfl⟩⟩⟩ := (frameDecodeBody_ok p s u).mp h
  · exact sameMemOutside_of_mem_eq rfl _ _
  · exact sameMemOutside_of_mem_eq rfl _ _
  · have hr0 : (wordOf f.len).toNat = f.len := toNat_wordOf (by have := pciLen_lt pci; omega)
    exact sameMemOutside_of_writeBytes rfl ((fdec_payload_length_le hf).trans_eq hr0.symm)

theorem frameParseBody_stores {p : Pending} {s u : State} (h : frameParseBody p s = .ok u) :
    sameMemOutside s u p.x2 (8 * u.res.r0.toNat) := by
  obtain ⟨-, bytes, -, rfl⟩ := (frameParseBody_ok p s u).mp h
  have hroom : (parseStream bytes p.x3).frames.length ≤ p.x3 := parseFrames_length_le ..
  have hr0 := toNat_wordOf (hroom.trans_lt p.args.a3.isLt)
  refine sameMemOutside_of_writeBytes rfl ?_
  rw [descriptorBytes_length, State.setRes_res, hr0]

end Sys2Proof.Machine

namespace Sys2Proof.Proofs

open Sys2Proof.Machine

/-- Settles O55: an error keeps BUF, and each pseudocode stores where its own lemma says. -/
theorem commandsStoreOnlyWhereTheirRuleSays : Obligations.CommandsStoreOnlyWhereTheirRuleSays := by
  refine ⟨fun i s t h herr a => ?_, fun s t p hp h => ?_, fun s t p hp h a ha => ?_, fun s t p hp h => ?_,
    fun s t p hp h herr => ?_, fun s t p hp h herr => ?_⟩
  · rw [exec_error_mem h herr]
  · obtain ⟨u, hu, rfl⟩ | ⟨hmem, -⟩ := exec_next_pending hp h
    · exact m32aUpdateBody_stores (u := u) hu
    · exact sameMemOutside_of_mem_eq hmem _ _
  · obtain ⟨u, hu, rfl⟩ | ⟨hmem, -⟩ := exec_next_pending hp h
    · exact m32bTableUpdateBody_stores hu ha
    · rw [hmem]
  · obtain ⟨u, hu, rfl⟩ | ⟨hmem, -⟩ := exec_next_pending hp h
    · exact frameEncodeBody_stores (u := u) hu
    · exact sameMemOutside_of_mem_eq hmem _ _
  · obtain ⟨u, hu, rfl⟩ | ⟨-, htrue⟩ := exec_next_pending hp h
    · exact frameDecodeBody_stores (u := u) hu
    · rw [herr] at htrue; cases htrue
  · obtain ⟨u, hu, rfl⟩ | ⟨-, htrue⟩ := exec_next_pending hp h
    · exact frameParseBody_stores (u := u) hu
    · rw [herr] at htrue; cases htrue

end Sys2Proof.Proofs
end

section
/-! SUPPORT. O20, O21: host accesses that reach BUF on an idle block, and host accesses that reach nothing
(20_memory.md R62, R64–R66). -/

namespace Sys2Proof.Machine

/-! ### BUF after a word write -/

/-- A word write stores the bytes most significant first (R62). -/
theorem Memory.read_wrBe32_bytes (m : Memory) (a : Nat) (v : Word) :
    (m.wrBe32 a v).read a = some (v.extractLsb' 24 8) ∧ (m.wrBe32 a v).read (a + 1) = some (v.extractLsb' 16 8) ∧
    (m.wrBe32 a v).read (a + 2) = some (v.extractLsb' 8 8) ∧ (m.wrBe32 a v).read (a + 3) = some (v.extractLsb' 0 8) :=
  have hbyte := Memory.read_writeBytes_inside m a (bytesBe v)
  ⟨hbyte 0 (by simp), hbyte 1 (by simp), hbyte 2 (by simp), hbyte 3 (by simp)⟩

/-- Four bytes most significant first are the word they came of (R62). -/
theorem Memory.be32_of_bytes {m : Memory} {a : Nat} {v : Word} (h0 : m.read a = some (v.extractLsb' 24 8))
    (h1 : m.read (a + 1) = some (v.extractLsb' 16 8)) (h2 : m.read (a + 2) = some (v.extractLsb' 8 8))
    (h3 : m.read (a + 3) = some (v.extractLsb' 0 8)) : m.be32 a = some v := by
  simp only [Memory.be32, h0, h1, h2, h3, joinBe_bytesBe]

/-! ### The BUF window of an idle block -/

section
variable {s : State} {a : Nat} (hb : s.build.wellFormed = true) (ha : a < s.build.bufSize.toNat)
  (hp : s.pending = none)
include hb ha hp

theorem hostStep_writeByte (v : Byte) :
    hostStep (.write8 (BitVec.ofNat 32 (0x01000000 + a)) v) s =
      .next ((s.setMem (s.mem.write a v)).setResp .done) := by
  simp only [hostStep, hostWrite8, busTarget_window hb ha, bufTarget_byte, bufAccess_idle hp]

theorem hostStep_readByte {v : Byte} (h : s.mem.read a = some v) :
    hostStep (.read .w8 (BitVec.ofNat 32 (0x01000000 + a))) s = .next (s.setResp (.byte v)) := by
  simp only [hostStep, hostRead, busTarget_window hb ha, bufTarget_byte, bufAccess_idle hp, h]

theorem hostStep_writeWord (hal : a % 4 = 0) (v : Word) :
    hostStep (.write32 (BitVec.ofNat 32 (0x01000000 + a)) v) s =
      .next ((s.setMem (s.mem.wrBe32 a v)).setResp .done) := by
  simp only [hostStep, hostWrite32, busTarget_window hb ha, bufTarget_word hal, bufAccess_idle hp]

theorem hostStep_readWord (hal : a % 4 = 0) {v : Word} (h : s.mem.be32 a = some v) :
    hostStep (.read .w32 (BitVec.ofNat 32 (0x01000000 + a))) s = .next (s.setResp (.word v)) := by
  simp only [hostStep, hostRead, busTarget_window hb ha, bufTarget_word hal, bufAccess_idle hp, h]

end

/-- A store by the host, with its answer and what is left of the agenda, changes no register (R66, R69). -/
theorem sameRegsExcept_hostStore (s : State) (rest : List Event) (m : Memory) (r : BusResponse) :
    sameRegsExcept [] s (((s.setAgenda rest).setMem m).setResp r) := fun q _ => by
  rw [readReg_setResp, readReg_setMem, readReg_setAgenda]

/-! ### Accesses that reach nothing -/

theorem regTarget_of_not_word {width : Width} {off : Nat} (h : width ≠ .w32 ∨ off % 4 ≠ 0) :
    regTarget width off = .nowhere := by
  rw [regTarget, if_neg (by rintro ⟨hw, hal⟩; exact h.elim (· hw) (· hal))]

theorem bufTarget_malformed {width : Width} {a : Nat} (h : width = .w16 ∨ (width = .w32 ∧ a % 4 ≠ 0)) :
    bufTarget width a = .nowhere := by
  rcases h with rfl | ⟨rfl, hal⟩
  · rfl
  · exact if_neg hal

/-- A block offset outside the register block and the BUF window is reserved (R64). -/
theorem busTarget_outside {b : Build} {width : Width} {off : Word} (hreg : 0x100 ≤ off.toNat)
    (hwin : off.toNat < 0x01000000 ∨ 0x01000000 + b.bufSize.toNat ≤ off.toNat) :
    busTarget b width off = .nowhere := by
  simp only [busTarget]
  rw [if_neg (by unfold regBlockSize; omega), if_neg (by unfold bufWindowBase; omega)]

/-- No place takes a 16-bit access or a misaligned 32-bit one (R65, R66). -/
theorem busTarget_misfit {b : Build} {width : Width} {off : Word}
    (h : width = .w16 ∨ (width = .w32 ∧ off.toNat % 4 ≠ 0)) : busTarget b width off = .nowhere := by
  simp only [busTarget]
  split
  · exact regTarget_of_not_word (h.imp (by rintro rfl; decide) And.right)
  · split
    · have hbase : bufWindowBase % 4 = 0 := rfl
      exact bufTarget_malformed (h.imp_right fun ⟨hw, hal⟩ => ⟨hw, by omega⟩)
    · rfl

/-- The register block takes 32-bit accesses only (R65). -/
theorem busTarget_register_narrow {b : Build} {width : Width} {off : Word} (hreg : off.toNat < 0x100)
    (hw : width ≠ .w32) : busTarget b width off = .nowhere := by
  rw [busTarget]
  exact (if_pos hreg).trans (regTarget_of_not_word (.inl hw))

theorem hostRead_nowhere {s : State} {width : Width} {off : Word} (h : busTarget s.build width off = .nowhere) :
    hostRead s width off = .next (s.setResp .busError) := by
  simp only [hostRead, h]

theorem hostWrite8_nowhere {s : State} {off : Word} (h : busTarget s.build .w8 off = .nowhere) (v : Byte) :
    hostWrite8 s off v = .next (s.setResp .busError) := by
  simp only [hostWrite8, h]

theorem hostWrite32_nowhere {s : State} {off : Word} (h : busTarget s.build .w32 off = .nowhere) (v : Word) :
    hostWrite32 s off v = .next (s.setResp .busError) := by
  simp only [hostWrite32, h]

end Sys2Proof.Machine

namespace Sys2Proof.Proofs

open Sys2Proof.Machine

/-- Settles O20: the step of each access in closed form, and the laws of BUF for its bytes. -/
theorem hostAccessesBufBigEndian : Obligations.HostAccessesBufBigEndian := by
  refine ⟨fun s a v rest hp hb ha h => ?_, fun s a v rest hp hb ha hread h => ?_,
    fun s a v rest hp hb hal ha h => ?_, fun s a v rest hp hb hal ha h0 h1 h2 h3 h => ?_⟩
  · refine ⟨_, (step_host h).trans (hostStep_writeByte (s := s.setAgenda rest) hb ha hp v),
      Memory.read_write_same s.mem a v, fun b hout => ?_, sameRegsExcept_hostStore s rest _ _, hp, rfl, rfl⟩
    exact Memory.read_write_other s.mem v (by omega)
  · exact (step_host h).trans (hostStep_readByte (s := s.setAgenda rest) hb ha hp hread)
  · obtain ⟨h0, h1, h2, h3⟩ := Memory.read_wrBe32_bytes s.mem a v
    exact ⟨_, (step_host h).trans (hostStep_writeWord (s := s.setAgenda rest) hb ha hp hal v), h0, h1, h2, h3,
      fun b hout => Memory.read_wrBe32_outside s.mem a v b hout, sameRegsExcept_hostStore s rest _ _, hp, rfl, rfl⟩
  · exact (step_host h).trans
      (hostStep_readWord (s := s.setAgenda rest) hb ha hp hal (Memory.be32_of_bytes h0 h1 h2 h3))

/-- Settles O21: the address map sends every such access nowhere, whatever the block is doing. -/
theorem malformedAccessesAreBusErrors : Obligations.MalformedAccessesAreBusErrors := by
  intro s a width off rest ha hbad h
  have htarget : busTarget (s.setAgenda rest).build width off = .nowhere := by
    rcases hbad with hw | ⟨hreg, hwin⟩ | hwin | ⟨hreg, hw⟩ | hal
    · exact busTarget_misfit (.inl hw)
    · exact busTarget_outside hreg (.inl hwin)
    · exact busTarget_outside (by omega) (.inr hwin)
    · exact busTarget_register_narrow hreg hw
    · exact busTarget_misfit (.inr hal)
  rw [step_host h]
  rcases ha with rfl | ⟨v, rfl, rfl⟩ | ⟨v, rfl, rfl⟩ | ⟨v, rfl, rfl⟩
  · exact hostRead_nowhere htarget
  · exact hostWrite8_nowhere htarget v
  · rfl
  · exact hostWrite32_nowhere htarget v

end Sys2Proof.Proofs
end

section
/-! SUPPORT. O4: the step as the first of the agenda, or the block left to itself (20_memory.md R70, R71;
43_flowcontrol.md R208; 60_exceptions.md R266). -/

namespace Sys2Proof.Machine

theorem step_cons {s : State} {e : Event} {rest : List Event} (h : s.agenda = e :: rest) :
    step s = eventStep e (s.setAgenda rest) := by
  simp only [step, agendaStep, h]

theorem step_nil {s : State} (h : s.agenda = []) : step s = idleStep s := by
  simp only [step, agendaStep, h]

theorem engineStep_idle {s : State} (hp : s.pending = none) : engineStep s = .next s := by
  simp only [engineStep, hp]

theorem engineStep_command {s : State} {p : Pending} {i : Instr} (hp : s.pending = some p)
    (hi : decode p.word = .ok i) : engineStep s = exec i s := by
  simp only [engineStep, hp, hi]

theorem timerStep_armed {s : State} (h : s.fc.timerArmed = true) : timerStep s = .next s.expire := if_pos h

theorem timerStep_disarmed {s : State} (h : s.fc.timerArmed = false) : timerStep s = .next s := by
  simp only [timerStep, h, Bool.false_eq_true, if_false]

/-- Left to itself a busy block completes its command, an idle one waits for the timer (log 3). -/
theorem idleStep_busy {s : State} {p : Pending} (hp : s.pending = some p) : idleStep s = engineStep s := by
  simp only [idleStep, State.busy, hp, Option.isSome_some, if_true]

theorem idleStep_idle {s : State} (hp : s.pending = none) : idleStep s = timerStep s := by
  simp only [idleStep, State.busy, hp, Option.isSome_none, Bool.false_eq_true, if_false]

end Sys2Proof.Machine

namespace Sys2Proof.Proofs

open Sys2Proof.Machine

/-- Settles O4: an entry of the agenda runs on the rest of it, and an empty agenda leaves the block to itself. -/
theorem stepFollowsTheTotalOrder : Obligations.StepFollowsTheTotalOrder := by
  refine ⟨fun s p i rest h hp hi => ?_, fun s rest h hp => ?_, fun s a rest h => step_host h,
    fun s rest h harmed => ?_, fun s rest h harmed => ?_, fun s rest h => step_cons h,
    fun s p i h hp hi => ?_, fun s h hp harmed => ?_, fun s h hp harmed => ?_⟩
  · exact (step_cons h).trans (engineStep_command (s := s.setAgenda rest) hp hi)
  · exact (step_cons h).trans (engineStep_idle (s := s.setAgenda rest) hp)
  · exact (step_cons h).trans (timerStep_armed (s := s.setAgenda rest) harmed)
  · exact (step_cons h).trans (timerStep_disarmed (s := s.setAgenda rest) harmed)
  · rw [step_nil h, idleStep_busy hp, engineStep_command hp hi]
  · rw [step_nil h, idleStep_idle hp, timerStep_armed harmed]
  · rw [step_nil h, idleStep_idle hp, timerStep_disarmed harmed]

end Sys2Proof.Proofs
end

section
/-! SUPPORT. O1, O2, O3: the command word as its two fields, the decoder of R92 as the inverse of the encoder, and the
completion of a word that selects no command (30_encoding.md R90–R94; 60_exceptions.md R254). -/

namespace Sys2Proof

/-! ### A command word is its opcode and its reserved bits (R90) -/

theorem toNat_opcodeField (w : Word) : (opcodeField w).toNat = w.toNat % 256 := by simp [opcodeField]

theorem toNat_rsvdField (w : Word) : (rsvdField w).toNat = w.toNat / 256 := by
  rw [rsvdField, BitVec.extractLsb'_toNat, Nat.shiftRight_eq_div_pow]
  omega

theorem rsvdField_eq_zero_iff (w : Word) : rsvdField w = 0 ↔ w.toNat < 256 := by
  rw [← BitVec.toNat_inj, toNat_rsvdField, BitVec.ofNat_eq_ofNat, BitVec.toNat_zero]
  omega

theorem word_eq_of_fields {w v : Word} (hop : opcodeField w = opcodeField v) (hrsvd : rsvdField w = rsvdField v) :
    w = v := by
  have hmod : w.toNat % 256 = v.toNat % 256 := by rw [← toNat_opcodeField, hop, toNat_opcodeField]
  have hdiv : w.toNat / 256 = v.toNat / 256 := by rw [← toNat_rsvdField, hrsvd, toNat_rsvdField]
  exact BitVec.eq_of_toNat_eq (by omega)

/-! ### The words and the rows of the map (R93, R94) -/

theorem rsvdField_encode (i : Instr) : rsvdField (encode i) = 0 := by cases i <;> rfl

theorem opcodeLookup_encode (i : Instr) : opcodeLookup (opcodeField (encode i)) = some i := by cases i <;> rfl

/-- A row of the map holds the opcode of its command's word. -/
theorem opcodeField_encode_of_lookup {op : BitVec 8} {i : Instr} (h : opcodeLookup op = some i) :
    opcodeField (encode i) = op := by
  have hrows : ∀ row ∈ opcodeMap, opcodeField (encode row.2) = row.1 := by decide
  obtain ⟨row, hrow, rfl⟩ := Option.map_eq_some_iff.mp h
  have hop : (row.1 == op) = true := List.find?_some (p := fun x : BitVec 8 × Instr => x.1 == op) hrow
  exact (hrows row (List.mem_of_find?_eq_some hrow)).trans (eq_of_beq hop)

/-- R94's ranges are exactly the opcodes with no row in the map of R93. -/
theorem opcodeReserved_eq_isNone (op : BitVec 8) : opcodeReserved op = (opcodeLookup op).isNone := by
  revert op
  decide

theorem commandWordWellFormed_iff (w : Word) :
    commandWordWellFormed w = true ↔ rsvdField w = 0 ∧ ∃ i, opcodeLookup (opcodeField w) = some i := by
  rw [commandWordWellFormed, opcodeReserved_eq_isNone, Bool.and_eq_true, beq_iff_eq, Bool.not_eq_true',
    Option.isNone_eq_false_iff, Option.isSome_iff_exists]
  rfl

/-! ### What the decoder answers (R92) -/

theorem decode_eq_reserved_iff (w : Word) : decode w = .error .reservedBitsSet ↔ rsvdField w ≠ 0 := by
  by_cases hrsvd : rsvdField w = 0
  · cases hrow : opcodeLookup (opcodeField w) <;> simp [decode, hrsvd, hrow]
  · exact iff_of_true (if_pos hrsvd) hrsvd

theorem decode_eq_ok_iff_row {w : Word} {i : Instr} :
    decode w = .ok i ↔ rsvdField w = 0 ∧ opcodeLookup (opcodeField w) = some i := by
  by_cases hrsvd : rsvdField w = 0
  · cases hrow : opcodeLookup (opcodeField w) <;> simp [decode, hrsvd, hrow]
  · rw [(decode_eq_reserved_iff w).mpr hrsvd]
    exact iff_of_false nofun fun h => hrsvd h.1

/-- The decoder inverts the encoder, and gives a command for no other word. -/
theorem decode_eq_ok_iff {w : Word} {i : Instr} : decode w = .ok i ↔ w = encode i := by
  rw [decode_eq_ok_iff_row]
  constructor
  · rintro ⟨hrsvd, hrow⟩
    exact word_eq_of_fields (opcodeField_encode_of_lookup hrow).symm (hrsvd.trans (rsvdField_encode i).symm)
  · rintro rfl
    exact ⟨rsvdField_encode i, opcodeLookup_encode i⟩

theorem decode_encode (i : Instr) : decode (encode i) = .ok i := decode_eq_ok_iff.mpr rfl

/-- The decoder answers `unassignedOpcode` exactly where it answers nothing else. -/
theorem decode_eq_unassigned_iff (w : Word) :
    decode w = .error .unassignedOpcode ↔ rsvdField w = 0 ∧ ∀ i, w ≠ encode i := by
  rw [← not_ne_iff (a := rsvdField w), ← decode_eq_reserved_iff]
  simp only [ne_eq, ← decode_eq_ok_iff]
  rcases decode w with (_ | _) | i <;> simp

end Sys2Proof

namespace Sys2Proof.Machine

theorem engineStep_illegal {s : State} {p : Pending} {d : DecodeError} (hp : s.pending = some p)
    (hd : decode p.word = .error d) : engineStep s = .next (s.complete (some illegalCommand)) := by
  simp only [engineStep, hp, hd]

theorem readReg_errInfo_illegal (s : State) : readReg .errInfo (s.complete (some illegalCommand)) = 0x000000FE :=
  show ErrInfo.toWord { entry := 0, operand := 0xFE } = 0x000000FE by decide

end Sys2Proof.Machine

namespace Sys2Proof.Proofs

open Sys2Proof.Machine

/-- Settles O1: the decoder's three answers, each with the words it is for. -/
theorem decodeSelectsExactlyTheOpcodeMap : Obligations.DecodeSelectsExactlyTheOpcodeMap := by
  refine ⟨fun w i => decode_eq_ok_iff, fun w => ?_, fun w => ?_, fun w => ?_⟩
  · rw [decode_eq_reserved_iff, ne_eq, rsvdField_eq_zero_iff, not_lt]
  · rw [decode_eq_unassigned_iff, rsvdField_eq_zero_iff]
  · simp only [commandWordWellFormed_iff, decode_eq_ok_iff_row, exists_and_left]

/-- Settles O3: a word that is no command's does not decode, and a command's word decodes to it. -/
theorem engineRaisesIllegalCmdOnReservedWords : Obligations.EngineRaisesIllegalCmdOnReservedWords := by
  refine fun s p hp => ⟨fun hword => ?_, fun i hi => engineStep_command hp (decode_eq_ok_iff.mpr hi)⟩
  cases hd : decode p.word with
  | ok i => exact absurd (decode_eq_ok_iff.mp hd) (hword i)
  | error d =>
    exact ⟨_, engineStep_illegal hp hd, rfl, rfl, readReg_errInfo_illegal s, intStatus_complete_some s _, fun _ => rfl,
      readReg_complete s _, ⟨rfl, rfl, rfl⟩, rfl⟩

/-- Settles O2. -/
theorem writtenOutWordsDecode : Obligations.WrittenOutWordsDecode :=
  ⟨decode_encode .nop, decode_encode .crc16Check, decode_encode .m32aUpdate, decode_encode .m32bTableValidate,
    decode_encode .frameDecode, decode_encode .fcInit, decode_encode .bitsExtract,
    (decode_eq_reserved_iff _).mpr (by decide), (decode_eq_unassigned_iff _).mpr ⟨rfl, fun i => by cases i <;> decide⟩⟩

end Sys2Proof.Proofs
end

section
/-! SUPPORT. O23: the steps of a command line of a host program (30_encoding.md R97, R98; 60_exceptions.md R256): a run
of operand writes, the acceptance, and a run of polls. -/

namespace Sys2Proof.Machine

/-! ### Runs of the machine -/

theorem run_step {s t : State} (h : step s = .next t) (n : Nat) :
    Host.Core.run core (n + 1) s = Host.Core.run core n t := by
  simp only [Host.Core.run, show core.step s = .next t from h]

theorem run_add {m : Nat} {s t : State} (h : Host.Core.run core m s = .next t) (n : Nat) :
    Host.Core.run core (m + n) s = Host.Core.run core n t := by
  induction m generalizing s with
  | zero => cases h; rw [Nat.zero_add]
  | succ m ih =>
    rw [Nat.succ_add]
    cases hs : step s with
    | next u => rw [run_step hs] at h ⊢; exact ih h
    | fault f => simp only [Host.Core.run, show core.step s = .fault f from hs] at h; cases h
    | refused r => simp only [Host.Core.run, show core.step s = .refused r from hs] at h; cases h

/-! ### The operand writes -/

/-- The state with other operand registers. -/
def State.setArgs (s : State) (a : Args) : State := { s with args := a }

/-- The state as a run of host accesses leaves it at the port: the last answer, and what is left of the agenda. -/
def State.atPort (s : State) (x : Option BusResponse) (l : List Event) : State := { s with resp := x, agenda := l }

theorem State.atPort_self {s : State} {l : List Event} (h : s.agenda = l) : s.atPort s.resp l = s := h ▸ rfl

/-- The operand registers with one of them written (R31). -/
def Args.set (a : Args) (r : RegName) (v : Word) : Args :=
  match r with
  | .arg0 => { a with a0 := v }
  | .arg1 => { a with a1 := v }
  | .arg2 => { a with a2 := v }
  | .arg3 => { a with a3 := v }
  | _ => a

/-- The operand registers after the writes of a list, in order. -/
def Args.setAll (a : Args) (ws : List (RegName × Word)) : Args := ws.foldl (fun a x => a.set x.1 x.2) a

/-- The operand registers in the order in which a command line writes them (R98). -/
def argRegs : List RegName := [.arg0, .arg1, .arg2, .arg3]

theorem writeReg_arg {r : RegName} (hr : r ∈ argRegs) (v : Word) (s : State) :
    writeReg r v s = s.setArgs (s.args.set r v) := by
  simp only [argRegs, List.mem_cons, List.not_mem_nil, or_false] at hr
  rcases hr with rfl | rfl | rfl | rfl <;> rfl

/-- Host writes of operand registers change the operands, the last answer and the agenda. -/
theorem run_argWrites (ws : List (RegName × Word)) (hws : ∀ x ∈ ws, x.1 ∈ argRegs) {s : State} {rest : List Event}
    (h : s.agenda = ws.map (fun x => wrEvent x.1 x.2) ++ rest) :
    ∃ x, Host.Core.run core ws.length s = .next ((s.setArgs (s.args.setAll ws)).atPort x rest) := by
  induction ws generalizing s with
  | nil => exact ⟨s.resp, congrArg _ (State.atPort_self h).symm⟩
  | cons w ws ih =>
    obtain ⟨hw, hws⟩ := List.forall_mem_cons.mp hws
    have hstep := step_writeReg (mem_registerMap w.1) h
    rw [afterWrite, writeReg_arg hw] at hstep
    rw [List.length_cons, run_step hstep]
    exact ih hws rfl

/-- A line's operands reach `ARG0` onwards; an operand that is left out keeps its register (R98). -/
theorem setAll_zip_argRegs (a : Args) (ops : List Word) (h : ops.length ≤ 4) :
    a.setAll (List.zip argRegs ops) =
      { a0 := ops.getD 0 a.a0, a1 := ops.getD 1 a.a1, a2 := ops.getD 2 a.a2, a3 := ops.getD 3 a.a3 } := by
  match ops, h with
  | [], _ | [_], _ | [_, _], _ | [_, _, _], _ | [_, _, _, _], _ => rfl

/-! ### The acceptance and the polls -/

theorem State.writeCmd_idle {s : State} (hp : s.pending = none) (w : Word) : s.writeCmd w = s.accept w :=
  if_neg (by simp [State.busy, hp])

theorem step_writeCmd_idle {s : State} {w : Word} {rest : List Event} (hp : s.pending = none)
    (h : s.agenda = wrEvent .cmd w :: rest) :
    step s = .next ((s.accept w).atPort (some .done) rest) := by
  rw [step_writeReg (mem_registerMap .cmd) h, afterWrite, writeReg, State.writeCmd_idle (s := s.setAgenda rest) hp]
  rfl

/-- Polls of a register change the last answer and the agenda (R69). -/
theorem run_polls (r : RegName) (k : Nat) {s : State} {rest : List Event}
    (h : s.agenda = List.replicate k (rdEvent r) ++ rest) :
    ∃ x, Host.Core.run core k s = .next (s.atPort x rest) := by
  induction k generalizing s with
  | zero => exact ⟨s.resp, congrArg _ (State.atPort_self h).symm⟩
  | succ k ih =>
    rw [run_step (step_readReg (mem_registerMap r) h)]
    exact ih rfl

/-- The steps of a command line before the engine's, whole (log 16). -/
theorem run_commandLine {s : State} {i : Instr} {ops : List Word} {k : Nat} (hp : s.pending = none)
    (hops : ops.length ≤ 4) (h : s.agenda = (HostLine.command i ops k).events) :
    ∃ x, Host.Core.run core (ops.length + 1 + k) s =
      .next (((s.setArgs (s.args.setAll (List.zip argRegs ops))).accept (encode i)).atPort x
        [.engine, rdEvent .status]) := by
  have hagenda : s.agenda = (List.zip argRegs ops).map (fun x => wrEvent x.1 x.2) ++
      (wrEvent .cmd (encode i) :: waitEvents k) := by
    rw [h, HostLine.events, List.append_assoc]; rfl
  have hlen : (List.zip argRegs ops).length = ops.length := by
    rw [List.length_zip]; exact min_eq_right hops
  obtain ⟨y, hwrites⟩ := run_argWrites _ (fun x hx => (List.of_mem_zip hx).1) hagenda
  rw [hlen] at hwrites
  have hcmd := step_writeCmd_idle
    (s := (s.setArgs (s.args.setAll (List.zip argRegs ops))).atPort y (wrEvent .cmd (encode i) :: waitEvents k)) hp rfl
  rw [Nat.add_assoc, run_add hwrites, Nat.add_comm 1 k, run_step hcmd]
  exact run_polls .status k rfl

end Sys2Proof.Machine

namespace Sys2Proof.Proofs

open Sys2Proof.Machine

/-- Settles O23: the operand writes, the acceptance and the polls, one run after another. -/
theorem commandLineIssuesItsCommand : Obligations.CommandLineIssuesItsCommand := by
  intro s i ops k hp hops h
  obtain ⟨x, hrun⟩ := run_commandLine hp hops h
  rw [setAll_zip_argRegs _ _ hops] at hrun
  refine ⟨_, hrun, rfl, rfl, rfl, rfl, rfl, rfl, rfl, fun r hr => ?_, fun _ => rfl⟩
  cases r <;> simp at hr <;> rfl

end Sys2Proof.Proofs
end

section
/-! SUPPORT. O27, O28: the CRC register itself (40_crc16.md R120, R124): its bit-serial form, its laws, and the shift
that is left of a byte equal to the low bits of the register. -/

namespace Sys2Proof.Machine

/-- A bit `x` that enters the register as it shifts: the polynomial when the bit going out differs from it. -/
def crcSerialBit (poly c : Half) (x : Bool) : Half :=
  if c.getLsbD 0 != x then (c >>> 1) ^^^ poly else c >>> 1

/-- XORing data into the register ahead of a bit step feeds the step their lowest bit; the others wait, shifted. -/
theorem crcBit_xor (poly c v : Half) : crcBit poly (c ^^^ v) = crcSerialBit poly c (v.getLsbD 0) ^^^ (v >>> 1) := by
  simp only [crcBit, crcSerialBit, BitVec.getLsbD_xor, BitVec.ushiftRight_xor_distrib, Bool.bne_eq_xor]
  split
  · rw [BitVec.xor_assoc, BitVec.xor_comm _ poly, BitVec.xor_assoc]
  · rfl

theorem crcBits_xor (poly : Half) (n : Nat) (c v : Half) :
    crcBits poly n (c ^^^ v) = ((List.range n).map v.getLsbD).foldl (crcSerialBit poly) c ^^^ (v >>> n) := by
  induction n generalizing c v with
  | zero => rw [BitVec.ushiftRight_zero]; rfl
  | succ n ih =>
    have hbits : (v >>> 1).getLsbD = v.getLsbD ∘ Nat.succ := funext fun k => by
      rw [BitVec.getLsbD_ushiftRight, Nat.add_comm]; rfl
    rw [crcBits, crcBit_xor, ih, hbits, List.range_succ_eq_map, List.map_cons, List.map_map, List.foldl_cons,
      ← BitVec.shiftRight_add, Nat.add_comm 1 n]

theorem zeroExtend_shift_byte (b : Byte) : b.zeroExtend 16 >>> 8 = 0#16 := BitVec.eq_of_getLsbD_eq fun k _ => by simp

theorem crcByte_eq_serial (poly c : Half) (b : Byte) :
    crcByte poly c b = ((List.range 8).map b.getLsbD).foldl (crcSerialBit poly) c := by
  have hbits : (List.range 8).map (b.zeroExtend 16).getLsbD = (List.range 8).map b.getLsbD :=
    List.map_congr_left fun k hk => by
      have hk : k < 8 := List.mem_range.mp hk
      simp; omega
  rw [crcByte, crcBits_xor, zeroExtend_shift_byte, BitVec.xor_zero, hbits]

theorem crc16_eq_foldl (poly : Half) (bytes : List Byte) : crc16 poly bytes = bytes.foldl (crcByte poly) 0xFFFF :=
  BitVec.xor_zero

/-- The check value (R124 law 1). -/
theorem crc16_check9 : crc16 0x8408 [0x31, 0x32, 0x33, 0x34, 0x35, 0x36, 0x37, 0x38, 0x39] = 0x6F91 := by
  decide +kernel

theorem crc16_zeroByte : crc16 0x8408 [0x00] = 0x0F87 := by decide +kernel

/-- A final XOR of ones inverts the CRC (R124 law 2). -/
theorem crc16_xor_ones (poly : Half) (bytes : List Byte) :
    crc16 poly bytes ^^^ 0xFFFF = crc16With poly 0xFFFF bytes := by
  rw [crc16_eq_foldl]; rfl

/-- Bit steps that meet only zeros are shifts. -/
theorem crcBits_of_low_zero (poly : Half) (n : Nat) (v : Half) (h : ∀ k, k < n → v.getLsbD k = false) :
    crcBits poly n v = v >>> n := by
  induction n generalizing v with
  | zero => rw [BitVec.ushiftRight_zero]; rfl
  | succ n ih =>
    have hbit : crcBit poly v = v >>> 1 := if_neg (by rw [h 0 n.succ_pos]; exact Bool.false_ne_true)
    have hlow : ∀ k, k < n → (v >>> 1).getLsbD k = false := fun k hk => by
      rw [BitVec.getLsbD_ushiftRight]
      exact h _ (by omega)
    rw [crcBits, hbit, ih _ hlow, ← BitVec.shiftRight_add, Nat.add_comm]

/-- The low byte of the register clears itself and moves the high byte down. -/
theorem crcByte_low (poly c : Half) : crcByte poly c (c.extractLsb' 0 8) = c >>> 8 := by
  have hlow : ∀ k, k < 8 → (c ^^^ (c.extractLsb' 0 8).zeroExtend 16).getLsbD k = false := fun k hk => by
    have hk' : k < 16 := by omega
    simp [hk, hk']
  rw [crcByte, crcBits_of_low_zero poly 8 _ hlow, BitVec.ushiftRight_xor_distrib, zeroExtend_shift_byte,
    BitVec.xor_zero]

/-- Residue 0: the CRC's two bytes, low byte first, empty the register (R124 law 3). -/
theorem crc16_append_crc (poly : Half) (bytes : List Byte) :
    crc16 poly (bytes ++ [(crc16 poly bytes).extractLsb' 0 8, (crc16 poly bytes).extractLsb' 8 8]) = 0x0000 := by
  generalize hc : crc16 poly bytes = c
  have hhigh : c.extractLsb' 8 8 = (c >>> 8).extractLsb' 0 8 := BitVec.eq_of_getLsbD_eq fun k _ => by simp
  rw [crc16_eq_foldl] at hc ⊢
  rw [List.foldl_append, hc, List.foldl_cons, List.foldl_cons, List.foldl_nil, crcByte_low, hhigh, crcByte_low,
    ← BitVec.shiftRight_add]
  exact BitVec.ushiftRight_eq_zero (Nat.le_refl 16)

end Sys2Proof.Machine
end

section
/-! SUPPORT. O25, O26, O28: how CRC16_COMPUTE and CRC16_CHECK end (40_crc16.md R121–R123). -/

namespace Sys2Proof.Machine

/-! ### The region's CRC, or why there is none (R121) -/

theorem crcChecks_emptyRegion {p : Pending} (h : p.x1 ≤ p.x0) :
    crcChecks p = .error (.raise { code := .emptyRegion, culprit := .arg0, entry := 0 }) := by
  simp [crcChecks, emptyRange, h]

theorem crcChecks_bounds {p : Pending} (h : p.x0 < p.x1) (hlen : p.len < p.x1) :
    crcChecks p = .error (.raise { code := .bounds, culprit := .arg1, entry := 0 }) := by
  simp [crcChecks, (emptyRange_eq_false _ _).mpr h, past, hlen]

theorem regionCrc_of_holds {p : Pending} {s : State} {bytes : List Byte} (h : p.x0 < p.x1) (hlen : p.x1 ≤ p.len)
    (hb : bytes.length = p.x1 - p.x0) (hm : holds s.mem p.x0 bytes) :
    regionCrc p s = .ok (crc16 s.build.crc16Poly bytes) :=
  (regionCrc_ok p s _).mpr ⟨h, hlen, bytes, (Memory.readBytes_eq_some _ _ _ _).mpr ⟨hb, hm⟩, rfl⟩

theorem regionCrc_of_not_written {p : Pending} {s : State} (h : p.x0 < p.x1) (hlen : p.x1 ≤ p.len)
    (hw : ¬ written s.mem p.x0 (p.x1 - p.x0)) : regionCrc p s = .error (.fault .uninitRead) := by
  rw [regionCrc, (crcChecks_ok p ()).mpr ⟨h, hlen⟩, Cmd.ok_bind, readBytes_of_not_written hw]
  rfl

/-! ### What the two commands make of it (R122, R123) -/

/-- The early end of the checks and the read is the command's. -/
theorem bodyOf_crc_error {i : Instr} (hi : i = .crc16Compute ∨ i = .crc16Check) {p : Pending} {s : State} {e : Stop}
    (h : regionCrc p s = .error e) : bodyOf i p s = .error e := by
  rcases hi with rfl | rfl <;> exact congrArg (· >>= _) h

/-- The errors and the fault the two commands share, each with the operands it is for (R121, R43). -/
theorem exec_crc_stops {i : Instr} (hi : i = .crc16Compute ∨ i = .crc16Check) {s : State} {p : Pending}
    (hp : s.pending = some p) :
    (p.x1 ≤ p.x0 → exec i s = .next (s.complete (some { code := .emptyRegion, culprit := .arg0, entry := 0 }))) ∧
    (p.x0 < p.x1 → p.len < p.x1 →
      exec i s = .next (s.complete (some { code := .bounds, culprit := .arg1, entry := 0 }))) ∧
    (p.x0 < p.x1 → p.x1 ≤ p.len → ¬ written s.mem p.x0 (p.x1 - p.x0) → exec i s = .fault .uninitRead) := by
  have hraise : ∀ {e : Stop}, crcChecks p = .error e → bodyOf i p s = .error e := fun h =>
    bodyOf_crc_error hi (by rw [regionCrc, h, Cmd.error_bind])
  exact ⟨fun h => exec_of_body_raise hp (hraise (crcChecks_emptyRegion h)),
    fun h hlen => exec_of_body_raise hp (hraise (crcChecks_bounds h hlen)),
    fun h hlen hw => exec_of_body_fault hp (bodyOf_crc_error hi (regionCrc_of_not_written h hlen hw))⟩

/-- A command that reached its end wrote its destinations and the bookkeeping (R96, R258). -/
theorem completedWriting_of_body {i : Instr} {p : Pending} {s u : State} (hi : i ≠ .fcExpectCts)
    (h : bodyOf i p s = .ok u) : completedWriting (destinations i) s (u.complete none) := by
  have hframe := bodyOf_frame h
  refine ⟨⟨rfl, ?_, rfl, ?_⟩, sameRegsExcept_complete hframe.regs none, hframe.outside, hframe.timerLatch hi⟩
  · rw [State.complete_none_status, hframe.status]
  · rw [State.complete_none_intStatus, hframe.intStatus]; rfl

theorem sameMem_of_body {i : Instr} {p : Pending} {s u : State} (hi : storing i = false)
    (h : bodyOf i p s = .ok u) : sameMem s (u.complete none) := fun a => by
  rw [State.complete_mem, (bodyOf_frame h).mem hi]

/-- The expected CRC is `ARG2` modulo 65536. -/
theorem eq_expectedCrc_iff (c : Half) (p : Pending) : c = p.expectedCrc ↔ c.toNat = p.x2 % 65536 := by
  rw [← BitVec.toNat_inj, Pending.expectedCrc, BitVec.extractLsb'_toNat]
  rfl

theorem wordOfBool_eq_expectedCrc (c : Half) (p : Pending) :
    wordOfBool (c == p.expectedCrc) = if c.toNat = p.x2 % 65536 then 1 else 0 := by
  simp only [wordOfBool, beq_iff_eq, eq_expectedCrc_iff]

/-- A CRC as a result register holds it is expected back whole. -/
theorem expectedCrc_of_a2 {p : Pending} {c : Half} (h : p.args.a2 = c.zeroExtend 32) : p.expectedCrc = c := by
  rw [Pending.expectedCrc, h]
  exact BitVec.eq_of_getLsbD_eq fun k hk => by
    have hk' : k < 32 := by omega
    simp [hk, hk']

/-- The region's CRC depends on its operands, the polynomial and the bytes of the region (R121). -/
theorem regionCrc_congr {p p' : Pending} {s s' : State} {c : Half} (h : regionCrc p s = .ok c)
    (hb : s'.build = s.build) (hm : ∀ a, p.x0 ≤ a → a < p.x1 → s'.mem.read a = s.mem.read a) (h0 : p'.x0 = p.x0)
    (h1 : p'.x1 = p.x1) (hlen : p'.x1 ≤ p'.len) : regionCrc p' s' = .ok c := by
  obtain ⟨hlt, -, bytes, hread, rfl⟩ := (regionCrc_ok p s c).mp h
  refine (regionCrc_ok p' s' _).mpr ⟨by omega, hlen, bytes, ?_, by rw [hb]⟩
  rw [h0, h1, ← hread]
  exact Memory.readBytes_congr fun k hk => hm _ (by omega) (by omega)

/-- CRC16_CHECK accepts what CRC16_COMPUTE answered for the same bytes (R124 law 4). -/
theorem exec_crc16Check_of_crc16Compute {s t s' : State} {p p' : Pending} (hp : s.pending = some p)
    (ht : exec .crc16Compute s = .next t) (herr : t.status.err = false) (hb : s'.build = s.build)
    (hm : ∀ a, p.x0 ≤ a → a < p.x1 → s'.mem.read a = s.mem.read a) (hp' : s'.pending = some p') (h0 : p'.x0 = p.x0)
    (h1 : p'.x1 = p.x1) (hlen : p'.x1 ≤ p'.len) (ha2 : p'.args.a2 = readReg .res0 t) :
    ∃ t', exec .crc16Check s' = .next t' ∧ readReg .res1 t' = 1 := by
  obtain ⟨u, hu, rfl⟩ | ⟨-, herr'⟩ := exec_next_pending hp ht
  · obtain ⟨c, hc, rfl⟩ := (crc16ComputeBody_ok p s u).mp hu
    have hbody := (crc16CheckBody_ok p' s' _).mpr ⟨c, regionCrc_congr hc hb hm h0 h1 hlen, rfl⟩
    refine ⟨_, exec_of_body_ok (i := .crc16Check) hp' hbody, ?_⟩
    have hmatch : (c == p'.expectedCrc) = true := beq_iff_eq.mpr (expectedCrc_of_a2 ha2).symm
    exact congrArg wordOfBool hmatch
  · rw [herr] at herr'; cases herr'

end Sys2Proof.Machine

namespace Sys2Proof.Proofs

open Sys2Proof.Machine

/-- Settles O27: eight bit steps on the XOR of register and byte are the serial register over the byte's bits. -/
theorem crcIsTheBitSerialRegister : Obligations.CrcIsTheBitSerialRegister := by
  intro poly bytes
  rw [crc16_eq_foldl, List.foldl_flatMap]
  exact congrArg (List.foldl · (0xFFFF : Half) bytes) (funext₂ (crcByte_eq_serial poly))

/-- Settles O25: the stops are those of the region's CRC, and the result goes to `RES0`. -/
theorem crc16ComputeReturnsTheRegionCrc : Obligations.Crc16ComputeReturnsTheRegionCrc := by
  refine ⟨decode_encode .crc16Compute, crc16_check9, crc16_zeroByte, fun s p hp => ?_⟩
  obtain ⟨hempty, hbounds, hfault⟩ := exec_crc_stops (.inl rfl) hp
  refine ⟨hempty, hbounds, fun bytes hlt hlen hb hm => ?_, hfault⟩
  have hbody : bodyOf .crc16Compute p s = .ok _ :=
    (crc16ComputeBody_ok p s _).mpr ⟨_, regionCrc_of_holds hlt hlen hb hm, rfl⟩
  exact ⟨_, exec_of_body_ok hp hbody, rfl, completedWriting_of_body (by decide) hbody, sameMem_of_body rfl hbody⟩

/-- Settles O26: the stops are those of the region's CRC, and the comparison goes to `RES1`. -/
theorem crc16CheckComparesTheRegionCrc : Obligations.Crc16CheckComparesTheRegionCrc := by
  refine ⟨decode_encode .crc16Check, fun s p hp => ?_⟩
  obtain ⟨hempty, hbounds, hfault⟩ := exec_crc_stops (.inr rfl) hp
  refine ⟨hempty, hbounds, fun bytes hlt hlen hb hm => ?_, hfault⟩
  have hbody : bodyOf .crc16Check p s = .ok _ :=
    (crc16CheckBody_ok p s _).mpr ⟨_, regionCrc_of_holds hlt hlen hb hm, rfl⟩
  exact ⟨_, exec_of_body_ok hp hbody, rfl, wordOfBool_eq_expectedCrc _ p, completedWriting_of_body (by decide) hbody,
    sameMem_of_body rfl hbody⟩

/-- Settles O28: the laws one by one; the residue needs no byte before the CRC's own. -/
theorem crcLaws : Obligations.CrcLaws := by
  refine ⟨crc16_check9, crc16_xor_ones, ?_, fun poly bytes _ => crc16_append_crc poly bytes,
    fun _ _ _ _ _ => exec_crc16Check_of_crc16Compute⟩
  rw [← crc16_xor_ones, crc16_check9]
  rfl

end Sys2Proof.Proofs
end

section
/-! SUPPORT. O29–O33: the word sum as a fold over the words, the sum with and without one word of it, and how the
Vendor A commands end (41_mod32.md R140–R145, R153). -/

namespace Sys2Proof.Machine

/-! ### The word sum (R140) -/

theorem wsumFrom_of_words {m : Memory} {skip : Option Nat} (ws : List Word) {a : Nat} {acc : Word}
    (h : ∀ k (hk : k < ws.length), skip ≠ some (a + 4 * k) → m.be32 (a + 4 * k) = some ws[k]) :
    wsumFrom m skip ws.length a acc =
      some ((ws.mapIdx fun k w => if skip = some (a + 4 * k) then 0 else w).foldl (· + ·) acc) := by
  induction ws generalizing a acc with
  | nil => rfl
  | cons w ws ih =>
    have hnext : ∀ k, a + 4 * (k + 1) = a + 4 + 4 * k := fun k => by omega
    have hrest : ∀ k (hk : k < ws.length), skip ≠ some (a + 4 + 4 * k) → m.be32 (a + 4 + 4 * k) = some ws[k] :=
      fun k hk => hnext k ▸ h (k + 1) (Nat.succ_lt_succ hk)
    rw [List.length_cons, wsumFrom_succ, List.mapIdx_cons, List.foldl_cons]
    simp only [hnext, Nat.mul_zero, Nat.add_zero]
    split
    · rw [add_zero]
      exact ih hrest
    · rename_i hs
      have hw : m.be32 a = some w := h 0 (Nat.succ_pos _) hs
      rw [hw]
      exact ih hrest

/-- A word before the region is not in the sum. -/
theorem wsumFrom_skip_before {m : Memory} {f n a : Nat} {acc : Word} (h : f < a) :
    wsumFrom m (some f) n a acc = wsumFrom m none n a acc := by
  induction n generalizing a acc with
  | zero => rfl
  | succ n ih =>
    have hs : some f ≠ some a := fun e => h.ne (Option.some.inj e)
    rw [wsumFrom_succ, wsumFrom_succ, if_neg hs, if_neg (Option.some_ne_none a).symm]
    exact congrArg (m.be32 a).bind (funext fun w => ih (by omega))

/-- A word of the region adds itself to the sum without it. -/
theorem wsumFrom_eq_skip_add {m : Memory} {j n a : Nat} {w acc : Word} (hj : j < n)
    (hw : m.be32 (a + 4 * j) = some w) :
    wsumFrom m none n a acc = (wsumFrom m (some (a + 4 * j)) n a acc).map (· + w) := by
  induction n generalizing j a acc with
  | zero => omega
  | succ n ih =>
    rw [wsumFrom_succ, wsumFrom_succ, if_neg (Option.some_ne_none a).symm]
    cases j with
    | zero =>
      simp only [Nat.mul_zero, Nat.add_zero, if_true] at hw ⊢
      rw [hw, wsumFrom_skip_before (by omega), Option.bind_some, wsumFrom_acc,
        wsumFrom_acc m none n (a + 4) acc, Option.map_map]
      exact congrArg (Option.map · _) (funext fun x => add_right_comm acc w x)
    | succ j =>
      have hs : some (a + 4 * (j + 1)) ≠ some a := fun e => by have := Option.some.inj e; omega
      have hat : a + 4 * (j + 1) = a + 4 + 4 * j := by omega
      rw [if_neg hs]
      rw [hat] at hw ⊢
      cases m.be32 a with
      | none => rfl
      | some v => exact ih (by omega) hw

/-! ### The image with its fixup word (R142) -/

section
variable {m : Memory} {f len : Nat} (hf : f % 4 = 0)
include hf

/-- Storing the fixup word leaves the sum without it. -/
theorem wsum_skip_wrBe32 (v : Word) : wsum (m.wrBe32 f v) 0 len (some f) = wsum m 0 len (some f) :=
  wsumFrom_congr fun k _ hk => Memory.be32_wrBe32_other m f v _ (by
    have hne : f ≠ 0 + 4 * k := fun e => hk (congrArg some e)
    omega)

/-- The whole sum is the sum without the fixup word, and the fixup word. -/
theorem wsum_image {sum w : Word} (hl : len % 4 = 0) (hfit : f + 4 ≤ len) (hsum : wsum m 0 len (some f) = some sum)
    (hw : m.be32 f = some w) : wsum m 0 len none = some (sum + w) := by
  have hat : 0 + 4 * (f / 4) = f := by omega
  rw [← hat] at hsum hw
  have hsplit := wsumFrom_eq_skip_add (acc := 0) (show f / 4 < (len - 0) / 4 by omega) hw
  rw [wsum] at hsum ⊢
  rw [hsplit, hsum]
  rfl

end

/-- A word is the fixup of the sum without it exactly when the whole sum is the target (R145). -/
theorem eq_m32aFixup_iff (sum w : Word) : w = m32aFixup sum ↔ sum + w = m32aTarget := by
  rw [m32aFixup, ← BitVec.sub_eq_add_neg, eq_sub_iff_add_eq, add_comm]

theorem wordOfBool_beq (x y : Word) : wordOfBool (x == y) = if x = y then 1 else 0 := by
  simp only [wordOfBool, beq_iff_eq]

/-- With its fixup in place the image sums to the target (R144, R153 law 1). -/
theorem wsum_image_fixup {m : Memory} {f len : Nat} {sum : Word} (hf : f % 4 = 0) (hl : len % 4 = 0)
    (hfit : f + 4 ≤ len) (hsum : wsum m 0 len (some f) = some sum) (hw : m.be32 f = some (m32aFixup sum)) :
    wsum m 0 len none = some m32aTarget := by
  rw [wsum_image hf hl hfit hsum hw, (eq_m32aFixup_iff sum _).mp rfl]

/-- An updated image validates as long as no byte below the length changes (R153 law 1). -/
theorem exec_m32aValidate_of_m32aUpdate {s t s' : State} {p p' : Pending} (hp : s.pending = some p)
    (ht : exec .m32aUpdate s = .next t) (herr : t.status.err = false)
    (hm : ∀ a, a < p.len → s'.mem.read a = t.mem.read a) (hp' : s'.pending = some p') (h0 : p'.x0 = p.x0)
    (hlen : p'.len = p.len) :
    ∃ t', exec .m32aValidate s' = .next t' ∧ readReg .res2 t' = 1 ∧ wsum s'.mem 0 p.len none = some m32aTarget := by
  obtain ⟨u, hu, rfl⟩ | ⟨-, herr'⟩ := exec_next_pending hp ht
  · obtain ⟨sum, hok, rfl⟩ := (m32aUpdateBody_ok p s u).mp hu
    obtain ⟨hx, hl, hfit, hsum⟩ := (m32aSum_ok p s sum).mp hok
    have hagree : Memory.AgreeBelow p.len (s.mem.wrBe32 p.x0 (m32aFixup sum)) s'.mem := hm
    have hsum' : wsum s'.mem 0 p.len (some p.x0) = some sum := by
      rw [hagree.wsum_eq (Nat.le_refl _), wsum_skip_wrBe32 hx, hsum]
    have hstored : s'.mem.be32 p.x0 = some (m32aFixup sum) := by
      rw [hagree.be32_eq hfit, Memory.be32_wrBe32_same]
    have hok' : m32aSum p' s' = .ok sum := by
      rw [m32aSum_ok, h0, hlen]
      exact ⟨hx, hl, hfit, hsum'⟩
    have hbody : bodyOf .m32aValidate p' s' = .ok _ :=
      (m32aValidateBody_ok p' s' _).mpr ⟨sum, hok', _, by rw [h0]; exact hstored, rfl⟩
    have hmatch : (m32aFixup sum == m32aFixup sum) = true := beq_self_eq_true _
    exact ⟨_, exec_of_body_ok hp' hbody, congrArg wordOfBool hmatch, wsum_image_fixup hx hl hfit hsum' hstored⟩
  · rw [herr] at herr'; cases herr'

end Sys2Proof.Machine

namespace Sys2Proof.Proofs

open Sys2Proof.Machine

/-- Settles O29: by induction on the words, the sum so far generalised. -/
theorem wordSumIsTheModularSum : Obligations.WordSumIsTheModularSum := by
  intro m s skip ws h
  have hn : (s + 4 * ws.length - s) / 4 = ws.length := by omega
  rw [wsum, hn]
  exact wsumFrom_of_words ws h

/-- Settles O30: the sum without the fixup word is what the pseudocode of R143 puts into the results. -/
theorem m32aComputeReturnsTheFixup : Obligations.M32aComputeReturnsTheFixup := by
  intro s p sum hp hx hl hfit hsum
  rw [← m32aFixup_eq]
  have hbody : bodyOf .m32aCompute p s = .ok _ :=
    (m32aComputeBody_ok p s _).mpr ⟨sum, (m32aSum_ok p s sum).mpr ⟨hx, hl, hfit, hsum⟩, rfl⟩
  exact ⟨_, exec_of_body_ok hp hbody, rfl, rfl, completedWriting_of_body (by decide) hbody, sameMem_of_body rfl hbody⟩

/-- Settles O31: the stored word brings the sum, which does not read it, to the target. -/
theorem m32aUpdateStoresTheFixup : Obligations.M32aUpdateStoresTheFixup := by
  intro s p sum hp hx hl hfit hsum
  rw [← m32aFixup_eq]
  have hbody : bodyOf .m32aUpdate p s = .ok _ :=
    (m32aUpdateBody_ok p s _).mpr ⟨sum, (m32aSum_ok p s sum).mpr ⟨hx, hl, hfit, hsum⟩, rfl⟩
  have hstores := m32aUpdateBody_stores hbody
  have hskip := (wsum_skip_wrBe32 (len := p.len) hx (m32aFixup sum)).trans hsum
  exact ⟨_, exec_of_body_ok hp hbody, rfl, rfl, Memory.read_writeBytes_inside s.mem p.x0 (bytesBe (m32aFixup sum)),
    hstores, completedWriting_of_body (by decide) hbody,
    wsum_image_fixup hx hl hfit hskip (Memory.be32_wrBe32_same ..), hskip⟩

/-- Settles O32: the stored word is the fixup exactly when with it the sum is the target. -/
theorem m32aValidateComparesTheFixup : Obligations.M32aValidateComparesTheFixup := by
  intro s p sum stored hp hx hl hfit hsum hstored
  rw [← m32aFixup_eq]
  have hbody : bodyOf .m32aValidate p s = .ok _ :=
    (m32aValidateBody_ok p s _).mpr ⟨sum, (m32aSum_ok p s sum).mpr ⟨hx, hl, hfit, hsum⟩, stored, hstored, rfl⟩
  have hres2 := wordOfBool_beq stored (m32aFixup sum)
  refine ⟨_, exec_of_body_ok hp hbody, rfl, rfl, hres2, ?_, completedWriting_of_body (by decide) hbody,
    sameMem_of_body rfl hbody⟩
  have himage : wsum s.mem 0 p.len none = some m32aTarget ↔ stored = m32aFixup sum := by
    rw [wsum_image hx hl hfit hsum hstored, Option.some.injEq, eq_m32aFixup_iff]
  refine Iff.trans ?_ himage.symm
  change wordOfBool (stored == m32aFixup sum) = 1 ↔ _
  rw [hres2]
  split_ifs with h <;> simp [h]

/-- Settles O33: the sum does not read the stored word, and the later image holds it still. -/
theorem m32aUpdateThenValidates : Obligations.M32aUpdateThenValidates :=
  fun _ _ _ _ _ => exec_m32aValidate_of_m32aUpdate

end Sys2Proof.Proofs
end

section
/-! SUPPORT. O34–O37: how M32B_REGION ends, BUF as the update loop leaves it entry by entry, the counts of the two table
loops, and the table after its update (41_mod32.md R146–R153). -/

namespace Sys2Proof.Machine

/-- After a word write its four bytes are written, and those written before. -/
theorem Memory.isSome_read_wrBe32 (m : Memory) (a : Nat) (v : Word) (c : Nat) :
    ((m.wrBe32 a v).read c).isSome = true ↔ (a ≤ c ∧ c < a + 4) ∨ (m.read c).isSome = true := by
  rw [Memory.wrBe32, Memory.read_writeBytes]
  simp only [bytesBe_length]
  split_ifs with h <;> simp [h]

/-! ### The entries of a table (R148–R150) -/

theorem enabledEntries_succ_sentinel {b : Build} {m : Memory} {t n : Nat} (h : sentinelAt b m t n = true) :
    enabledEntries b m t (n + 1) = enabledEntries b m t n := by
  simp [enabledEntries, List.range_succ, h]

theorem enabledEntries_succ_enabled {b : Build} {m : Memory} {t n : Nat} (h : sentinelAt b m t n = false) :
    enabledEntries b m t (n + 1) = enabledEntries b m t n ++ [n] := by
  simp [enabledEntries, List.range_succ, h]

theorem enabledEntries_length_le (b : Build) (m : Memory) (t n : Nat) : (enabledEntries b m t n).length ≤ n :=
  (List.length_filter_le _ _).trans_eq List.length_range

/-- The addresses of a sentinel are 0 (R149). -/
theorem startAt_stopAt_of_sentinel {b : Build} {m : Memory} {t i : Nat} (h : sentinelAt b m t i = true) :
    startAt m t i = 0 ∧ stopAt m t i = 0 := by
  simp only [sentinelAt, Bool.and_eq_true, beq_iff_eq] at h
  obtain ⟨⟨h0, h4⟩, -⟩ := h
  simp [startAt, stopAt, h0, h4]

/-- An accepted table passes every check, and the bytes the checks need are written (R150). -/
theorem passes_of_tableChecks {p : Pending} {s : State} (h : tableChecks p s = .ok ()) :
    tablePasses s.build s.mem p ∧ ∀ i, i < p.x1 → fieldsWritten s.build s.mem p.x0 i := by
  obtain ⟨⟨hal, hfit⟩, hentries⟩ := (tableChecks_ok p s ()).mp h
  have hentry : ∀ i, i < p.x1 → fieldsWritten s.build s.mem p.x0 i ∧ entryPasses s.build s.mem p.x0 p.len i := by
    intro i hi
    obtain ⟨start, stop, sentinel, hr, hpass⟩ := (checkEntries_ok ..).mp hentries i (Nat.zero_le i) (by omega)
    have hw : fieldsWritten s.build s.mem p.x0 i := by
      by_contra hn
      rw [readEntry_of_not_fieldsWritten hn] at hr
      cases hr
    cases readEntry_ok_eq hr
    exact ⟨hw, hpass.imp_right fun ⟨h1, h2, h3, h4⟩ => (regionError_eq_none ..).mpr ⟨⟨h1, h2⟩, h3, h4⟩⟩
  exact ⟨⟨hal, hfit, fun i hi => (hentry i hi).2⟩, fun i hi => (hentry i hi).1⟩

/-! ### BUF as the update loop leaves it (R151) -/

/-- BUF `m0` after the update loop passed the entries before `i`: each enabled one has the checksum of its region, of BUF
as it was then, in its checksum field. -/
def tableUpdated (b : Build) (m0 : Memory) (t : Nat) : Nat → Memory
  | 0 => m0
  | i + 1 =>
    if sentinelAt b m0 t i then tableUpdated b m0 t i
    else (tableUpdated b m0 t i).wrBe32 (t + 12 * i + 8)
      ((ckB b (tableUpdated b m0 t i) (startAt m0 t i) (stopAt m0 t i)).getD 0)

section
variable {b : Build} {m0 : Memory} {t : Nat}

theorem tableUpdated_sentinel {i : Nat} (h : sentinelAt b m0 t i = true) :
    tableUpdated b m0 t (i + 1) = tableUpdated b m0 t i := if_pos h

theorem tableUpdated_enabled {i : Nat} {sum : Word} (h : sentinelAt b m0 t i = false)
    (hsum : wsum (tableUpdated b m0 t i) (startAt m0 t i) (stopAt m0 t i) none = some sum) :
    tableUpdated b m0 t (i + 1) = (tableUpdated b m0 t i).wrBe32 (t + 12 * i + 8) (b.m32bTarget - sum) := by
  simp [tableUpdated, h, ckB, hsum]

/-- A byte outside the checksum fields of the enabled entries from `i` on keeps its value from entry `i` on. -/
theorem read_tableUpdated_add {i a : Nat} (n : Nat)
    (h : ∀ k, i ≤ k → k < i + n → sentinelAt b m0 t k = false → a < t + 12 * k + 8 ∨ t + 12 * k + 12 ≤ a) :
    (tableUpdated b m0 t (i + n)).read a = (tableUpdated b m0 t i).read a := by
  induction n with
  | zero => rfl
  | succ n ih =>
    have hstep : (tableUpdated b m0 t (i + n + 1)).read a = (tableUpdated b m0 t (i + n)).read a := by
      rw [tableUpdated]
      split
      · rfl
      · rename_i hs
        have hout := h (i + n) (by omega) (by omega) (by simpa using hs)
        exact Memory.read_wrBe32_outside _ _ _ _ (by omega)
    exact hstep.trans (ih fun k hk hk' => h k hk (by omega))

theorem storedBefore_tableUpdated (i : Nat) : storedBefore b m0 t i (tableUpdated b m0 t i) := by
  induction i with
  | zero => exact storedBefore_refl b m0 t 0
  | succ i ih =>
    rw [tableUpdated]
    split
    · exact ih.succ
    · rename_i hs
      exact ih.store (by simpa using hs) _

/-- A byte written before, or in the checksum field of an enabled entry the loop has passed, is written. -/
theorem tableUpdated_written {i a : Nat} (h : (m0.read a).isSome = true ∨
    ∃ k, k < i ∧ sentinelAt b m0 t k = false ∧ t + 12 * k + 8 ≤ a ∧ a < t + 12 * k + 12) :
    ((tableUpdated b m0 t i).read a).isSome = true := by
  induction i with
  | zero => exact h.resolve_right fun ⟨k, hk, _⟩ => Nat.not_lt_zero k hk
  | succ i ih =>
    have hmono (hw : ((tableUpdated b m0 t i).read a).isSome = true) :
        ((tableUpdated b m0 t (i + 1)).read a).isSome = true := by
      rw [tableUpdated]
      split
      · exact hw
      · exact (Memory.isSome_read_wrBe32 ..).mpr (.inr hw)
    obtain h0 | ⟨k, hk, hs, h1, h2⟩ := h
    · exact hmono (ih (.inl h0))
    · obtain hlt | rfl := Nat.lt_succ_iff_lt_or_eq.mp hk
      · exact hmono (ih (.inr ⟨k, hlt, hs, h1, h2⟩))
      · rw [tableUpdated, hs, if_neg Bool.false_ne_true, Memory.isSome_read_wrBe32]
        exact .inl ⟨h1, h2⟩

/-- A region that is ready has a sum when the loop comes to it. -/
theorem wsum_tableUpdated {i : Nat} (h : regionReady b m0 t i) :
    ∃ sum, wsum (tableUpdated b m0 t i) (startAt m0 t i) (stopAt m0 t i) none = some sum :=
  wsum_of_written fun a h1 h2 => tableUpdated_written (h a h1 h2)

/-- The update loop goes through the stages of `tableUpdated` and counts the enabled entries (R151). -/
theorem updateEntries_tableUpdated {n i : Nat} (hw : ∀ k, k < i + n → fieldsWritten b m0 t k)
    (hready : ∀ k, k < i + n → sentinelAt b m0 t k = false → regionReady b m0 t k) :
    updateEntries b t n i (tableUpdated b m0 t i) (enabledEntries b m0 t i).length =
      .ok (tableUpdated b m0 t (i + n), (enabledEntries b m0 t (i + n)).length) := by
  induction n generalizing i with
  | zero => rfl
  | succ n ih =>
    have hnext := ih (i := i + 1) (fun k hk => hw k (by omega)) (fun k hk => hready k (by omega))
    rw [Nat.add_right_comm, Nat.add_assoc] at hnext
    have hentry := (storedBefore_tableUpdated i).readEntry.trans (readEntry_of_fieldsWritten (hw i (by omega)))
    cases hs : sentinelAt b m0 t i with
    | true =>
      rw [hs] at hentry
      rw [updateEntries_sentinel hentry, ← hnext, tableUpdated_sentinel hs, enabledEntries_succ_sentinel hs]
    | false =>
      rw [hs] at hentry
      obtain ⟨sum, hsum⟩ := wsum_tableUpdated (hready i (by omega) hs)
      rw [updateEntries_enabled hentry hsum, ← hnext, tableUpdated_enabled hs hsum, enabledEntries_succ_enabled hs,
        List.length_append, List.length_singleton]

/-- The validating loop counts the enabled entries and the mismatches among them (R152). -/
theorem validateEntries_counts {n i : Nat} (hw : ∀ k, k < i + n → fieldsWritten b m0 t k)
    (hregion : ∀ k, k < i + n → sentinelAt b m0 t k = false →
      written m0 (startAt m0 t k) (stopAt m0 t k - startAt m0 t k) ∧ written m0 (t + 12 * k + 8) 4) :
    validateEntries b m0 t n i ((enabledEntries b m0 t i).filter (mismatchAt b m0 t)).length
        (enabledEntries b m0 t i).length =
      .ok (((enabledEntries b m0 t (i + n)).filter (mismatchAt b m0 t)).length,
        (enabledEntries b m0 t (i + n)).length) := by
  induction n generalizing i with
  | zero => rfl
  | succ n ih =>
    have hnext := ih (i := i + 1) (fun k hk => hw k (by omega)) (fun k hk => hregion k (by omega))
    rw [Nat.add_right_comm, Nat.add_assoc] at hnext
    have hentry := readEntry_of_fieldsWritten (hw i (by omega))
    cases hs : sentinelAt b m0 t i with
    | true =>
      rw [hs] at hentry
      rw [validateEntries_sentinel hentry, ← hnext, enabledEntries_succ_sentinel hs]
    | false =>
      rw [hs] at hentry
      obtain ⟨hbytes, hfield⟩ := hregion i (by omega) hs
      obtain ⟨stored, hstored⟩ := (written_word _ _).mp hfield
      obtain ⟨sum, hsum⟩ := wsum_of_written (m := m0) (a := startAt m0 t i) (e := stopAt m0 t i) fun k h1 h2 => by
        have hk := hbytes (k - startAt m0 t i) (by omega)
        rwa [Nat.add_sub_cancel' h1] at hk
      have hmis : mismatchAt b m0 t i = true ↔ stored ≠ b.m32bTarget - sum := by
        simp [mismatchAt, hstored, ckB, hsum]
      rw [validateEntries_enabled hentry hstored hsum, ← hnext, enabledEntries_succ_enabled hs, List.filter_append,
        List.length_append, List.length_append, List.length_singleton]
      by_cases heq : stored = b.m32bTarget - sum
      · have hm : mismatchAt b m0 t i = false := by simpa using hmis.not.mpr (not_not.mpr heq)
        rw [if_pos heq, List.filter_cons_of_neg (by simp [hm])]
        rfl
      · rw [if_neg heq, List.filter_cons_of_pos (hmis.mpr heq)]
        rfl

/-! ### The table after its update (R153 law 3) -/

/-- The words of an entry are as they were, but for the checksum of an enabled one. -/
theorem be32_tableUpdated (n : Nat) {i c : Nat} (h : c + 4 ≤ 8 ∨ c + 4 ≤ 12 ∧ sentinelAt b m0 t i = true) :
    (tableUpdated b m0 t n).be32 (t + 12 * i + c) = m0.be32 (t + 12 * i + c) := by
  refine Memory.be32_congr fun k hk => (storedBefore_tableUpdated n _).resolve_right ?_
  rintro ⟨j, -, hj, h1, h2⟩
  obtain rfl : j = i := by omega
  simp only [hj, Bool.false_eq_true, and_false, or_false] at h
  omega

theorem tableUpdated_startAt (n i : Nat) : startAt (tableUpdated b m0 t n) t i = startAt m0 t i :=
  congrArg (fun w : Option Word => (w.getD 0).toNat) (be32_tableUpdated (c := 0) n (.inl (by omega)))

theorem tableUpdated_stopAt (n i : Nat) : stopAt (tableUpdated b m0 t n) t i = stopAt m0 t i :=
  congrArg (fun w : Option Word => (w.getD 0).toNat) (be32_tableUpdated n (.inl (by omega)))

/-- The update makes no entry that passes the checks a sentinel or enabled: an enabled one has an end above 0. -/
theorem tableUpdated_sentinelAt (n : Nat) {i len : Nat} (hpass : entryPasses b m0 t len i) :
    sentinelAt b (tableUpdated b m0 t n) t i = sentinelAt b m0 t i := by
  cases hs : sentinelAt b m0 t i with
  | true =>
    have hstart := be32_tableUpdated (b := b) (m0 := m0) (t := t) (i := i) (c := 0) n (.inl (by omega))
    rw [Nat.add_zero] at hstart
    rw [← hs, sentinelAt, sentinelAt, hstart, be32_tableUpdated n (.inl (by omega)),
      be32_tableUpdated n (.inr ⟨by omega, hs⟩)]
  | false =>
    obtain ⟨-, hlt, -⟩ := (regionError_eq_none ..).mp (hpass.resolve_left (by simp [hs]))
    refine Bool.eq_false_iff.mpr fun hs' => ?_
    have hstop := (startAt_stopAt_of_sentinel hs').2
    rw [tableUpdated_stopAt] at hstop
    omega

theorem tableUpdated_fieldsWritten (n : Nat) {i : Nat} (h : fieldsWritten b m0 t i) :
    fieldsWritten b (tableUpdated b m0 t n) t i := by
  obtain ⟨haddr, hsum⟩ := h
  refine ⟨fun k hk => tableUpdated_written (.inl (haddr k hk)), fun hb h0 h1 k hk => ?_⟩
  rw [tableUpdated_startAt] at h0
  rw [tableUpdated_stopAt] at h1
  exact tableUpdated_written (.inl (hsum hb h0 h1 k hk))

/-- An enabled entry's checksum is right after the update when its region holds no byte of the checksum field of the
same or a later enabled entry. -/
theorem tableUpdated_mismatchAt {n i : Nat} (hi : i < n) (hs : sentinelAt b m0 t i = false)
    (hready : regionReady b m0 t i)
    (hout : ∀ k, i ≤ k → k < n → sentinelAt b m0 t k = false →
      t + 12 * k + 12 ≤ startAt m0 t i ∨ stopAt m0 t i ≤ t + 12 * k + 8) :
    mismatchAt b (tableUpdated b m0 t n) t i = false := by
  obtain ⟨sum, hsum⟩ := wsum_tableUpdated hready
  obtain ⟨d, rfl⟩ : ∃ d, n = i + 1 + d := ⟨n - (i + 1), by omega⟩
  have hstored : (tableUpdated b m0 t (i + 1 + d)).be32 (t + 12 * i + 8) = some (b.m32bTarget - sum) := by
    rw [← Memory.be32_wrBe32_same (tableUpdated b m0 t i) (t + 12 * i + 8) (b.m32bTarget - sum),
      ← tableUpdated_enabled hs hsum]
    exact Memory.be32_congr fun c hc => read_tableUpdated_add d fun k hk _ _ => by omega
  have hregion : wsum (tableUpdated b m0 t (i + 1 + d)) (startAt m0 t i) (stopAt m0 t i) none = some sum := by
    rw [← hsum, Nat.add_assoc]
    refine wsum_congr fun a h1 h2 => read_tableUpdated_add (1 + d) fun k hk hk' hsk => ?_
    have := hout k hk (by omega) hsk
    omega
  rw [mismatchAt, hstored, tableUpdated_startAt, tableUpdated_stopAt, ckB, hregion]
  exact bne_self_eq_false _

theorem enabledEntries_tableUpdated {n len : Nat} (hpass : ∀ i, i < n → entryPasses b m0 t len i) :
    enabledEntries b (tableUpdated b m0 t n) t n = enabledEntries b m0 t n :=
  List.filter_congr fun i hi => by rw [tableUpdated_sentinelAt n (hpass i (List.mem_range.mp hi))]

/-- No checksum field stored later in a region summed before: then the updated table has no mismatch. -/
theorem mismatches_tableUpdated {n : Nat}
    (hready : ∀ i, i < n → sentinelAt b m0 t i = false → regionReady b m0 t i)
    (hout : ∀ i j, i ∈ enabledEntries b m0 t n → j ∈ enabledEntries b m0 t n → i ≤ j →
      entryAt t j + 12 ≤ startAt m0 t i ∨ stopAt m0 t i ≤ entryAt t j + 8) :
    (enabledEntries b m0 t n).filter (mismatchAt b (tableUpdated b m0 t n) t) = [] := by
  refine List.filter_eq_nil_iff.mpr fun i hi => ?_
  obtain ⟨hin, hs⟩ := mem_enabledEntries.mp hi
  rw [tableUpdated_mismatchAt hin hs (hready i hin hs) fun k hk hkn hsk =>
    hout i k hi (mem_enabledEntries.mpr ⟨hkn, hsk⟩) hk]
  exact Bool.false_ne_true

theorem tableUpdated_entryPasses (n : Nat) {i len : Nat} (hpass : entryPasses b m0 t len i) :
    entryPasses b (tableUpdated b m0 t n) t len i := by
  rw [entryPasses, tableUpdated_sentinelAt n hpass, tableUpdated_startAt, tableUpdated_stopAt]
  exact hpass

end

/-! ### How the table commands end (R151, R152) -/

/-- The bytes M32B_TABLE_UPDATE needs: those of the checks, and the regions of the enabled entries (R151). -/
def readyForUpdate (b : Build) (m : Memory) (p : Pending) : Prop :=
  (∀ i, i < p.x1 → fieldsWritten b m p.x0 i) ∧
  ∀ i, i < p.x1 → sentinelAt b m p.x0 i = false → regionReady b m p.x0 i

/-- The bytes M32B_TABLE_VALIDATE needs: those of the checks, and of the enabled entries the regions and the stored
checksums (R152). -/
def readyForValidate (b : Build) (m : Memory) (p : Pending) : Prop :=
  (∀ i, i < p.x1 → fieldsWritten b m p.x0 i) ∧
  ∀ i, i < p.x1 → sentinelAt b m p.x0 i = false →
    written m (startAt m p.x0 i) (stopAt m p.x0 i - startAt m p.x0 i) ∧ written m (p.x0 + 12 * i + 8) 4

theorem m32bTableUpdateBody_of_ready {p : Pending} {s : State} (hpass : tablePasses s.build s.mem p)
    (hready : readyForUpdate s.build s.mem p) :
    m32bTableUpdateBody p s = .ok ((s.setMem (tableUpdated s.build s.mem p.x0 p.x1)).setRes
      { s.res with r0 := wordOf (enabledEntries s.build s.mem p.x0 p.x1).length }) := by
  obtain ⟨hw, hregion⟩ := hready
  have hloop := updateEntries_tableUpdated (n := p.x1) (i := 0) (fun k hk => hw k (by omega))
    (fun k hk => hregion k (by omega))
  rw [Nat.zero_add] at hloop
  exact (m32bTableUpdateBody_ok ..).mpr ⟨tableChecks_passing hpass hw, _, _, hloop, rfl⟩

/-- An update that reached its end had the bytes it needs. -/
theorem readyForUpdate_of_body {p : Pending} {s u : State} (h : m32bTableUpdateBody p s = .ok u) :
    tablePasses s.build s.mem p ∧ readyForUpdate s.build s.mem p := by
  obtain ⟨hchecks, m, n, hloop, -⟩ := (m32bTableUpdateBody_ok p s u).mp h
  obtain ⟨hpass, hw⟩ := passes_of_tableChecks hchecks
  refine ⟨hpass, hw, fun i hi hs => ?_⟩
  by_contra hn
  have hfault := updateEntries_uninitRead (n := p.x1) (u := 0) (storedBefore_refl s.build s.mem p.x0 0) (Nat.zero_le i)
    (by omega) (fun k hk => hw k (by omega)) (tablePasses_aligned hpass hi hs) hs hn
  rw [hloop] at hfault
  cases hfault

theorem m32bTableValidateBody_of_ready {p : Pending} {s : State} (hpass : tablePasses s.build s.mem p)
    (hready : readyForValidate s.build s.mem p) :
    m32bTableValidateBody p s = .ok (s.setRes
      { s.res with
        r0 := if enabledEntries s.build s.mem p.x0 p.x1 = [] then 0xFFFFFFFF
          else wordOf ((enabledEntries s.build s.mem p.x0 p.x1).filter (mismatchAt s.build s.mem p.x0)).length
        r1 := wordOf (enabledEntries s.build s.mem p.x0 p.x1).length }) := by
  obtain ⟨hw, hregion⟩ := hready
  have hloop := validateEntries_counts (n := p.x1) (i := 0) (fun k hk => hw k (by omega))
    (fun k hk => hregion k (by omega))
  rw [Nat.zero_add] at hloop
  exact (m32bTableValidateBody_ok ..).mpr
    ⟨tableChecks_passing hpass hw, _, _, hloop, by simp only [List.length_eq_zero_iff]⟩

/-- The updated table passes the checks and has every byte that validating it needs. -/
theorem readyForValidate_tableUpdated {b : Build} {m : Memory} {p : Pending} (hpass : tablePasses b m p)
    (hready : readyForUpdate b m p) :
    tablePasses b (tableUpdated b m p.x0 p.x1) p ∧ readyForValidate b (tableUpdated b m p.x0 p.x1) p := by
  obtain ⟨hal, hfit, hentries⟩ := hpass
  obtain ⟨hw, hregion⟩ := hready
  refine ⟨⟨hal, hfit, fun i hi => tableUpdated_entryPasses _ (hentries i hi)⟩,
    fun i hi => tableUpdated_fieldsWritten _ (hw i hi), fun i hi hs => ?_⟩
  rw [tableUpdated_sentinelAt _ (hentries i hi)] at hs
  rw [tableUpdated_startAt, tableUpdated_stopAt]
  refine ⟨fun k hk => tableUpdated_written ((hregion i hi hs _ (by omega) (by omega)).imp_right ?_),
    fun k hk => tableUpdated_written (.inr ⟨i, hi, hs, by omega, by omega⟩)⟩
  rintro ⟨j, hj, hsj, h1, h2⟩
  exact ⟨j, by omega, hsj, h1, h2⟩

/-- Over another BUF that agrees below the latched length a command's pseudocode writes the same results (R60). -/
theorem bodyOf_res_of_agreeBelow {i : Instr} {p : Pending} {s u : State} {m : Memory}
    (h : Memory.AgreeBelow p.len s.mem m) (hu : bodyOf i p s = .ok u) :
    ∃ u', bodyOf i p (s.setMem m) = .ok u' ∧ u'.res = u.res := by
  obtain ⟨v, v', hv, hv', hend⟩ | ⟨e, he, -⟩ := bodyOf_endsAlike i h
  · obtain rfl : v = u := Except.ok.inj (hv.symm.trans hu)
    exact ⟨v', hv', (congrArg State.res hend.regs :)⟩
  · rw [hu] at he; cases he

/-- An updated table has no mismatch as long as no byte below the length changes, when no region holds a byte of the
checksum field of the same or a later enabled entry (R153 law 3). -/
theorem exec_m32bTableValidate_of_m32bTableUpdate {s t s' : State} {p p' : Pending} (hp : s.pending = some p)
    (ht : exec .m32bTableUpdate s = .next t) (herr : t.status.err = false)
    (hout : ∀ i j, i ∈ enabledEntries s.build s.mem p.x0 p.x1 → j ∈ enabledEntries s.build s.mem p.x0 p.x1 → i ≤ j →
      entryAt p.x0 j + 12 ≤ startAt s.mem p.x0 i ∨ stopAt s.mem p.x0 i ≤ entryAt p.x0 j + 8)
    (hb : s'.build = s.build) (hm : ∀ a, a < p.len → s'.mem.read a = t.mem.read a) (hp' : s'.pending = some p')
    (h0 : p'.x0 = p.x0) (h1 : p'.x1 = p.x1) (hlen : p'.len = p.len) :
    ∃ t', exec .m32bTableValidate s' = .next t' ∧
      readReg .res0 t' = if enabledEntries s.build s.mem p.x0 p.x1 = [] then 0xFFFFFFFF else 0 := by
  obtain ⟨u, hu, rfl⟩ | ⟨-, herr'⟩ := exec_next_pending hp ht
  · obtain ⟨hpass, hready⟩ := readyForUpdate_of_body (u := u) hu
    obtain rfl := Except.ok.inj (hu.symm.trans (m32bTableUpdateBody_of_ready hpass hready))
    generalize htab : tableUpdated s.build s.mem p.x0 p.x1 = m at hm
    obtain ⟨hpass', hready'⟩ := readyForValidate_tableUpdated hpass hready
    obtain ⟨-, -, hentries⟩ := hpass
    obtain ⟨-, hregion⟩ := hready
    have henabled := enabledEntries_tableUpdated hentries
    have hmis := mismatches_tableUpdated hregion hout
    rw [htab] at hpass' hready' henabled hmis
    have hbody := m32bTableValidateBody_of_ready (p := p') (s := s'.setMem m)
      (by rw [State.setMem_build, hb, tablePasses, h0, h1, hlen]; exact hpass')
      (by rw [State.setMem_build, hb, readyForValidate, h0, h1]; exact hready')
    obtain ⟨v, hv, hres⟩ := bodyOf_res_of_agreeBelow (i := .m32bTableValidate) (s := s'.setMem m) (m := s'.mem)
      (fun a ha => hm a (by omega)) hbody
    refine ⟨_, exec_of_body_ok hp' hv, ?_⟩
    rw [readReg_res0, State.complete_res, hres, State.setRes_res, State.setMem_build, State.setMem_mem, hb, h0, h1,
      henabled, hmis]
    rfl
  · rw [herr] at herr'; cases herr'

end Sys2Proof.Machine

namespace Sys2Proof.Proofs

open Sys2Proof.Machine

/-- Settles O34: the checksum is the target less the sum. -/
theorem m32bRegionReturnsTheChecksum : Obligations.M32bRegionReturnsTheChecksum := by
  intro s p sum hp h0 h1 hlt hfit hsum
  have hbody : bodyOf .m32bRegion p s = .ok _ :=
    (m32bRegionBody_ok p s _).mpr ⟨⟨h0, h1, hlt, hfit⟩, sum, hsum, rfl⟩
  exact ⟨_, exec_of_body_ok hp hbody, rfl, sub_add_cancel s.build.m32bTarget sum,
    completedWriting_of_body (by decide) hbody, sameMem_of_body rfl hbody⟩

/-- Settles O35: the memories between the entries are the stages of `tableUpdated`. -/
theorem m32bTableUpdateStoresEveryChecksum : Obligations.M32bTableUpdateStoresEveryChecksum := by
  intro s p hp hpass hw hready
  have hbody : bodyOf .m32bTableUpdate p s = .ok _ := m32bTableUpdateBody_of_ready hpass ⟨hw, hready⟩
  refine ⟨_, tableUpdated s.build s.mem p.x0, exec_of_body_ok hp hbody, rfl, rfl, fun i _ => tableUpdated_sentinel,
    fun i hi hs => ?_, ?_, completedWriting_of_body (by decide) hbody⟩
  · obtain ⟨sum, hsum⟩ := wsum_tableUpdated (hready i hi hs)
    exact ⟨sum, hsum, tableUpdated_enabled hs hsum⟩
  · exact toNat_wordOf ((enabledEntries_length_le ..).trans_lt p.args.a1.isLt)

/-- Settles O36: the loop's counts are the lengths of the list of enabled entries and of its mismatches. -/
theorem m32bTableValidateCountsMismatches : Obligations.M32bTableValidateCountsMismatches := by
  intro s p hp hpass hw hbytes
  have hbody : bodyOf .m32bTableValidate p s = .ok _ := m32bTableValidateBody_of_ready hpass ⟨hw, hbytes⟩
  have hlt : (enabledEntries s.build s.mem p.x0 p.x1).length < 2 ^ 32 :=
    (enabledEntries_length_le ..).trans_lt p.args.a1.isLt
  refine ⟨_, exec_of_body_ok hp hbody, toNat_wordOf hlt, fun hnil => ?_, fun hne => ?_,
    completedWriting_of_body (by decide) hbody, sameMem_of_body rfl hbody⟩
  · exact if_pos hnil
  · have hle := List.length_filter_le (mismatchAt s.build s.mem p.x0) (enabledEntries s.build s.mem p.x0 p.x1)
    exact Eq.trans (congrArg BitVec.toNat (if_neg hne)) (toNat_wordOf (hle.trans_lt hlt))

/-- Settles O37: no checksum field stored later lies in a region summed before. -/
theorem m32bTableUpdateThenValidates : Obligations.M32bTableUpdateThenValidates := by
  intro s t s' p p' hp ht herr hout hb hm hp' h0 h1 hlen
  obtain ⟨t', ht', hres⟩ := exec_m32bTableValidate_of_m32bTableUpdate hp ht herr hout hb hm hp' h0 h1 hlen
  exact ⟨t', ht', fun hne => hres.trans (if_neg hne), fun hnil => hres.trans (if_pos hnil)⟩

end Sys2Proof.Proofs
end

section
/-! SUPPORT. O38–O43: what BUF holds, and a frame on the wire as the encoder writes it and the decoder reads it
(42_frame.md R170–R175). -/

namespace Sys2Proof.Machine

/-! ### What BUF holds -/

theorem holds_append {m : Memory} {a : Nat} {xs ys : List Byte} (h : holds m a (xs ++ ys)) :
    holds m a xs ∧ holds m (a + xs.length) ys := by
  refine ⟨fun k hk => ?_, fun k hk => ?_⟩
  · rw [h k (by rw [List.length_append]; omega), List.getElem_append_left hk]
  · rw [Nat.add_assoc, h (xs.length + k) (by rw [List.length_append]; omega), List.getElem_append_right (by omega)]
    simp only [Nat.add_sub_cancel_left]

theorem holds_writeBytes (m : Memory) (a : Nat) (vs : List Byte) : holds (m.writeBytes a vs) a vs :=
  Memory.read_writeBytes_inside m a vs

theorem readBytes_eq_some_iff_holds {m : Memory} {a n : Nat} {vs : List Byte} :
    m.readBytes a n = some vs ↔ vs.length = n ∧ holds m a vs := Memory.readBytes_eq_some m a n vs

theorem Memory.AgreeBelow.holds {n a : Nat} {m m' : Memory} {vs : List Byte} (h : AgreeBelow n m m')
    (ha : a + vs.length ≤ n) (hm : holds m a vs) : Machine.holds m' a vs := fun k hk => by
  rw [h _ (by omega), hm k hk]

/-! ### The checksum (R171) -/

theorem toNat_sumMod256 (bytes : List Byte) : (sumMod256 bytes).toNat = (bytes.map BitVec.toNat).sum % 256 :=
  BitVec.toNat_ofNat ..

theorem fcs_eq_sumMod256 (bytes : List Byte) : fcs bytes = sumMod256 bytes :=
  BitVec.eq_of_toNat_eq ((toNat_fcs bytes).trans (toNat_sumMod256 bytes).symm)

theorem sumMod256_cons (b : Byte) (bytes : List Byte) : sumMod256 (b :: bytes) = b + sumMod256 bytes := by
  apply BitVec.eq_of_toNat_eq
  rw [BitVec.toNat_add, toNat_sumMod256, toNat_sumMod256, List.map_cons, List.sum_cons]
  omega

/-! ### The flags (R174, R175) -/

theorem toNat_frameFlags (valid inRange extra : Bool) :
    (frameFlags valid inRange extra).toNat =
      (if valid then 1 else 0) + 2 + (if inRange then 4 else 0) + (if extra then 8 else 0) := by
  revert valid inRange extra
  decide

/-! ### A frame on the wire as the decoder sees it (R173) -/

/-- The decoder's answer on the frame when `extra` says whether anything follows it. -/
def RawFrame.decoded (f : RawFrame) (extra : Bool) : DecodedFrame where
  pci := f.pci
  len := f.payload.length
  payload := f.payload
  cs := f.cs
  valid := f.cs == sumMod256 (f.pci :: f.payload)
  inRange := lenInRange f.payload.length
  extra := extra

theorem RawFrame.length_bytes (f : RawFrame) : f.bytes.length = f.payload.length + 2 := by
  simp [RawFrame.bytes]

theorem RawFrame.complete.payload_length {f : RawFrame} (h : f.complete) : f.payload.length = pciLen f.pci :=
  Eq.trans h (pciLen_eq f.pci).symm

theorem RawFrame.complete.payload_length_lt {f : RawFrame} (h : f.complete) : f.payload.length < 16 :=
  h.payload_length ▸ pciLen_lt f.pci

theorem RawFrame.complete.fdec_append {f : RawFrame} (h : f.complete) (more : List Byte) :
    fdec (f.bytes ++ more) = some (f.decoded (decide (0 < more.length))) := by
  rw [RawFrame.bytes, List.append_assoc, List.singleton_append, Machine.fdec_append _ _ _ _ h.payload_length,
    fcs_eq_sumMod256]
  rfl

theorem RawFrame.complete.fdec_bytes {f : RawFrame} (h : f.complete) : fdec f.bytes = some (f.decoded false) := by
  simpa using h.fdec_append []

theorem RawFrame.toNat_frameFlags_decoded (f : RawFrame) (extra extra' : Bool) :
    (frameFlags (f.decoded extra').valid (f.decoded extra').inRange extra).toNat =
      f.flags + (if extra then 8 else 0) := by
  simp only [toNat_frameFlags, RawFrame.decoded, lenInRange, beq_iff_eq, Bool.and_eq_true, decide_eq_true_eq,
    RawFrame.flags]

/-! ### A frame on the wire as the encoder writes it (R170, R172) -/

/-- The frame of a payload. -/
def encodedFrame (payload : List Byte) : RawFrame where
  pci := BitVec.ofNat 8 payload.length
  payload := payload
  cs := sumMod256 (BitVec.ofNat 8 payload.length :: payload)

theorem encodeChecksum_eq (payload : List Byte) : encodeChecksum payload = (encodedFrame payload).cs :=
  fcs_eq_sumMod256 _

theorem encodeFrame_eq (payload : List Byte) : encodeFrame payload = (encodedFrame payload).bytes :=
  congrArg (fun cs => _ ++ [cs]) (fcs_eq_sumMod256 _)

theorem encodedFrame_complete {payload : List Byte} (h : payload.length ≤ 7) : (encodedFrame payload).complete := by
  show payload.length = (BitVec.ofNat 8 payload.length).toNat % 16
  rw [BitVec.toNat_ofNat]
  omega

theorem encodedFrame_flags {payload : List Byte} (h : 1 ≤ payload.length ∧ payload.length ≤ 7) :
    (encodedFrame payload).flags = 7 := by
  simp only [RawFrame.flags, encodedFrame, h, and_self, if_true]

end Sys2Proof.Machine
end

section
/-! SUPPORT. O38, O39, O41: how FRAME_ENCODE and FRAME_DECODE end (42_frame.md R172, R174, R177 law 1). -/

namespace Sys2Proof.Machine

/-- FRAME_DECODE of a complete frame that fits its destination stores the payload and reports the frame (R174). -/
theorem frameDecodeBody_of_frame {p : Pending} {s : State} {f : RawFrame} (hsrc : p.x0 + p.x1 ≤ p.len)
    (hf : f.complete) (hlen : f.payload.length + 2 ≤ p.x1) (hm : holds s.mem p.x0 f.bytes)
    (hdst : p.x2 + f.payload.length ≤ p.len) :
    frameDecodeBody p s = .ok ((s.setMem (s.mem.writeBytes p.x2 f.payload)).setRes
      (frameResults (f.decoded false) (decide (f.payload.length + 2 < p.x1)))) := by
  have hpay := hf.payload_length
  have hpci : s.mem.read p.x0 = some f.pci := hm 0 (by rw [f.length_bytes]; omega)
  have hread : s.mem.readBytes p.x0 (pciLen f.pci + 2) = some f.bytes :=
    readBytes_eq_some_iff_holds.mpr ⟨by rw [f.length_bytes, hpay], hm⟩
  exact (frameDecodeBody_ok p s _).mpr ⟨hsrc, .inr ⟨by omega, f.pci, hpci, .inr ⟨by omega, f.bytes, f.decoded false,
    hread, hf.fdec_bytes, hpay, hdst, rfl⟩⟩⟩

/-- FRAME_DECODE of a buffer shorter than its PCI byte says answers zeros (R173, R174). -/
theorem frameDecodeBody_of_short {p : Pending} {s : State} (hsrc : p.x0 + p.x1 ≤ p.len)
    (h : p.x1 = 0 ∨ ∃ pci, s.mem.read p.x0 = some pci ∧ p.x1 < pci.toNat % 16 + 2) :
    frameDecodeBody p s = .ok (s.setRes shortResults) := by
  refine (frameDecodeBody_ok p s _).mpr ⟨hsrc, ?_⟩
  by_cases h0 : p.x1 = 0
  · exact .inl ⟨h0, rfl⟩
  · obtain ⟨pci, hpci, hshort⟩ := h.resolve_left h0
    exact .inr ⟨by omega, pci, hpci, .inl ⟨by rwa [pciLen_eq], rfl⟩⟩

theorem toNat_frameResults_r1 (f : RawFrame) (c : Prop) [Decidable c] (extra : Bool) :
    (frameResults (f.decoded extra) (decide c)).r1.toNat = f.flags + (if c then 8 else 0) := by
  have hflags := f.toNat_frameFlags_decoded (decide c) extra
  rw [frameResults, BitVec.zeroExtend, BitVec.toNat_setWidth_of_le (by decide), hflags]
  simp only [decide_eq_true_eq]

theorem toNat_frameResults_r2 (f : DecodedFrame) (extra : Bool) :
    (frameResults f extra).r2.toNat = f.pci.toNat * 256 + f.cs.toNat :=
  (BitVec.toNat_setWidth_of_le (by decide)).trans (toNat_append_eq_add f.pci f.cs)

end Sys2Proof.Machine

namespace Sys2Proof.Proofs

open Sys2Proof.Machine

/-- Settles O38: the payload is read whole before the frame is stored, so the two may overlap. -/
theorem frameEncodeWritesTheFrame : Obligations.FrameEncodeWritesTheFrame := by
  intro s p payload hp hlen h1 h7 hsrc hdst hm
  have hbody : bodyOf .frameEncode p s = .ok _ := (frameEncodeBody_ok p s _).mpr
    ⟨⟨⟨h1, h7⟩, hsrc, hdst⟩, payload, readBytes_eq_some_iff_holds.mpr ⟨hlen, hm⟩, rfl⟩
  refine ⟨_, exec_of_body_ok hp hbody, ?_, sameMemOutside_of_writeBytes rfl ?_, toNat_wordOf (by omega), ?_,
    completedWriting_of_body (by decide) hbody⟩
  · rw [← hlen]
    exact encodeFrame_eq payload ▸ holds_writeBytes s.mem p.x2 (encodeFrame payload)
  · rw [encodeFrame_length, hlen]
  · rw [← hlen]
    exact congrArg (BitVec.zeroExtend 32) (encodeChecksum_eq payload)

/-- Settles O39: the two ways FRAME_DECODE ends without an error. -/
theorem frameDecodeAnswersTheFrame : Obligations.FrameDecodeAnswersTheFrame := by
  refine ⟨fun s p hp hsrc hshort => ?_, fun s p f hp hsrc hf hlen hm hdst => ?_⟩
  · have hbody : bodyOf .frameDecode p s = .ok _ := frameDecodeBody_of_short hsrc hshort
    exact ⟨_, exec_of_body_ok hp hbody, rfl, rfl, rfl, fun _ => rfl, completedWriting_of_body (by decide) hbody⟩
  · have hbody : bodyOf .frameDecode p s = .ok _ := frameDecodeBody_of_frame hsrc hf hlen hm hdst
    have hpay := hf.payload_length_lt
    refine ⟨_, exec_of_body_ok hp hbody, holds_writeBytes s.mem p.x2 f.payload,
      sameMemOutside_of_writeBytes rfl (Nat.le_refl _), toNat_wordOf (n := f.payload.length) (by omega),
      toNat_frameResults_r1 f _ false, toNat_frameResults_r2 _ _, completedWriting_of_body (by decide) hbody⟩

/-- Settles O41: what FRAME_ENCODE stored is a complete frame, which FRAME_DECODE answers as it is. -/
theorem frameDecodeOfEncode : Obligations.FrameDecodeOfEncode := by
  intro s t s' p p' payload hp hlen hm ht herr hagree hp' h0 h1 hlen' hdst
  obtain ⟨u, hu, rfl⟩ | ⟨-, herr'⟩ := exec_next_pending hp ht
  · obtain ⟨⟨hrange, -, hfit⟩, payload', hread, rfl⟩ := (frameEncodeBody_ok p s u).mp hu
    obtain rfl : payload' = payload :=
      Option.some.inj (hread.symm.trans (readBytes_eq_some_iff_holds.mpr ⟨hlen, hm⟩))
    have hbytes : holds s'.mem p.x2 (encodeFrame payload') :=
      Memory.AgreeBelow.holds hagree (by rw [encodeFrame_length]; omega) (holds_writeBytes s.mem p.x2 _)
    rw [encodeFrame_eq, ← h0] at hbytes
    have hpay : (encodedFrame payload').payload.length = p.x1 := hlen
    obtain ⟨t', ht', hstored, -, hres0, hres1, -⟩ := frameDecodeAnswersTheFrame.2 s' p' (encodedFrame payload') hp'
      (by omega) (encodedFrame_complete (by omega)) (by omega) hbytes (by omega)
    refine ⟨t', ht', hres0.trans hpay, BitVec.eq_of_toNat_eq ?_, hstored⟩
    rw [hres1, encodedFrame_flags (by omega), if_neg (by omega)]
    rfl
  · rw [herr] at herr'; cases herr'

end Sys2Proof.Proofs
end

section
/-! SUPPORT. O40, O42: the run of frames that FRAME_PARSE finds in a stream (42_frame.md R175, R176, R177 law 2). -/

namespace Sys2Proof.Machine

/-! ### The descriptors (R175) -/

theorem bytesBe_wordOf (a : Nat) :
    bytesBe (wordOf a) =
      [BitVec.ofNat 8 (a / 0x1000000), BitVec.ofNat 8 (a / 0x10000), BitVec.ofNat 8 (a / 0x100), BitVec.ofNat 8 a] := by
  have hbyte : ∀ k, k ≤ 24 → (wordOf a).extractLsb' k 8 = BitVec.ofNat 8 (a / 2 ^ k) := fun k hk => by
    refine BitVec.eq_of_getLsbD_eq fun i hi => ?_
    have hki : k + i < 32 := by omega
    rw [BitVec.getLsbD_extractLsb', wordOf, BitVec.getLsbD_ofNat, BitVec.getLsbD_ofNat, Nat.testBit_div_two_pow]
    simp only [hi, hki, decide_true, Bool.true_and, Nat.add_comm]
  rw [bytesBe, hbyte 24 (by decide), hbyte 16 (by decide), hbyte 8 (by decide), hbyte 0 (by decide), Nat.pow_zero,
    Nat.div_one]
  rfl

theorem RawFrame.descriptor_decoded (f : RawFrame) (a : Nat) (extra : Bool) :
    Machine.descriptor a (f.decoded extra) = f.descriptor a := by
  have hflags : (frameFlags (f.decoded extra).valid (f.decoded extra).inRange false).zeroExtend 8 =
      BitVec.ofNat 8 f.flags := by
    refine BitVec.eq_of_toNat_eq ?_
    rw [BitVec.zeroExtend, BitVec.toNat_setWidth, f.toNat_frameFlags_decoded, BitVec.toNat_ofNat]
    rfl
  rw [Machine.descriptor, bytesBe_wordOf, hflags]
  rfl

/-- The descriptors of frames that lie one after another from BUF offset `a`. -/
def streamDescriptors : Nat → List RawFrame → List Byte
  | _, [] => []
  | a, f :: frames => f.descriptor a ++ streamDescriptors (a + f.bytes.length) frames

theorem streamOffset_succ (f : RawFrame) (frames : List RawFrame) (j : Nat) :
    streamOffset (f :: frames) (j + 1) = f.bytes.length + streamOffset frames j := by
  simp [streamOffset]

/-- Descriptor `j` lies 8 bytes after the one before it. -/
theorem holds_streamDescriptors {m : Memory} {d a : Nat} {frames : List RawFrame}
    (h : holds m d (streamDescriptors a frames)) (j : Nat) (hj : j < frames.length) :
    holds m (d + 8 * j) (frames[j].descriptor (a + streamOffset frames j)) := by
  induction frames generalizing d a j with
  | nil => cases hj
  | cons f frames ih =>
    obtain ⟨hfirst, hrest⟩ := holds_append h
    cases j with
    | zero => exact hfirst
    | succ j =>
      have hnext := ih hrest j (Nat.lt_of_succ_lt_succ hj)
      rw [streamOffset_succ, ← Nat.add_assoc, Nat.mul_succ, Nat.add_comm (8 * j), ← Nat.add_assoc]
      exact hnext

/-! ### What the loop finds (R176) -/

/-- After a frame the loop has one descriptor less. -/
theorem stopsWith_cons {f : RawFrame} {frames : List RawFrame} {rest : List Byte} {room why : Nat} :
    stopsWith (f :: frames) rest (room + 1) why ↔ stopsWith frames rest room why := by
  simp only [stopsWith, List.length_cons, Nat.add_right_cancel_iff, Nat.add_lt_add_iff_right]

/-- The loop's answer is these frames, found from stream position `pos` on in a stream at BUF offset `base`. -/
structure ParseOut.Finds (out : ParseOut) (base pos : Nat) (frames : List RawFrame) (why : Nat) : Prop where
  count : out.frames.length = frames.length
  consumed : out.consumed = pos + (frames.flatMap RawFrame.bytes).length
  reason : out.why.code.toNat = why
  descriptors : descriptorBytes base out.frames = streamDescriptors (base + pos) frames

/-- A rest that stops the loop at once, for the first of the three reasons that applies. -/
theorem parseFrames_finds_nil {rest : List Byte} {room why : Nat} (h : stopsWith [] rest room why)
    (fuel base pos : Nat) : (parseFrames (fuel + 1) rest room pos).Finds base pos [] why := by
  obtain ⟨rfl, rfl⟩ | ⟨hne, rfl, rfl⟩ | ⟨pci, more, rfl, hroom, hshort, rfl⟩ := h
  · rw [parseFrames_nil]
    exact ⟨rfl, rfl, rfl, rfl⟩
  · obtain ⟨b, more, rfl⟩ := List.exists_cons_of_ne_nil hne
    rw [List.length_nil, parseFrames_limit]
    exact ⟨rfl, rfl, rfl, rfl⟩
  · obtain ⟨room, rfl⟩ := Nat.exists_eq_add_of_lt hroom
    have hnone : fdec (pci :: more) = none :=
      (fdec_cons_none pci more).mpr (by rw [pciLen_eq]; simpa using hshort)
    rw [parseFrames_short _ _ _ _ _ hnone]
    exact ⟨rfl, rfl, rfl, rfl⟩

/-- One turn of the loop, over any stream that begins with a complete frame. -/
theorem parseFrames_of_fdec (fuel room pos : Nat) {bytes : List Byte} {f : DecodedFrame} (h : fdec bytes = some f) :
    parseFrames (fuel + 1) bytes (room + 1) pos =
      { parseFrames fuel (bytes.drop (f.len + 2)) room (pos + f.len + 2) with
        frames := (pos, f) :: (parseFrames fuel (bytes.drop (f.len + 2)) room (pos + f.len + 2)).frames } := by
  cases bytes with
  | nil => cases h
  | cons b rest => exact parseFrames_frame fuel room pos b rest f h

/-- A complete frame at the head of the stream takes one descriptor and its bytes. -/
theorem RawFrame.complete.parseFrames_append {f : RawFrame} (h : f.complete) (fuel room pos : Nat)
    (more : List Byte) :
    parseFrames (fuel + 1) (f.bytes ++ more) (room + 1) pos =
      { parseFrames fuel more room (pos + f.bytes.length) with
        frames := (pos, f.decoded (decide (0 < more.length))) ::
          (parseFrames fuel more room (pos + f.bytes.length)).frames } := by
  have hlen : (f.decoded (decide (0 < more.length))).len + 2 = f.bytes.length := f.length_bytes.symm
  rw [parseFrames_of_fdec fuel room pos (h.fdec_append more), Nat.add_assoc, hlen, List.drop_left]

/-- The loop finds the complete frames of a stream one after another, and stops for the reason its rest gives. -/
theorem parseFrames_finds {frames : List RawFrame} {rest : List Byte} {why : Nat} (base : Nat)
    (hf : ∀ f, f ∈ frames → f.complete) {fuel room : Nat} (pos : Nat)
    (hfuel : (frames.flatMap RawFrame.bytes ++ rest).length < fuel) (hroom : frames.length ≤ room)
    (hstop : stopsWith frames rest room why) :
    (parseFrames fuel (frames.flatMap RawFrame.bytes ++ rest) room pos).Finds base pos frames why := by
  induction frames generalizing fuel room pos with
  | nil =>
    obtain ⟨fuel, rfl⟩ := Nat.exists_eq_add_of_lt hfuel
    exact parseFrames_finds_nil hstop _ base pos
  | cons f frames ih =>
    obtain ⟨hhead, htail⟩ := List.forall_mem_cons.mp hf
    obtain ⟨room, rfl⟩ : ∃ k, room = k + 1 := Nat.exists_eq_add_one.mpr (Nat.lt_of_lt_of_le (Nat.succ_pos _) hroom)
    obtain ⟨fuel, rfl⟩ : ∃ k, fuel = k + 1 := Nat.exists_eq_add_one.mpr (Nat.zero_lt_of_lt hfuel)
    have hlen := f.length_bytes
    rw [List.flatMap_cons, List.append_assoc] at hfuel ⊢
    rw [List.length_append] at hfuel
    rw [hhead.parseFrames_append]
    obtain ⟨hcount, hconsumed, hreason, hdesc⟩ := ih htail (fuel := fuel) (pos + f.bytes.length)
      (by omega) (Nat.le_of_succ_le_succ hroom) (stopsWith_cons.mp hstop)
    refine ⟨congrArg Nat.succ hcount, hconsumed.trans ?_, hreason, ?_⟩
    · rw [List.flatMap_cons, List.length_append, Nat.add_assoc]
    · rw [streamDescriptors, Nat.add_assoc, ← hdesc, ← f.descriptor_decoded]
      exact List.flatMap_cons

/-! ### Every stream is a run of frames and a rest -/

/-- A buffer at least as long as its PCI byte says begins with a complete frame. -/
theorem exists_complete_frame {pci : Byte} {more : List Byte} (h : pci.toNat % 16 + 2 ≤ (pci :: more).length) :
    ∃ f rest, f.complete ∧ pci :: more = RawFrame.bytes f ++ rest := by
  have hlt : pci.toNat % 16 < more.length := by rw [List.length_cons] at h; omega
  refine ⟨{ pci := pci, payload := more.take (pci.toNat % 16), cs := more[pci.toNat % 16] },
    more.drop (pci.toNat % 16 + 1), List.length_take_of_le hlt.le, ?_⟩
  rw [RawFrame.bytes, List.append_assoc, List.singleton_append, List.getElem_cons_drop, List.cons_append,
    List.take_append_drop]

theorem exists_frames_and_rest (bytes : List Byte) (room : Nat) :
    ∃ (frames : List RawFrame) (rest : List Byte) (why : Nat), bytes = frames.flatMap RawFrame.bytes ++ rest ∧
      (∀ f, f ∈ frames → f.complete) ∧ frames.length ≤ room ∧ stopsWith frames rest room why := by
  induction room generalizing bytes with
  | zero =>
    by_cases hnil : bytes = []
    · exact ⟨[], bytes, 0, rfl, nofun, Nat.le_refl 0, .inl ⟨hnil, rfl⟩⟩
    · exact ⟨[], bytes, 2, rfl, nofun, Nat.le_refl 0, .inr (.inl ⟨hnil, rfl, rfl⟩)⟩
  | succ room ih =>
    match bytes with
    | [] => exact ⟨[], [], 0, rfl, nofun, Nat.zero_le _, .inl ⟨rfl, rfl⟩⟩
    | pci :: more =>
      by_cases hshort : (pci :: more).length < pci.toNat % 16 + 2
      · exact ⟨[], pci :: more, 1, rfl, nofun, Nat.zero_le _,
          .inr (.inr ⟨pci, more, rfl, Nat.succ_pos room, hshort, rfl⟩)⟩
      · obtain ⟨f, bytes', hf, hbytes⟩ := exists_complete_frame (Nat.le_of_not_lt hshort)
        obtain ⟨frames, rest, why, rfl, hframes, hroom, hstop⟩ := ih bytes'
        refine ⟨f :: frames, rest, why, ?_, List.forall_mem_cons.mpr ⟨hf, hframes⟩, Nat.succ_le_succ hroom,
          stopsWith_cons.mpr hstop⟩
        rw [hbytes, List.flatMap_cons, List.append_assoc]

end Sys2Proof.Machine

namespace Sys2Proof.Proofs

open Sys2Proof.Machine

/-- Settles O40: the loop's answer over a run of frames and a rest, and the run every stream is. -/
theorem frameParseFindsTheFrames : Obligations.FrameParseFindsTheFrames := by
  refine ⟨fun s p frames rest why hp hsrc hdst hf hlen hm hroom hstop => ?_, exists_frames_and_rest⟩
  have hbody : bodyOf .frameParse p s = .ok _ := (frameParseBody_ok p s _).mpr
    ⟨⟨hsrc, hdst⟩, _, readBytes_eq_some_iff_holds.mpr ⟨hlen, hm⟩, rfl⟩
  obtain ⟨hcount, hconsumed, hreason, hdesc⟩ :=
    parseFrames_finds p.x0 hf 0 (Nat.lt_succ_self _) hroom hstop
  have hcount32 : frames.length < 2 ^ 32 := hroom.trans_lt p.args.a3.isLt
  have hstream32 : (frames.flatMap RawFrame.bytes).length < 2 ^ 32 := by
    have hx1 : p.x1 < 2 ^ 32 := p.args.a1.isLt
    rw [List.length_append] at hlen
    omega
  rw [Nat.zero_add] at hconsumed
  refine ⟨_, exec_of_body_ok hp hbody, ?_, ?_, hreason, fun j hj => ?_, ?_, completedWriting_of_body (by decide) hbody⟩
  · exact Eq.trans (congrArg _ (congrArg wordOf hcount)) (toNat_wordOf hcount32)
  · exact Eq.trans (congrArg _ (congrArg wordOf hconsumed)) (toNat_wordOf hstream32)
  · exact holds_streamDescriptors (a := p.x0) (hdesc ▸ holds_writeBytes s.mem p.x2 _) j hj
  · refine sameMemOutside_of_writeBytes rfl (Nat.le_of_eq ?_)
    rw [descriptorBytes_length]
    exact congrArg (8 * ·) hcount

/-- Settles O42: encoded frames one after another are a run of complete frames with no rest, each with flags 7. -/
theorem frameParseOfEncodedFrames : Obligations.FrameParseOfEncodedFrames := by
  intro s p payloads hp hrange hlen hm hroom hsrc hdst
  have hstream : payloads.flatMap encodeFrame = (payloads.map encodedFrame).flatMap RawFrame.bytes ++ [] := by
    rw [List.append_nil, List.flatMap_map]
    exact congrArg (payloads.flatMap ·) (funext encodeFrame_eq)
  have hcomplete : ∀ f, f ∈ payloads.map encodedFrame → f.complete :=
    List.forall_mem_map.mpr fun q hq => encodedFrame_complete (hrange q hq).2
  have hcount : (payloads.map encodedFrame).length = payloads.length := List.length_map _
  rw [hstream] at hlen hm
  obtain ⟨t, ht, hres0, hres1, hres2, hdesc, -⟩ := frameParseFindsTheFrames.1 s p _ [] 0 hp hsrc hdst hcomplete hlen hm
    (hcount.trans_le hroom) (.inl ⟨rfl, rfl⟩)
  rw [List.append_nil] at hlen
  refine ⟨t, ht, hres0.trans hcount, hres1.trans hlen, BitVec.eq_of_toNat_eq hres2, fun j hj => ⟨7, ?_, rfl⟩⟩
  have hflags := hdesc j (by omega) 6 (show 6 < 8 by decide)
  rw [List.getElem_map] at hflags
  have h7 := encodedFrame_flags (hrange payloads[j] (List.getElem_mem hj))
  exact hflags.trans (congrArg (fun n => some (BitVec.ofNat 8 n)) h7)

end Sys2Proof.Proofs
end

section
/-! SUPPORT. O43: what a changed payload byte does to the checksum (42_frame.md R171, R177 law 3). -/

namespace Sys2Proof.Machine

/-- The sum moves by what one byte of it moves. -/
theorem sumMod256_modify_add {bytes : List Byte} {i : Nat} (h : i < bytes.length) (delta : Byte) :
    sumMod256 (bytes.modify i (· + delta)) = sumMod256 bytes + delta := by
  induction bytes generalizing i with
  | nil => cases h
  | cons b bytes ih =>
    cases i with
    | zero => rw [List.modify_zero_cons, sumMod256_cons, sumMod256_cons, add_right_comm]
    | succ i =>
      rw [List.modify_succ_cons, sumMod256_cons, sumMod256_cons, ih (Nat.lt_of_succ_lt_succ h), add_assoc]

/-- A payload under the PCI byte and checksum of another of its length decodes, valid exactly when the sums agree. -/
theorem fdec_of_changed_payload {payload changed : List Byte} (h7 : payload.length ≤ 7)
    (hlen : changed.length = payload.length) :
    ∃ f, fdec (BitVec.ofNat 8 payload.length :: changed ++ [encodeChecksum payload]) = some f ∧
      (f.valid = true ↔ sumMod256 payload = sumMod256 changed) := by
  refine ⟨_, fdec_append _ _ _ [] (hlen.trans (encodedFrame_complete h7).payload_length), ?_⟩
  rw [beq_iff_eq, encodeChecksum, fcs_eq_sumMod256, fcs_eq_sumMod256, sumMod256_cons, sumMod256_cons,
    add_right_inj]

end Sys2Proof.Machine

namespace Sys2Proof.Proofs

open Sys2Proof.Machine

/-- Settles O43: a nonzero change moves the sum, and opposite changes cancel in it. -/
theorem frameChecksumDetectsOneChangedByte : Obligations.FrameChecksumDetectsOneChangedByte := by
  intro payload i delta _ h7 hi hdelta
  have hlen : (payload.modify i (· + delta)).length = payload.length := List.length_modify ..
  refine ⟨?_, fun j hj _ => ?_⟩
  · obtain ⟨f, hf, hvalid⟩ := fdec_of_changed_payload h7 hlen
    refine ⟨f, hf, Bool.eq_false_iff.mpr fun hv => hdelta ?_⟩
    rwa [hvalid, sumMod256_modify_add hi, left_eq_add] at hv
  · obtain ⟨f, hf, hvalid⟩ := fdec_of_changed_payload h7 ((List.length_modify (· - delta) _ j).trans hlen)
    refine ⟨f, hf, hvalid.mpr ?_⟩
    simp only [sub_eq_add_neg]
    rw [sumMod256_modify_add (hj.trans_eq hlen.symm), sumMod256_modify_add hi, add_neg_cancel_right]

end Sys2Proof.Proofs
end

section
/-! SUPPORT. O60: what a command and a host access can make of the flow-control unit (43_flowcontrol.md R200–R210). -/

namespace Sys2Proof.Machine

/-! ### The two commands that decide (R203–R205) -/

theorem fcHandleTimeoutBody_allowed {p : Pending} {s : State}
    (h : retryAllowed s.build.retryOrder s.fc.retryCount p.maxRetries = true) :
    fcHandleTimeoutBody p s =
      .ok ((s.setFc { s.fc with retryCount := saturatingSucc s.fc.retryCount, state := .idle }).setRes
        { s.res with r0 := 1 }) := if_pos h

theorem fcHandleTimeoutBody_exhausted {p : Pending} {s : State}
    (h : retryAllowed s.build.retryOrder s.fc.retryCount p.maxRetries = false) :
    fcHandleTimeoutBody p s =
      .ok ((s.setFc { s.fc with
        retryCount := saturatingSucc s.fc.retryCount, exhausted := true, state := .error }).setRes
        { s.res with r0 := 0 }) := if_neg (Bool.eq_false_iff.mp h)

theorem fcRetryBody_accepted (p : Pending) {s : State} (h : retryAccepted s.build.retryConsume s.fc = true) :
    fcRetryBody p s =
      .ok ((s.setFc { s.fc with state := .idle, consumed := s.fc.consumed || s.fc.exhausted }).setRes
        { s.res with r0 := 1 }) := if_pos h

theorem fcRetryBody_refused (p : Pending) {s : State} (h : retryAccepted s.build.retryConsume s.fc = false) :
    fcRetryBody p s = .ok (s.setRes { s.res with r0 := 0 }) := if_neg (Bool.eq_false_iff.mp h)

/-! ### The moves of the unit -/

/-- What a command can make of the flow-control unit (R201–R209). -/
inductive FcMove : Instr → FcUnit → FcUnit → Prop where
  /-- A command of another family, a refused FC_RETRY (R205), or a raise (R252). -/
  | keep (i : Instr) (f : FcUnit) : FcMove i f f
  | expectCts (f : FcUnit) : FcMove .fcExpectCts f { f with timerArmed := true, state := .waitingCts }
  | receivedCts (f : FcUnit) : FcMove .fcReceivedCts f { f with timerArmed := false, state := .ready }
  /-- FC_HANDLE_TIMEOUT below the limit (R203). -/
  | allow (f : FcUnit) (c : Word) : FcMove .fcHandleTimeout f { f with retryCount := c, state := .idle }
  /-- FC_HANDLE_TIMEOUT at the limit (R204). -/
  | exhaust (f : FcUnit) (c : Word) :
      FcMove .fcHandleTimeout f { f with retryCount := c, exhausted := true, state := .error }
  | retry (f : FcUnit) : FcMove .fcRetry f { f with state := .idle, consumed := f.consumed || f.exhausted }
  | reset (f : FcUnit) : FcMove .fcReset f f.cleared
  | toIdle (f : FcUnit) : FcMove .fcToIdle f f.cleared
  | init (f : FcUnit) : FcMove .fcInit f freshFc

theorem fcMove_fcHandleTimeout {p : Pending} {s u : State} (h : fcHandleTimeoutBody p s = .ok u) :
    FcMove .fcHandleTimeout s.fc u.fc := by
  cases hallowed : retryAllowed s.build.retryOrder s.fc.retryCount p.maxRetries with
  | true => rw [fcHandleTimeoutBody_allowed hallowed] at h; cases h; exact .allow s.fc _
  | false => rw [fcHandleTimeoutBody_exhausted hallowed] at h; cases h; exact .exhaust s.fc _

theorem fcMove_fcRetry {p : Pending} {s u : State} (h : fcRetryBody p s = .ok u) : FcMove .fcRetry s.fc u.fc := by
  cases haccepted : retryAccepted s.build.retryConsume s.fc with
  | true => rw [fcRetryBody_accepted p haccepted] at h; cases h; exact .retry s.fc
  | false => rw [fcRetryBody_refused p haccepted] at h; cases h; exact .keep _ s.fc

theorem bodyOf_fcMove {i : Instr} {p : Pending} {s u : State} (h : bodyOf i p s = .ok u) : FcMove i s.fc u.fc := by
  cases i with
  | fcExpectCts => cases h; exact .expectCts s.fc
  | fcReceivedCts => cases h; exact .receivedCts s.fc
  | fcHandleTimeout => exact fcMove_fcHandleTimeout h
  | fcRetry => exact fcMove_fcRetry (p := p) h
  | fcReset => cases h; exact .reset s.fc
  | fcToIdle => cases h; exact .toIdle s.fc
  | fcInit => cases h; exact .init s.fc
  | _ => rw [(bodyOf_frame h).fc rfl]; exact .keep _ s.fc

/-- The bookkeeping is no part of the unit, and a raise drops what the pseudocode made of it (R252, R258). -/
theorem exec_fcMove {i : Instr} {s t : State} (h : exec i s = .next t) : FcMove i s.fc t.fc := by
  obtain ⟨p, -, ⟨u, hu, rfl⟩ | ⟨e, -, -, rfl⟩⟩ := exec_next h
  · rw [State.complete_fc]; exact bodyOf_fcMove hu
  · rw [State.complete_fc]; exact .keep i s.fc

/-- Of the host's writes only the soft reset reaches the unit (R36, R241). -/
theorem writeReg_fc (r : RegName) (v : Word) (s : State) :
    (writeReg r v s).fc = s.fc ∨ (r = .ctrl ∧ v.getLsbD 0 = true ∧ writeReg r v s = s.softReset) := by
  cases r with
  | ctrl =>
    by_cases hbit : v.getLsbD 0 = true
    · exact .inr ⟨rfl, hbit, if_pos hbit⟩
    · exact .inl (congrArg State.fc (if_neg hbit))
  | cmd => simp only [writeReg, State.writeCmd]; split <;> exact .inl rfl
  | _ => exact .inl rfl

/-! ### The invariant of the unit (R210) -/

/-- The invariant reads the unit only. -/
theorem fcInvariant_congr {s t : State} (h : fcInvariant s) (hfc : t.fc = s.fc) : fcInvariant t := by
  unfold fcInvariant
  rw [hfc]
  exact h

theorem fcInvariant_reset : fcInvariant State.reset := by unfold fcInvariant; decide

theorem FcMove.keeps_fcInvariant {i : Instr} {s t : State} (hmove : FcMove i s.fc t.fc) (h : fcInvariant s) :
    fcInvariant t := by
  obtain ⟨hready, hwaiting, hconsumed⟩ := h
  unfold fcInvariant
  generalize t.fc = f at hmove ⊢
  cases hmove with
  | keep => exact ⟨hready, hwaiting, hconsumed⟩
  | expectCts => exact ⟨nofun, fun _ => rfl, hconsumed⟩
  | receivedCts => exact ⟨fun _ => rfl, nofun, hconsumed⟩
  | allow | reset | toIdle => exact ⟨nofun, nofun, hconsumed⟩
  | exhaust => exact ⟨nofun, nofun, fun _ => rfl⟩
  | retry => exact ⟨nofun, nofun, fun hc => (Bool.or_eq_true_iff.mp hc).elim hconsumed id⟩
  | init => exact ⟨nofun, nofun, nofun⟩

theorem Move.keeps_fcInvariant {s t : State} (hmove : Move s t) (h : fcInvariant s) : fcInvariant t := by
  cases hmove with
  | stay | answer | storeByte | storeWord => exact h
  | illegal => exact fcInvariant_congr h (State.complete_fc s _)
  | expire =>
    obtain ⟨-, -, hconsumed⟩ := h
    exact ⟨nofun, nofun, hconsumed⟩
  | powerOn => exact fcInvariant_congr fcInvariant_reset rfl
  | command p i t _ _ ht => exact (exec_fcMove ht).keeps_fcInvariant h
  | register r v =>
    rcases writeReg_fc r v s with hfc | ⟨-, -, hreset⟩
    · exact fcInvariant_congr h hfc
    · rw [hreset]; exact fcInvariant_congr fcInvariant_reset rfl

end Sys2Proof.Machine

namespace Sys2Proof.Proofs

open Sys2Proof.Machine

/-- Settles O60: every move of a step keeps the invariant, since every move of the unit does. -/
theorem stepKeepsFlowControlInvariant : Obligations.StepKeepsFlowControlInvariant := by
  intro s t h ht
  obtain ⟨l, hmove⟩ := step_next ht
  exact hmove.keeps_fcInvariant (s := s.setAgenda l) h

end Sys2Proof.Proofs
end

section
/-! SUPPORT. O51: what clears the exhausted flag, for each kind of step (43_flowcontrol.md R204–R209; 45_system.md R241;
70_reset_and_hazards.md R280). -/

namespace Sys2Proof.Machine

/-! ### The engine and the timer -/

theorem FcMove.keeps_exhausted {i : Instr} {f g : FcUnit} (hmove : FcMove i f g) (hi : i ≠ .fcInit)
    (h : f.exhausted = true) : g.exhausted = true := by
  cases hmove with
  | keep | expectCts | receivedCts | allow | retry | reset | toIdle => exact h
  | exhaust => rfl
  | init => exact absurd rfl hi

theorem engineStep_clears_exhausted {s t : State} (ht : engineStep s = .next t) (hs : s.fc.exhausted = true)
    (hclear : t.fc.exhausted = false) : ∃ p, s.pending = some p ∧ p.word = encode .fcInit := by
  have hne : t.fc ≠ s.fc := fun hfc => by rw [hfc, hs] at hclear; cases hclear
  cases hp : s.pending with
  | none =>
    rw [engineStep_idle hp] at ht
    cases ht
    exact absurd rfl hne
  | some p =>
    refine ⟨p, rfl, ?_⟩
    cases hd : decode p.word with
    | error d =>
      rw [engineStep_illegal hp hd] at ht
      cases ht
      exact absurd (State.complete_fc s _) hne
    | ok i =>
      rw [engineStep_command hp hd] at ht
      have hi : i = .fcInit := by
        by_contra hi
        rw [(exec_fcMove ht).keeps_exhausted hi hs] at hclear
        cases hclear
      rw [decode_eq_ok_iff.mp hd, hi]

theorem timerStep_exhausted {s t : State} (ht : timerStep s = .next t) : t.fc.exhausted = s.fc.exhausted := by
  cases harmed : s.fc.timerArmed with
  | true => rw [timerStep_armed harmed] at ht; cases ht; rfl
  | false => rw [timerStep_disarmed harmed] at ht; cases ht; rfl

/-! ### The host -/

theorem bufAccess_next {s t : State} {k : Host.Outcome State Fault Refusal} (h : bufAccess s k = .next t) :
    k = .next t := by
  unfold bufAccess at h
  split at h
  · cases h
  · exact h

theorem regTarget_register_offset {width : Width} {off : Nat} {r : RegName} (h : regTarget width off = .register r) :
    r.offset = off := by
  unfold regTarget at h
  split at h
  · split at h
    · rename_i r' hat
      cases h
      exact eq_of_beq (List.find?_some (p := fun x : RegName => x.offset == off) hat)
    · cases h
  · cases h

theorem bufTarget_ne_register (width : Width) (a : Nat) (r : RegName) : bufTarget width a ≠ .register r := by
  cases width with
  | w8 | w16 => simp [bufTarget]
  | w32 => simp only [bufTarget]; split <;> simp

/-- A register is reached at its own offset only (R22, R65). -/
theorem busTarget_register_offset {b : Build} {width : Width} {off : Word} {r : RegName}
    (h : busTarget b width off = .register r) : off = wordOf r.offset := by
  unfold busTarget at h
  simp only at h
  split at h
  · rw [wordOf, regTarget_register_offset h, BitVec.ofNat_toNat, BitVec.setWidth_eq]
  · split at h
    · exact absurd h (bufTarget_ne_register _ _ r)
    · cases h

theorem hostRead_fc {s t : State} {width : Width} {off : Word} (h : hostRead s width off = .next t) :
    t.fc = s.fc := by
  unfold hostRead at h
  split at h
  · cases h; rfl
  · cases h; rfl
  · have hk := bufAccess_next h
    split at hk
    · cases hk; rfl
    · cases hk
  · have hk := bufAccess_next h
    split at hk
    · cases hk; rfl
    · cases hk
  · cases h; rfl

theorem hostWrite8_fc {s t : State} {off : Word} {v : Byte} (h : hostWrite8 s off v = .next t) : t.fc = s.fc := by
  unfold hostWrite8 at h
  split at h
  · cases bufAccess_next h; rfl
  all_goals cases h; rfl

theorem hostWrite32_fc {s t : State} {off v : Word} (h : hostWrite32 s off v = .next t) :
    t.fc = s.fc ∨ (off = 0x008 ∧ v.getLsbD 0 = true) := by
  unfold hostWrite32 at h
  split at h
  · rename_i r htarget
    cases h
    rcases writeReg_fc r v s with hfc | ⟨rfl, hbit, -⟩
    · exact .inl hfc
    · exact .inr ⟨busTarget_register_offset htarget, hbit⟩
  · cases h; exact .inl rfl
  · cases bufAccess_next h; exact .inl rfl
  all_goals cases h; exact .inl rfl

/-- Of the host's accesses only the soft reset changes the unit (R36, R37, R241). -/
theorem hostStep_fc {a : HostAccess} {s t : State} (h : hostStep a s = .next t) :
    t.fc = s.fc ∨ ∃ v, a = .write32 0x008 v ∧ v.getLsbD 0 = true := by
  cases a with
  | read width off => exact .inl (hostRead_fc h)
  | write8 off v => exact .inl (hostWrite8_fc h)
  | write16 off v => cases h; exact .inl rfl
  | write32 off v =>
    rcases hostWrite32_fc h with hfc | ⟨rfl, hbit⟩
    · exact .inl hfc
    · exact .inr ⟨v, rfl, hbit⟩

end Sys2Proof.Machine

namespace Sys2Proof.Proofs

open Sys2Proof.Machine

/-- Settles O51: the kind of step at the head of the agenda, and of the engine's the command it completes. -/
theorem onlyInitOrResetClearsExhausted : Obligations.OnlyInitOrResetClearsExhausted := by
  intro s t ht hs hclear
  have hne : t.fc.exhausted ≠ s.fc.exhausted := fun he => by rw [he, hs] at hclear; cases hclear
  cases hagenda : s.agenda with
  | nil =>
    rw [step_nil hagenda] at ht
    cases hp : s.pending with
    | none =>
      rw [idleStep_idle hp] at ht
      exact absurd (timerStep_exhausted ht) hne
    | some p =>
      rw [idleStep_busy hp] at ht
      exact .inl ⟨hp ▸ engineStep_clears_exhausted ht hs hclear, .inl rfl⟩
  | cons e rest =>
    rw [step_cons hagenda] at ht
    cases e with
    | engine =>
      exact .inl ⟨engineStep_clears_exhausted (s := s.setAgenda rest) ht hs hclear, .inr ⟨rest, rfl⟩⟩
    | timer => exact absurd (timerStep_exhausted ht) hne
    | powerOn => exact .inr (.inl ⟨rest, rfl⟩)
    | host a =>
      rcases hostStep_fc ht with hfc | ⟨v, rfl, hbit⟩
      · exact absurd (congrArg FcUnit.exhausted hfc) hne
      · exact .inr (.inr ⟨v, rest, rfl, hbit⟩)

end Sys2Proof.Proofs
end

section
/-! SUPPORT. O46, O47: when a retry is allowed and when it is accepted (43_flowcontrol.md R203–R205). -/

namespace Sys2Proof.Machine

theorem toNat_saturatingSucc (c : Word) : (saturatingSucc c).toNat = min (c.toNat + 1) 0xFFFFFFFF := by
  unfold saturatingSucc
  split
  · rename_i hmax; rw [hmax]; rfl
  · rename_i hmax
    have hlt : c.toNat < 0xFFFFFFFF := by bv_omega
    rw [BitVec.toNat_add, show (1 : Word).toNat = 1 from rfl]
    omega

/-- The decision of R203, on the count as the order of increment and comparison takes it. -/
theorem retryAllowed_iff (order : RetryOrder) (c limit : Word) :
    retryAllowed order c limit = true ↔
      (order = .incThenCmp ∧ (saturatingSucc c).toNat < limit.toNat) ∨
      (order = .cmpThenInc ∧ c.toNat < limit.toNat) := by
  cases order <;> simp [retryAllowed]

/-- A retry is accepted before exhaustion, and after it once or never (R205). -/
theorem retryAccepted_iff (consume : RetryConsume) (f : FcUnit) :
    retryAccepted consume f = true ↔
      (f.state = .idle ∨ f.state = .error) ∧
      (f.exhausted = false ∨ (consume = .firstAllowed ∧ f.consumed = false)) := by
  have hblocked : retryBlocked consume f = false ↔
      f.exhausted = false ∨ (consume = .firstAllowed ∧ f.consumed = false) := by
    cases consume with
    | firstAllowed => simp only [retryBlocked, Bool.and_eq_false_iff, true_and]
    | blockOnExhausted => simp [retryBlocked]
  simp [retryAccepted, hblocked]

end Sys2Proof.Machine

namespace Sys2Proof.Proofs

open Sys2Proof.Machine

/-- Settles O46: the decision of R203 picks one of the two ends of the pseudocode. -/
theorem fcHandleTimeoutCountsAndDecides : Obligations.FcHandleTimeoutCountsAndDecides := by
  refine ⟨decode_encode .fcHandleTimeout, fun s p hp => ?_⟩
  have hdecide := retryAllowed_iff s.build.retryOrder s.fc.retryCount p.maxRetries
  cases hallowed : retryAllowed s.build.retryOrder s.fc.retryCount p.maxRetries with
  | true =>
    have hbody : bodyOf .fcHandleTimeout p s = .ok _ := fcHandleTimeoutBody_allowed hallowed
    exact ⟨_, exec_of_body_ok hp hbody, toNat_saturatingSucc s.fc.retryCount, rfl, rfl, fun _ => ⟨rfl, rfl, rfl⟩,
      fun hn => absurd (hdecide.mp hallowed) hn, completedWriting_of_body (by decide) hbody, sameMem_of_body rfl hbody⟩
  | false =>
    have hbody : bodyOf .fcHandleTimeout p s = .ok _ := fcHandleTimeoutBody_exhausted hallowed
    exact ⟨_, exec_of_body_ok hp hbody, toNat_saturatingSucc s.fc.retryCount, rfl, rfl,
      fun h => absurd (hdecide.mpr h) (Bool.eq_false_iff.mp hallowed), fun _ => ⟨rfl, rfl, rfl⟩,
      completedWriting_of_body (by decide) hbody, sameMem_of_body rfl hbody⟩

/-- Settles O47: each clause is on the side of the test of R205 that its hypotheses decide. -/
theorem fcRetryIsAcceptedOnce : Obligations.FcRetryIsAcceptedOnce := by
  refine ⟨decode_encode .fcRetry, fun s p hp => ?_⟩
  have haccept := retryAccepted_iff s.build.retryConsume s.fc
  cases haccepted : retryAccepted s.build.retryConsume s.fc with
  | true =>
    have hbody : bodyOf .fcRetry p s = .ok _ := fcRetryBody_accepted p haccepted
    obtain ⟨hstate, hopen⟩ := haccept.mp haccepted
    refine ⟨_, exec_of_body_ok hp hbody, completedWriting_of_body (by decide) hbody, sameMem_of_body rfl hbody,
      fun ⟨hidle, herror⟩ => absurd hstate (not_or.mpr ⟨hidle, herror⟩), fun _ hex => ⟨?_, rfl⟩,
      fun _ hex _ _ => ⟨?_, rfl⟩, fun _ hex hconsumed => ?_⟩
    · simp [hex]
    · simp [hex]
    · rcases hopen with hno | ⟨hfirst, hfresh⟩
      · rw [hex] at hno; cases hno
      · rw [hconsumed hfirst] at hfresh; cases hfresh
  | false =>
    have hbody : bodyOf .fcRetry p s = .ok _ := fcRetryBody_refused p haccepted
    have hrefused := haccept.not.mp (Bool.eq_false_iff.mp haccepted)
    exact ⟨_, exec_of_body_ok hp hbody, completedWriting_of_body (by decide) hbody, sameMem_of_body rfl hbody,
      fun _ => ⟨rfl, rfl⟩, fun hstate hex => absurd ⟨hstate, .inl hex⟩ hrefused,
      fun hstate _ hfirst hfresh => absurd ⟨hstate, .inr ⟨hfirst, hfresh⟩⟩ hrefused, fun _ _ _ => ⟨rfl, rfl⟩⟩

end Sys2Proof.Proofs
end

section
/-! SUPPORT. O44, O45, O48, O49, O50: the commands that always do the same, and the expiry (43_flowcontrol.md R201,
R202, R206–R209). -/

namespace Sys2Proof.Machine

/-- `FC_STATUS` below its bit 9 reads `EXHAUSTED` and `CONSUMED` as 0 (R36). -/
theorem flags_clear_of_fcStatus {f : FcUnit} {w : Word} (h : f.statusWord = w) (hw : w.toNat < 512) :
    f.exhausted = false ∧ f.consumed = false := by
  subst h
  rw [toNat_fcUnit_statusWord] at hw
  refine ⟨Bool.eq_false_iff.mpr fun hex => ?_, Bool.eq_false_iff.mpr fun hcon => ?_⟩
  · rw [if_pos hex] at hw; omega
  · rw [if_pos hcon] at hw; omega

/-- With both flags 0 the word is the code of the state and the timer's bit (R36). -/
theorem toNat_fcStatus_of_flags_clear {f : FcUnit} (hex : f.exhausted = false) (hcon : f.consumed = false) :
    f.statusWord.toNat = f.state.code.toNat + if f.timerArmed then 256 else 0 := by
  simp [toNat_fcUnit_statusWord, hex, hcon]

/-- A command that raises nothing leaves the timeout interrupt as it was (R258, R260). -/
theorem fcTimeout_of_body {i : Instr} {p : Pending} {s u : State} (h : bodyOf i p s = .ok u) :
    (readReg .intStatus (u.complete none)).getLsbD 2 = (readReg .intStatus s).getLsbD 2 := by
  simp only [readReg, getLsbD_intWord, State.complete_none_intStatus, (bodyOf_frame h).intStatus, BitVec.getLsbD_or]
  exact Bool.or_false _

theorem readReg_expire {s : State} {r : RegName} (h : r ∉ [RegName.fcStatus, .intStatus]) :
    readReg r s.expire = readReg r s := by
  cases r <;> simp at h <;> rfl

end Sys2Proof.Machine

namespace Sys2Proof.Proofs

open Sys2Proof.Machine

/-- Settles O44: the pseudocode never raises; its frame is its own, since it alone writes the timer's latch. -/
theorem fcExpectCtsArmsTheTimer : Obligations.FcExpectCtsArmsTheTimer := by
  refine ⟨decode_encode .fcExpectCts, fun s p hp => ?_⟩
  have hframe := bodyFrame_fcExpectCts p s
  refine ⟨_, exec_of_body_ok (i := .fcExpectCts) hp rfl, rfl, rfl, ⟨rfl, rfl, rfl, rfl⟩,
    sameRegsExcept_complete hframe.regs none, hframe.outside, fun _ => rfl, fun hstatus => ?_⟩
  obtain ⟨hex, hcon⟩ := flags_clear_of_fcStatus hstatus (by decide)
  exact BitVec.eq_of_toNat_eq (toNat_fcStatus_of_flags_clear hex hcon)

/-- Settles O45: the pseudocode never raises, and the bookkeeping of a success sets `CMD_DONE` only. -/
theorem fcReceivedCtsMovesToReady : Obligations.FcReceivedCtsMovesToReady := by
  refine ⟨decode_encode .fcReceivedCts, fun s p hp => ?_⟩
  have hbody : bodyOf .fcReceivedCts p s = .ok _ := rfl
  refine ⟨_, exec_of_body_ok hp hbody, rfl, completedWriting_of_body (by decide) hbody, sameMem_of_body rfl hbody,
    fcTimeout_of_body hbody, fun hstatus => ?_⟩
  obtain ⟨hex, hcon⟩ := flags_clear_of_fcStatus hstatus (by decide)
  exact BitVec.eq_of_toNat_eq (toNat_fcStatus_of_flags_clear hex hcon)

/-- Settles O48: the two commands have one pseudocode. -/
theorem fcResetAndToIdleClear : Obligations.FcResetAndToIdleClear := by
  refine ⟨decode_encode .fcReset, decode_encode .fcToIdle, fun i s p hi hp => ?_⟩
  have hbody : bodyOf i p s = .ok (s.setFc s.fc.cleared) := by rcases hi with rfl | rfl <;> rfl
  have hdest : destinations i = [.fcStatus, .fcRetryCount] := by rcases hi with rfl | rfl <;> rfl
  have hkind : i ≠ .fcExpectCts ∧ storing i = false := by rcases hi with rfl | rfl <;> decide
  exact ⟨_, exec_of_body_ok hp hbody, rfl, hdest ▸ completedWriting_of_body hkind.1 hbody, sameMem_of_body hkind.2 hbody⟩

/-- Settles O49: the fresh unit reads 0, and the frame keeps every other register. -/
theorem fcInitMakesAFreshInstance : Obligations.FcInitMakesAFreshInstance := by
  refine ⟨decode_encode .fcInit, fun s p hp => ?_⟩
  have hbody : bodyOf .fcInit p s = .ok _ := rfl
  exact ⟨_, exec_of_body_ok hp hbody, show freshFc.statusWord = 0 by decide, rfl, rfl,
    completedWriting_of_body (by decide) hbody, sameMem_of_body rfl hbody, fcTimeout_of_body hbody⟩

/-- Settles O50: the timer's step while armed is the expiry. -/
theorem timerExpiryMovesToError : Obligations.TimerExpiryMovesToError := by
  intro s rest harmed hagenda
  refine ⟨(s.setAgenda rest).expire, ?_, rfl, rfl, fun r hr => ?_, fun _ => rfl, rfl, rfl, rfl, rfl, rfl⟩
  · rw [step_cons hagenda]
    exact timerStep_armed harmed
  · rw [readReg_expire hr, readReg_setAgenda]

end Sys2Proof.Proofs
end

section
/-! SUPPORT. O52, O53: the field as a number, and what the loop of BITS_EXTRACT makes of it (44_bitfield.md R230–R232). -/

namespace Sys2Proof.Machine

/-! ### The loop in two parts -/

/-- The bits of a field come one part after the other (R232). -/
theorem extractFrom_append (m : Memory) (b w1 w2 k : Nat) (v : Word) :
    extractFrom m b (w1 + w2) k v = (extractFrom m b w1 k v).bind (extractFrom m b w2 (k + w1)) := by
  induction w1 generalizing k v with
  | zero => rw [Nat.zero_add]; rfl
  | succ w1 ih =>
    rw [Nat.add_right_comm]
    cases hbit : bitAt m b k with
    | none => simp only [extractFrom, hbit, Option.bind_none]
    | some c => simp only [extractFrom, hbit, ih, Nat.add_assoc, Nat.add_comm 1]

/-- What the loop starts from ends up above the field. -/
theorem extractFrom_eq_map (m : Memory) (b w k : Nat) (v : Word) :
    extractFrom m b w k v = (extractFrom m b w k 0).map (v <<< w ||| ·) := by
  induction w generalizing k v with
  | zero => simp [extractFrom]
  | succ w ih =>
    cases hbit : bitAt m b k with
    | none => simp only [extractFrom, hbit, Option.map_none]
    | some c =>
      simp only [extractFrom, hbit]
      rw [ih, ih (v := shiftIn 0 c), Option.map_map]
      congr 1
      funext x
      simp [shiftIn, BitVec.shiftLeft_or_distrib, ← BitVec.shiftLeft_add, Nat.add_comm, BitVec.or_assoc]

/-! ### The field as a number -/

theorem getLsbD_wordOfBool (c : Bool) (i : Nat) : (wordOfBool c).getLsbD i = (decide (i = 0) && c) := by
  cases c with
  | false => exact BitVec.getLsbD_zero.trans (Bool.and_false _).symm
  | true => exact (BitVec.getLsbD_one ..).trans (Bool.and_true _).symm

theorem shiftIn_wordOf (a : Nat) (c : Bool) : shiftIn (wordOf a) c = wordOf (2 * a + c.toNat) := by
  rw [← Nat.bit_val]
  refine BitVec.eq_of_getLsbD_eq fun i hi => ?_
  rw [shiftIn, wordOf, wordOf, BitVec.getLsbD_or, BitVec.getLsbD_shiftLeft, BitVec.getLsbD_ofNat, BitVec.getLsbD_ofNat,
    getLsbD_wordOfBool]
  cases i with
  | zero => rw [Nat.testBit_bit_zero]; simp
  | succ i =>
    have hi' : i < 32 := by omega
    rw [Nat.testBit_bit_succ]; simp [hi, hi']

/-- Bits that spell a number are shifted in as that number. -/
theorem extractFrom_of_bits {m : Memory} {b w k x : Nat} (hx : x < 2 ^ w)
    (hbits : ∀ i, i < w → bitAt m b (k + i) = some (x.testBit (w - 1 - i))) (a : Nat) :
    extractFrom m b w k (wordOf a) = some (wordOf (a * 2 ^ w + x)) := by
  induction w generalizing x with
  | zero =>
    obtain rfl : x = 0 := Nat.lt_one_iff.mp hx
    rw [Nat.pow_zero, Nat.mul_one]; rfl
  | succ w ih =>
    have hfirst := ih (x := x / 2) (by omega) fun i hi => by
      rw [hbits i (by omega), Nat.testBit_div_two]
      congr 2; omega
    have hlast := hbits w (Nat.lt_succ_self w)
    rw [extractFrom_append, hfirst, Option.bind_some, extractFrom, hlast]
    have hjoin : 2 * (a * 2 ^ w + x / 2) + (x.testBit 0).toNat = a * 2 ^ (w + 1) + x := by
      rw [Nat.toNat_testBit, Nat.pow_zero, Nat.div_one, Nat.mul_add, Nat.add_assoc, Nat.div_add_mod, Nat.pow_succ',
        Nat.mul_left_comm]
    simp only [extractFrom, shiftIn_wordOf, Nat.add_sub_cancel, Nat.sub_self, hjoin]

theorem bitsExtractBody_of_bits {p : Pending} {s : State} {x : Nat} (h1 : 1 ≤ p.x3) (h32 : p.x3 ≤ 32)
    (hsrc : p.x0 + p.x1 ≤ p.len) (hfield : p.x2 + p.x3 ≤ 8 * p.x1) (hx : x < 2 ^ p.x3)
    (hbits : ∀ i, i < p.x3 → bitAt s.mem p.x0 (p.x2 + i) = some (x.testBit (p.x3 - 1 - i))) :
    bodyOf .bitsExtract p s = .ok (s.setRes { s.res with r0 := wordOf x }) := by
  have hextract := extractFrom_of_bits hx hbits 0
  rw [Nat.zero_mul, Nat.zero_add] at hextract
  exact (bitsExtractBody_ok p s _).mpr ⟨⟨h1, h32, hsrc, hfield⟩, _, hextract, rfl⟩

/-- Bits that can all be read spell a number. -/
theorem exists_number_of_bits {m : Memory} {b w k : Nat} (h : ∀ i, i < w → (bitAt m b (k + i)).isSome = true) :
    ∃ x, x < 2 ^ w ∧ ∀ i, i < w → bitAt m b (k + i) = some (x.testBit (w - 1 - i)) := by
  refine ⟨Nat.ofBits fun j : Fin w => (bitAt m b (k + (w - 1 - j))).getD false, Nat.ofBits_lt_two_pow _,
    fun i hi => ?_⟩
  obtain ⟨c, hc⟩ := Option.isSome_iff_exists.mp (h i hi)
  rw [Nat.testBit_ofBits_lt _ _ (by omega)]
  have hindex : w - 1 - (w - 1 - i) = i := by omega
  simp only [hindex, hc, Option.getD_some]

/-! ### Byte-aligned fields -/

/-- The bytes joined below `acc`, the first the most significant (R232). -/
def bigEndian (acc : Nat) (bytes : List Byte) : Nat := bytes.foldl (fun acc b => acc * 256 + b.toNat) acc

theorem bigEndian_cons (acc : Nat) (c : Byte) (bytes : List Byte) :
    bigEndian acc (c :: bytes) = bigEndian (acc * 256 + c.toNat) bytes := rfl

theorem bigEndian_lt (acc : Nat) (bytes : List Byte) :
    bigEndian acc bytes < (acc + 1) * 256 ^ bytes.length := by
  induction bytes generalizing acc with
  | nil => simp [bigEndian]
  | cons c bytes ih =>
    have hc := c.isLt
    rw [bigEndian_cons]
    calc bigEndian (acc * 256 + c.toNat) bytes < (acc * 256 + c.toNat + 1) * 256 ^ bytes.length := ih _
      _ ≤ (acc + 1) * 256 * 256 ^ bytes.length := Nat.mul_le_mul_right _ (by omega)
      _ = (acc + 1) * 256 ^ (c :: bytes).length := by
        rw [List.length_cons, Nat.pow_succ', Nat.mul_assoc]

theorem extractFrom_byte {m : Memory} {b j : Nat} {c : Byte} (h : m.read (b + j) = some c) (a : Nat) :
    extractFrom m b 8 (8 * j) (wordOf a) = some (wordOf (a * 256 + c.toNat)) := by
  refine extractFrom_of_bits c.isLt (fun i hi => ?_) a
  have hbyte : (8 * j + i) / 8 = j := by omega
  have hbit : (8 * j + i) % 8 = i := by omega
  rw [bitAt, hbyte, hbit, h]
  rfl

theorem extractFrom_of_holds {m : Memory} {b j : Nat} {bytes : List Byte} (h : holds m (b + j) bytes) (a : Nat) :
    extractFrom m b (8 * bytes.length) (8 * j) (wordOf a) = some (wordOf (bigEndian a bytes)) := by
  induction bytes generalizing j a with
  | nil => rfl
  | cons c bytes ih =>
    obtain ⟨hfirst, hrest⟩ := holds_append (xs := [c]) h
    rw [List.length_cons, Nat.mul_succ, Nat.add_comm (8 * _), extractFrom_append,
      extractFrom_byte (j := j) (hfirst 0 Nat.one_pos), Option.bind_some]
    rw [bigEndian_cons]
    exact ih (j := j + 1) hrest _

theorem joinBe_eq_wordOf (b0 b1 b2 b3 : Byte) : joinBe b0 b1 b2 b3 = wordOf (bigEndian 0 [b0, b1, b2, b3]) := by
  have hjoin : (joinBe b0 b1 b2 b3).toNat = bigEndian 0 [b0, b1, b2, b3] := by
    simp only [joinBe, toNat_append_eq_add, bigEndian, List.foldl_cons, List.foldl_nil, Nat.zero_mul, Nat.zero_add,
      Nat.reducePow]
  rw [← hjoin, wordOf, BitVec.ofNat_toNat, BitVec.setWidth_eq]

theorem be32_of_holds {m : Memory} {a : Nat} {bytes : List Byte} (hlen : bytes.length = 4) (h : holds m a bytes) :
    m.be32 a = some (wordOf (bigEndian 0 bytes)) := by
  match bytes, hlen with
  | [b0, b1, b2, b3], _ =>
    have h0 : m.read a = some b0 := h 0 (show 0 < 4 by decide)
    have h1 : m.read (a + 1) = some b1 := h 1 (show 1 < 4 by decide)
    have h2 : m.read (a + 2) = some b2 := h 2 (show 2 < 4 by decide)
    have h3 : m.read (a + 3) = some b3 := h 3 (show 3 < 4 by decide)
    simp only [Memory.be32, h0, h1, h2, h3, joinBe_eq_wordOf]

end Sys2Proof.Machine

namespace Sys2Proof.Proofs

open Sys2Proof.Machine

/-- Settles O52: the bits of the field spell a number, which the loop returns. -/
theorem bitsExtractReturnsTheField : Obligations.BitsExtractReturnsTheField := by
  intro s p hp h1 h32 hsrc hfield hread
  obtain ⟨x, hx, hbits⟩ := exists_number_of_bits (m := s.mem) (b := p.x0) (w := p.x3) (k := p.x2) fun i hi => by
    rw [bitAt, Option.isSome_map]; exact hread i hi
  have hbody := bitsExtractBody_of_bits h1 h32 hsrc hfield hx hbits
  refine ⟨_, exec_of_body_ok hp hbody, fun i hi => ?_, fun j hj => ?_, completedWriting_of_body (by decide) hbody,
    sameMem_of_body rfl hbody⟩
  · obtain ⟨v, hv, hbit⟩ := Option.map_eq_some_iff.mp (hbits i hi)
    refine ⟨v, hv, ?_⟩
    rw [hbit]
    exact (BitVec.getLsbD_ofNat ..).trans (by rw [decide_eq_true (by omega), Bool.true_and])
  · refine (BitVec.getLsbD_ofNat ..).trans ?_
    rw [Nat.testBit_lt_two_pow (hx.trans_le (Nat.pow_le_pow_right Nat.two_pos hj)), Bool.and_false]

/-- Settles O53: the number written is the number extracted; bytes join one after another; the second part of a field is
shifted in below the first. -/
theorem bitsExtractLaws : Obligations.BitsExtractLaws := by
  refine ⟨?_, ?_, ?_⟩
  · intro s p x hp h1 h32 hsrc hfield hx hbits
    exact ⟨_, exec_of_body_ok hp (bitsExtractBody_of_bits h1 h32 hsrc hfield hx hbits),
      toNat_wordOf (hx.trans_le (Nat.pow_le_pow_right Nat.two_pos h32))⟩
  · intro s p j bytes hp h1 h4 hbit hwidth hsrc hfield hm
    have hextract := extractFrom_of_holds hm 0
    rw [← hbit, ← hwidth] at hextract
    have hbody : bodyOf .bitsExtract p s = .ok _ := (bitsExtractBody_ok p s _).mpr
      ⟨⟨by omega, by omega, hsrc, hfield⟩, _, hextract, rfl⟩
    have hlt : bigEndian 0 bytes < 2 ^ 32 := (bigEndian_lt 0 bytes).trans_le
      ((Nat.one_mul _).trans_le (Nat.pow_le_pow_right (by decide) h4))
    refine ⟨_, exec_of_body_ok hp hbody, toNat_wordOf hlt, fun hj hlen => ?_⟩
    subst hj
    exact be32_of_holds hlen hm
  · intro m b o w1 w2 u v _ hu hv
    rw [extractFrom_append, hu, Option.bind_some, extractFrom_eq_map, hv, Option.map_some]

end Sys2Proof.Proofs
end

section
/-! SUPPORT. O24: a `CMD` write to a busy engine, and a word with reserved bits set (45_system.md R240). -/

namespace Sys2Proof

/-- A word with reserved bits set is no command's (R92). -/
theorem ne_encode_of_rsvdField {w : Word} (h : rsvdField w ≠ 0) (i : Instr) : w ≠ encode i := fun heq =>
  h (decode_eq_ok_iff_row.mp (decode_eq_ok_iff.mpr heq)).1

end Sys2Proof

namespace Sys2Proof.Machine

theorem State.writeCmd_busy {s : State} (hp : s.pending ≠ none) (w : Word) : s.writeCmd w = s.overrun :=
  if_pos (Option.isSome_iff_ne_none.mpr hp)

end Sys2Proof.Machine

namespace Sys2Proof.Proofs

open Sys2Proof.Machine

/-- Settles O24: NOP's body ends in the state it found, so what is left is the completion; a word with reserved bits set
completes as O3 says; a write to a busy engine is an overrun, whatever the word. -/
theorem nopRunsOnlyTheBookkeeping : Obligations.NopRunsOnlyTheBookkeeping := by
  refine ⟨decode_encode .nop, fun s p hp => ?_, fun w _ hrsvd => (decode_eq_reserved_iff w).mpr hrsvd,
    fun s p hp _ hrsvd => ?_, fun s hp => ?_⟩
  · have hbody : bodyOf .nop p s = .ok s := rfl
    exact ⟨_, exec_of_body_ok hp hbody, completedWriting_of_body (by decide) hbody, sameMem_of_body rfl hbody,
      State.complete_fc s none⟩
  · obtain ⟨t, hstep, hpending, hstatus, herrInfo, hint, hmem, hregs, -⟩ :=
      (engineRaisesIllegalCmdOnReservedWords s p hp).1 (ne_encode_of_rsvdField hrsvd)
    exact ⟨t, hstep, hstatus, herrInfo, hpending, hint, hregs, hmem⟩
  · rw [writeReg, State.writeCmd_busy hp]
    exact ⟨rfl, rfl⟩

end Sys2Proof.Proofs
end

section
/-! SUPPORT. O19: the checks of a command as the list of R253, the first failing entry of a table (R150), and a frame
that does not fit its destination (R174). -/

namespace Sys2Proof.Machine

/-! ### The operand checks in the order of R253 -/

/-- The checks of a list, in order: the first that fails is raised. -/
def raiseFirst (checks : List (Bool × ErrCode × Culprit)) : Cmd Unit :=
  match firstError checks with
  | none => .ok ()
  | some e => .error (.raise e)

theorem raiseFirst_of_firstError {checks : List (Bool × ErrCode × Culprit)} {e : CmdError}
    (h : firstError checks = some e) : raiseFirst checks = .error (.raise e) := by
  rw [raiseFirst, h]

theorem raiseIf_eq_raiseFirst (bad : Bool) (code : ErrCode) (culprit : Culprit) :
    raiseIf bad code culprit = raiseFirst [(bad, code, culprit)] := by
  cases bad <;> rfl

/-- Two lists of checks, one after the other. -/
theorem raiseFirst_bind_raiseFirst (checks more : List (Bool × ErrCode × Culprit)) :
    (raiseFirst checks >>= fun _ => raiseFirst more) = raiseFirst (checks ++ more) := by
  induction checks with
  | nil => rfl
  | cons check rest ih =>
    obtain ⟨bad, code, culprit⟩ := check
    cases bad with
    | true => rfl
    | false => exact ih

theorem misaligned_eq_decide (a : Nat) : misaligned a = decide (a % 4 ≠ 0) := by
  simp [misaligned, bne, Bool.beq_eq_decide_eq]

theorem crcChecks_eq (p : Pending) : crcChecks p = raiseFirst (operandChecks .crc16Compute p) := by
  simp only [crcChecks, raiseIf_eq_raiseFirst, raiseFirst_bind_raiseFirst, List.singleton_append]
  rfl

theorem m32aChecks_eq (p : Pending) : m32aChecks p = raiseFirst (operandChecks .m32aCompute p) := by
  simp only [m32aChecks, raiseIf_eq_raiseFirst, raiseFirst_bind_raiseFirst, List.singleton_append, misaligned_eq_decide]
  rfl

theorem m32bRegionChecks_eq (p : Pending) : m32bRegionChecks p = raiseFirst (operandChecks .m32bRegion p) := by
  simp only [m32bRegionChecks, raiseIf_eq_raiseFirst, raiseFirst_bind_raiseFirst, List.singleton_append,
    misaligned_eq_decide]
  rfl

theorem tableOperandChecks_eq (p : Pending) :
    tableOperandChecks p = raiseFirst (operandChecks .m32bTableUpdate p) := by
  simp only [tableOperandChecks, raiseIf_eq_raiseFirst, raiseFirst_bind_raiseFirst, List.singleton_append,
    misaligned_eq_decide]
  rfl

theorem frameEncodeChecks_eq (p : Pending) : frameEncodeChecks p = raiseFirst (operandChecks .frameEncode p) := by
  simp only [frameEncodeChecks, raiseIf_eq_raiseFirst, raiseFirst_bind_raiseFirst, List.singleton_append,
    ← Bool.decide_or]
  rfl

theorem frameParseChecks_eq (p : Pending) : frameParseChecks p = raiseFirst (operandChecks .frameParse p) := by
  simp only [frameParseChecks, raiseIf_eq_raiseFirst, raiseFirst_bind_raiseFirst, List.singleton_append]
  rfl

theorem bitsChecks_eq (p : Pending) : bitsChecks p = raiseFirst (operandChecks .bitsExtract p) := by
  simp only [bitsChecks, raiseIf_eq_raiseFirst, raiseFirst_bind_raiseFirst, List.singleton_append]
  rfl

theorem Cmd.bind_of_error {α β : Type} {c : Cmd α} {e : Stop} (h : c = .error e) (f : α → Cmd β) :
    (c >>= f) = .error e := by
  rw [h, Cmd.error_bind]

/-- A failing table check ends both table commands. -/
theorem bodyOf_of_tableChecks_error {i : Instr} (hi : i = .m32bTableUpdate ∨ i = .m32bTableValidate) {p : Pending}
    {s : State} {e : Stop} (h : tableChecks p s = .error e) : bodyOf i p s = .error e := by
  rcases hi with rfl | rfl <;> exact Cmd.bind_of_error h _

/-- Every command makes its checks of R253 before anything else. -/
theorem bodyOf_of_raiseFirst_error {i : Instr} {p : Pending} {s : State} {e : Stop}
    (h : raiseFirst (operandChecks i p) = .error e) : bodyOf i p s = .error e := by
  cases i with
  | nop | fcExpectCts | fcReceivedCts | fcHandleTimeout | fcRetry | fcReset | fcToIdle | fcInit => cases h
  | crc16Compute | crc16Check =>
    exact bodyOf_crc_error (by decide) (Cmd.bind_of_error ((crcChecks_eq p).trans h) _)
  | m32aCompute | m32aUpdate | m32aValidate =>
    exact Cmd.bind_of_error (Cmd.bind_of_error ((m32aChecks_eq p).trans h) _) _
  | m32bRegion => exact Cmd.bind_of_error ((m32bRegionChecks_eq p).trans h) _
  | m32bTableUpdate | m32bTableValidate =>
    exact bodyOf_of_tableChecks_error (by decide) (Cmd.bind_of_error ((tableOperandChecks_eq p).trans h) _)
  | frameEncode => exact Cmd.bind_of_error ((frameEncodeChecks_eq p).trans h) _
  | frameDecode => exact Cmd.bind_of_error ((raiseIf_eq_raiseFirst ..).trans h) _
  | frameParse => exact Cmd.bind_of_error ((frameParseChecks_eq p).trans h) _
  | bitsExtract => exact Cmd.bind_of_error ((bitsChecks_eq p).trans h) _

/-! ### The first failing entry of a table (R150) -/

theorem fieldsWritten_of_written {m : Memory} {t n k : Nat} (h : written m t (12 * n)) (hk : k < n) (b : Build) :
    fieldsWritten b m t k := by
  have hat : ∀ c, c < 12 → (m.read (t + 12 * k + c)).isSome = true := fun c hc => by
    rw [Nat.add_assoc]; exact h _ (by omega)
  exact ⟨fun c hc => hat c (by omega), fun _ _ _ c hc => by rw [Nat.add_assoc _ 8]; exact hat _ (by omega)⟩

/-- The checking loop passes the entries before the one at `i + k` (R150). -/
theorem checkEntries_passing_all {b : Build} {m : Memory} {t len i : Nat} (k n : Nat)
    (h : ∀ l, l < i + k → entryPasses b m t len l ∧ fieldsWritten b m t l) :
    checkEntries b m t len (k + n) i = checkEntries b m t len n (i + k) := by
  induction k generalizing i with
  | zero => rw [Nat.zero_add, Nat.add_zero]
  | succ k ih =>
    obtain ⟨hpass, hw⟩ := h i (by omega)
    rw [Nat.succ_add, checkEntries_passing hpass hw, ih fun l hl => h l (by omega), Nat.add_assoc, Nat.add_comm 1]

theorem entryChecks_of_regionError {start stop len : Nat} {code : ErrCode} (h : regionError start stop len = some code)
    (i : Nat) : entryChecks len i start stop =
      .error (.raise { code := code, culprit := .tableEntry, entry := BitVec.ofNat 24 i }) := by
  have halign : (misaligned start || misaligned stop) = decide (start % 4 ≠ 0 ∨ stop % 4 ≠ 0) := by
    rw [misaligned_eq_decide, misaligned_eq_decide, Bool.decide_or]
  rw [entryChecks, halign, emptyRange, past]
  unfold regionError at h
  split_ifs at h with h1 h2 h3
  · cases h; rw [decide_eq_true h1]; rfl
  · cases h; rw [decide_eq_false h1, decide_eq_true h2]; rfl
  · cases h; rw [decide_eq_false h1, decide_eq_false h2, decide_eq_true h3]; rfl

theorem checkEntries_of_regionError {b : Build} {m : Memory} {t len n i : Nat} {code : ErrCode}
    (hw : fieldsWritten b m t i) (hs : sentinelAt b m t i = false)
    (h : regionError (startAt m t i) (stopAt m t i) len = some code) :
    checkEntries b m t len (n + 1) i =
      .error (.raise { code := code, culprit := .tableEntry, entry := BitVec.ofNat 24 i }) := by
  rw [checkEntries, readEntry_of_fieldsWritten hw, Cmd.ok_bind, hs]
  exact Cmd.bind_of_error (entryChecks_of_regionError h i) _

theorem tableChecks_of_regionError {p : Pending} {s : State} {j : Nat} {code : ErrCode} (hal : p.x0 % 4 = 0)
    (hfit : p.x0 + 12 * p.x1 ≤ p.len) (hw : written s.mem p.x0 (12 * p.x1)) (hj : j < p.x1)
    (hbefore : ∀ k, k < j → entryPasses s.build s.mem p.x0 p.len k) (hs : sentinelAt s.build s.mem p.x0 j = false)
    (h : regionError (startAt s.mem p.x0 j) (stopAt s.mem p.x0 j) p.len = some code) :
    tableChecks p s = .error (.raise { code := code, culprit := .tableEntry, entry := BitVec.ofNat 24 j }) := by
  obtain ⟨n, hn⟩ : ∃ n, p.x1 = j + (n + 1) := ⟨p.x1 - j - 1, by omega⟩
  rw [tableChecks, (tableOperandChecks_ok p ()).mpr ⟨hal, hfit⟩, Cmd.ok_bind, hn,
    checkEntries_passing_all j (n + 1) fun l hl => ⟨hbefore l (by omega), fieldsWritten_of_written hw (by omega) _⟩,
    Nat.zero_add]
  exact checkEntries_of_regionError (fieldsWritten_of_written hw hj _) hs h

/-! ### A frame that does not fit its destination (R174) -/

/-- A written buffer at least as long as its PCI byte says holds a complete frame. -/
theorem exists_frame_of_written {m : Memory} {a : Nat} {pci : Byte} (hpci : m.read a = some pci)
    (hw : written m a (pci.toNat % 16 + 2)) : ∃ f : RawFrame, f.complete ∧ f.pci = pci ∧ holds m a f.bytes := by
  obtain ⟨bytes, hbytes⟩ := Option.isSome_iff_exists.mp ((Memory.readBytes_isSome _ _ _).mpr hw)
  obtain ⟨hlen, hm⟩ := readBytes_eq_some_iff_holds.mp hbytes
  cases bytes with
  | nil => cases hlen
  | cons b more =>
    obtain rfl : b = pci := Option.some.inj ((hm 0 (Nat.succ_pos _)).symm.trans hpci)
    obtain ⟨f, rest, hf, heq⟩ := exists_complete_frame hlen.ge
    refine ⟨f, hf, ?_, (holds_append (heq ▸ hm)).1⟩
    exact (List.cons.inj heq).1.symm

/-- FRAME_DECODE looks at its destination once it has the whole frame (R174, log 11). -/
theorem frameDecodeBody_of_misfit {p : Pending} {s : State} {f : RawFrame} (hsrc : p.x0 + p.x1 ≤ p.len)
    (hf : f.complete) (hlen : f.payload.length + 2 ≤ p.x1) (hm : holds s.mem p.x0 f.bytes)
    (hdst : p.len < p.x2 + f.payload.length) :
    frameDecodeBody p s = .error (.raise { code := .bounds, culprit := .arg2, entry := 0 }) := by
  have hpay := hf.payload_length
  have hpci : s.mem.read p.x0 = some f.pci := hm 0 (by rw [f.length_bytes]; omega)
  have hread : s.mem.readBytes p.x0 (pciLen f.pci + 2) = some f.bytes :=
    readBytes_eq_some_iff_holds.mpr ⟨by rw [f.length_bytes, hpay], hm⟩
  have hpast : past (p.x2 + f.payload.length) p.len = true := decide_eq_true hdst
  rw [frameDecodeBody, (past_eq_false _ _).mpr hsrc, raiseIf_false, Cmd.ok_bind, if_neg (by omega), hpci, ofRead_some,
    Cmd.ok_bind, if_neg (by omega), hread, ofRead_some, Cmd.ok_bind, hf.fdec_bytes]
  exact Cmd.bind_of_error (by rw [RawFrame.decoded, hpast, raiseIf_true]) _

end Sys2Proof.Machine

namespace Sys2Proof.Proofs

open Sys2Proof.Machine

/-- Settles O19: an illegal word decodes to no command; the operand checks come first and in order; a table's entries
before the failing one pass; the frame is read whole before its destination is looked at. -/
theorem firstFailingCheckIsReported : Obligations.FirstFailingCheckIsReported := by
  refine ⟨fun s p d hp hd => engineStep_illegal hp hd,
    fun i s p e hp h => exec_of_body_raise hp (bodyOf_of_raiseFirst_error (raiseFirst_of_firstError h)),
    fun i s p j code hi hp hal hfit hw hj hbefore hs h => exec_of_body_raise hp
      (bodyOf_of_tableChecks_error hi (tableChecks_of_regionError hal hfit hw hj hbefore hs h)),
    fun s p pci hp hsrc _ hpci hlen hw hdst => ?_⟩
  obtain ⟨f, hf, rfl, hm⟩ := exists_frame_of_written hpci hw
  have hpay : f.payload.length = f.pci.toNat % 16 := hf
  rw [← hpay] at hlen hdst
  exact exec_of_body_raise hp (frameDecodeBody_of_misfit hsrc hf hlen hm hdst)

end Sys2Proof.Proofs
end

section
/-! SUPPORT. O14: the interrupt output as a level (60_exceptions.md R261). -/

namespace Sys2Proof.Machine

theorem ne_zero_iff_exists_bit {n : Nat} (hn : 0 < n) (x : BitVec n) : x ≠ 0 ↔ ∃ k, x.getLsbD k = true := by
  have hbit := BitVec.le_toNat_iff_getLsbD_eq_true (x := x) hn
  simp only [Nat.pow_zero, Nat.zero_add] at hbit
  rw [← hbit, Nat.one_le_iff_ne_zero, BitVec.toNat_ne, BitVec.ofNat_eq_ofNat, BitVec.toNat_zero]

/-- The output is 1 exactly when some bit is both pending and enabled. -/
theorem irq_iff (s : State) :
    s.irq = true ↔ ∃ k, s.intStatus.getLsbD k = true ∧ s.intEnable.getLsbD k = true := by
  rw [State.irq, bne_iff_ne, ne_zero_iff_exists_bit (by decide)]
  simp only [BitVec.getLsbD_and, Bool.and_eq_true]

/-- The mask has every bit an interrupt register has (R40). -/
theorem getLsbD_intMask {k : Nat} (hk : k < 3) : (0x7 : Word).getLsbD k = true := by
  revert k
  decide

end Sys2Proof.Machine

namespace Sys2Proof.Proofs

open Sys2Proof.Machine

/-- Settles O14: bit by bit, the masked registers are the stored ones; a write of `INT_ENABLE` stores the bit and keeps
`INT_STATUS`. -/
theorem interruptOutputIsTheMaskedLevel : Obligations.InterruptOutputIsTheMaskedLevel := by
  refine ⟨fun s => ?_, fun s v k rest hk hpending henabled h => ?_⟩
  · rw [irq_iff, ne_zero_iff_exists_bit (by decide)]
    refine exists_congr fun k => ?_
    simp only [readReg, BitVec.getLsbD_and, getLsbD_intWord, Bool.and_eq_true]
    exact (and_iff_left_of_imp fun ⟨hb, _⟩ => getLsbD_intMask (BitVec.lt_of_getLsbD hb)).symm
  · refine ⟨_, step_writeReg (r := .intEnable) (by decide) h, (irq_iff _).mpr ⟨k, ?_, ?_⟩⟩
    · exact (getLsbD_intWord s.intStatus k).symm.trans hpending
    · rw [← getLsbD_intWord]
      exact (getLsbD_intEnable_writeReg v (s.setAgenda rest) hk).trans henabled

end Sys2Proof.Proofs
end

section
/-! SUPPORT. O5, O15, O16: the acceptance of a command word, placed or written by the host, and the overrun
(60_exceptions.md R256, R257; 20_memory.md R70). -/

namespace Sys2Proof.Machine

theorem withFetchWord_word (s : State) (w : Word) : s.withFetchWord 32 w.toNat = s.place w := by
  rw [State.withFetchWord, Nat.mod_eq_of_lt w.isLt, BitVec.ofNat_toNat, BitVec.setWidth_eq]

/-- After a word is placed the engine's step comes next, on the accepted word (log 14). -/
theorem step_place (s : State) (w : Word) : step (s.place w) = engineStep (s.accept w) :=
  step_cons (s := s.place w) rfl

theorem decodeTableWord_of_decode {w : Word} {i : Instr} (h : decode w = .ok i) :
    decodeTableWord 32 w.toNat = some i := by
  have hlt := w.isLt
  simp only [decodeTableWord, Nat.mod_eq_of_lt hlt, if_pos hlt, BitVec.ofNat_toNat, BitVec.setWidth_eq, h]

theorem step_writeCmd_busy {s : State} {w : Word} {rest : List Event} (hp : s.pending ≠ none)
    (h : s.agenda = wrEvent .cmd w :: rest) : step s = .next (s.overrun.atPort (some .done) rest) := by
  rw [step_writeReg (mem_registerMap .cmd) h, afterWrite, writeReg, State.writeCmd_busy (s := s.setAgenda rest) hp]
  rfl

theorem getLsbD_statusWord_busy (s : State) : s.statusWord.getLsbD 0 = s.busy := by
  simp only [State.statusWord, BitVec.getLsbD_append]
  cases s.busy <;> rfl

theorem sameRegsExcept_accept (s : State) (w : Word) : sameRegsExcept [.cmd, .status] s (s.accept w) := by
  intro r hr
  cases r <;> simp at hr <;> rfl

theorem sameRegsExcept_overrun (s : State) : sameRegsExcept [.status] s s.overrun := by
  intro r hr
  cases r <;> simp at hr <;> rfl

theorem readReg_atPort (s : State) (x : Option BusResponse) (l : List Event) (r : RegName) :
    readReg r (s.atPort x l) = readReg r s := by
  cases r <;> rfl

end Sys2Proof.Machine

namespace Sys2Proof.Proofs

open Sys2Proof.Machine

/-- Settles O5: placing a word accepts it and puts the engine's step first. -/
theorem placedWordRunsNext : Obligations.PlacedWordRunsNext := by
  intro s w i hi
  refine ⟨?_, rfl, decodeTableWord_of_decode hi⟩
  rw [withFetchWord_word, step_place]
  exact engineStep_command (State.accept_pending s w) hi

/-- Settles O15: the step of the write is the acceptance, which latches and keeps the report. -/
theorem cmdWriteIsAcceptedWhenIdle : Obligations.CmdWriteIsAcceptedWhenIdle := by
  intro s w rest hp h
  refine ⟨_, step_writeCmd_idle hp h, rfl, rfl, ?_, rfl, fun r hr => ?_, fun _ => rfl, rfl, rfl, rfl, rfl⟩
  · exact getLsbD_statusWord_busy _
  · rw [readReg_atPort, sameRegsExcept_accept s w r hr]

/-- Settles O16: the step of the write is the overrun, which sets `OVR`. -/
theorem cmdWriteIsDroppedWhenBusy : Obligations.CmdWriteIsDroppedWhenBusy := by
  intro s w rest hp h
  refine ⟨_, step_writeCmd_busy hp h, ?_, rfl, rfl, fun r hr => ?_, rfl, fun _ => rfl, rfl, rfl, rfl, rfl⟩
  · exact getLsbD_statusWord_ovr _
  · rw [readReg_atPort, sameRegsExcept_overrun s r hr]

end Sys2Proof.Proofs
end

section
/-! SUPPORT. O17, O18: what a completion writes, and that an error keeps the state it found (60_exceptions.md R250,
R252, R258). -/

namespace Sys2Proof.Machine

theorem getLsbD_status_complete (s : State) (e : Option CmdError) :
    (readReg .status (s.complete e)).getLsbD 0 = false := by
  rw [readReg, getLsbD_statusWord_busy, State.busy, State.complete_pending, Option.isSome_none]

end Sys2Proof.Machine

namespace Sys2Proof.Proofs

open Sys2Proof.Machine

/-- Settles O18: a completion without error clears `ERR`, and one with an error keeps the state the command found. -/
theorem errorsArePrecise : Obligations.ErrorsArePrecise := by
  intro i s t h herr
  obtain ⟨-, -, ⟨u, -, rfl⟩ | ⟨e, -, -, rfl⟩⟩ := exec_next h
  · rw [State.complete_none_status] at herr
    cases herr
  · exact ⟨e, rfl⟩

/-- Settles O17: the bookkeeping's fields, code by code and culprit by culprit, and its frame. -/
theorem completionBookkeeping : Obligations.CompletionBookkeeping := by
  refine ⟨fun s => ⟨⟨rfl, rfl, rfl, rfl⟩, ?_, getLsbD_status_complete s none⟩,
    fun s e => ⟨rfl, getLsbD_status_complete s _, ?_, ?_, intStatus_complete_some s e⟩,
    fun s e => ⟨readReg_complete s e, State.complete_mem s e, State.complete_fc s e,
      ⟨State.complete_build s e, State.complete_resp s e, State.complete_agenda s e⟩, State.complete_timerLatch s e⟩⟩
  · exact (show ErrInfo.toWord { entry := 0, operand := 0xFF } = 0x000000FF by decide)
  · rw [State.complete_some_status]
    cases e.code <;> rfl
  · rw [State.complete_some_errInfo]
    cases e.culprit <;> rfl

end Sys2Proof.Proofs
end

section
/-! SUPPORT. O7, O9: the power-on reset beside the soft reset, and the invariant of BUF at reset (70_reset_and_hazards.md
R280, R281). -/

namespace Sys2Proof.Machine

/-- The power-on reset differs from the soft reset in BUF and the last bus answer only (R281). -/
theorem State.powerOnReset_eq_softReset (s : State) :
    s.powerOnReset = State.softReset { s with mem := [], resp := none } := rfl

theorem State.softReset_reset : State.reset.softReset = State.reset := rfl

theorem readReg_powerOnReset (s : State) (r : RegName) : readReg r s.powerOnReset = resetValue s.build r := by
  rw [State.powerOnReset_eq_softReset, readReg_softReset]

theorem readReg_reset (r : RegName) : readReg r State.reset = resetValue Build.thisHardware r := by
  rw [← State.softReset_reset, readReg_softReset]
  rfl

theorem irq_powerOnReset (s : State) : s.powerOnReset.irq = false := by
  rw [State.powerOnReset_eq_softReset, irq_softReset]

theorem Memory.inside_reset (n : Nat) : State.reset.mem.Inside n where
  wf := Memory.wf_reset
  below := List.forall_mem_nil _

theorem Build.wellFormed_thisHardware : Build.thisHardware.wellFormed = true := by decide

theorem bufInvariant_reset : bufInvariant State.reset :=
  (bufInvariant_iff State.reset).mpr
    ⟨Build.wellFormed_thisHardware, Memory.inside_reset _, Nat.zero_le _, nofun⟩

end Sys2Proof.Machine

namespace Sys2Proof.Proofs

open Sys2Proof.Machine

/-- Settles O7: the table of reset values is read once, after a soft reset; the power-on reset and the reset state are
soft resets of a state with an empty BUF. -/
theorem resetsLeaveTheResetState : Obligations.ResetsLeaveTheResetState :=
  ⟨fun s r => ⟨readReg_softReset s r, readReg_powerOnReset s r⟩,
    fun s => ⟨State.softReset_pending s, State.powerOnReset_pending s, irq_softReset s, irq_powerOnReset s⟩,
    fun s a => ⟨congrArg (·.read a) (State.softReset_mem s), Memory.read_nil a⟩,
    readReg_reset, rfl, Memory.read_nil⟩

/-- Settles O9: the three invariants at reset, where nothing is written, reported or armed. -/
theorem resetMeetsTheInvariants : Obligations.ResetMeetsTheInvariants :=
  ⟨bufInvariant_reset, reportInvariant_reset, fcInvariant_reset⟩

end Sys2Proof.Proofs
end
